-- ==== Sys2Proof/Word.lean ====
section
/-! DEFINITION. The word types of the BWCC: bytes, bus words, 256-bit registers, register numbers. -/

namespace Sys2Proof

/-- A byte of IBUF or OBUF (10_state.md R48, R49). -/
abbrev Byte := BitVec 8

/-- A bus word and a command word: BUS_W = 32 bits (00_scope.md R8, 30_encoding.md R90). -/
abbrev Word := BitVec 32

/-- A big-number register: W = 256 bits (00_scope.md R8, R10). -/
abbrev U256 := BitVec 256

/-- A register field of the command word: the number of one of V0..V15 (30_encoding.md R91, R92). -/
abbrev RegIdx := BitVec 4

/-- One 5-bit symbol of the Bech32 checksum register (42_codec.md R238). -/
abbrev Sym := BitVec 5

end Sys2Proof
end

