-- ==== Sys2Proof/Machine/Errors.lean ====
section
/-! DEFINITION. The errors a command can report, and their codes. -/

namespace Sys2Proof.Machine

/-- The error codes of 60_exceptions.md R281; codes 9 to 15 are never written. -/
inductive ErrCode where
  /-- R282: the word is not in the opcode table -/
  | illegal
  /-- R283: a length out of range, an empty key, a length that does not match its tag -/
  | length
  /-- R284: a bad SEC1 tag, Base58 character or BCHMOD symbol -/
  | format
  /-- R285: an inverse that does not exist -/
  | noinv
  /-- R286: a modulus or curve prime even or below 3 -/
  | modulus
  /-- R287: no square root found -/
  | nonresidue
  /-- R288: a coordinate >= p -/
  | range
  /-- R289: PMUL with k = 0 -/
  | scalar
deriving DecidableEq, Repr

/-- The value STATUS.ERRCODE takes (60_exceptions.md R281). -/
def ErrCode.code : ErrCode → BitVec 4
  | .illegal => 1#4
  | .length => 2#4
  | .format => 3#4
  | .noinv => 4#4
  | .modulus => 5#4
  | .nonresidue => 6#4
  | .range => 7#4
  | .scalar => 8#4

end Sys2Proof.Machine
end

