-- ==== Sys2Proof/Config.lean ====
section
/-! DEFINITION. What an implementation or the platform fixes, and the free values of the spec. The
opaque constants have no value any proof can see: a claim holds whatever they are. -/

namespace Sys2Proof.Config

/-- BWCC_BASE: the bus address of the window's first byte, the platform's choice
(00_scope.md R9). Log entry 12. -/
opaque bwccBase : Nat

/-- BWCC_IRQ: the line of the platform's interrupt controller, the platform's choice
(00_scope.md R9, 60_exceptions.md R290). Log entry 12. -/
opaque bwccIrq : Nat

/-- The draw that the `epoch`-th reset gives the buffer byte at window offset `off`
(10_state.md R48, R49; 70_reset_and_hazards.md R321: one draw per byte at each reset).
A free value, log entry 3. -/
opaque bufferDraw (epoch off : Nat) : Byte

/-- The `n`-th draw of a host read of data-plane state while BUSY (10_state.md R53). A free
value, log entry 5. -/
opaque busyDraw (n : Nat) : Word

end Sys2Proof.Config
end

