-- ==== Sys2Proof/Machine/Secp256k1.lean ====
section
/-! DEFINITION. The curve-parameter bank and the secp256k1 values it holds after reset. -/

namespace Sys2Proof.Machine

/-- The curve bank: the domain parameters of y^2 = x^3 + a·x + b mod p (10_state.md R41). -/
structure Curve where
  p : U256
  a : U256
  b : U256
  n : U256
  gx : U256
  gy : U256
deriving DecidableEq, Repr

/-- CURVE.P after reset: 2^256 - 2^32 - 977 (10_state.md R44). -/
def secpP : U256 := 0xFFFFFFFFFFFFFFFFFFFFFFFFFFFFFFFFFFFFFFFFFFFFFFFFFFFFFFFEFFFFFC2F#256

/-- CURVE.N after reset (10_state.md R45; the spec marks it as from general knowledge: log entry 16). -/
def secpN : U256 := 0xFFFFFFFFFFFFFFFFFFFFFFFFFFFFFFFEBAAEDCE6AF48A03BBFD25E8CD0364141#256

/-- CURVE.GX after reset (10_state.md R46; log entry 16). -/
def secpGx : U256 := 0x79BE667EF9DCBBAC55A06295CE870B07029BFCDB2DCE28D959F2815B16F81798#256

/-- CURVE.GY after reset (10_state.md R46; log entry 16). -/
def secpGy : U256 := 0x483ADA7726A3C4655DA4FBFC0E1108A8FD17B448A68554199C47D08FFB10D4B8#256

/-- The six secp256k1 values, the constant of 10_state.md R47. -/
def secp256k1 : Curve where
  p := secpP
  a := 0#256
  b := 7#256
  n := secpN
  gx := secpGx
  gy := secpGy

end Sys2Proof.Machine
end

