-- ==== Sys2Proof/Syntax.lean ====
section
/-! DEFINITION. The commands of the BWCC, one constructor per row of the opcode map. -/

namespace Sys2Proof

/-- The 21 commands (30_encoding.md R94), each with the operand fields of its format class (R93).
A field used as a pair holds the number of the pair's first register and must be even
(30_encoding.md R96); `Instr.wf` says so. -/
inductive Instr where
  /-- 43_control.md R270 -/
  | nop
  /-- 40_modarith.md R125 -/
  | modadd (rd rs1 rs2 rm : RegIdx)
  /-- 40_modarith.md R127 -/
  | modsub (rd rs1 rs2 rm : RegIdx)
  /-- 40_modarith.md R129 -/
  | modmul (rd rs1 rs2 rm : RegIdx)
  /-- 40_modarith.md R132 -/
  | modred (rd rs1 rm : RegIdx)
  /-- 40_modarith.md R134 -/
  | modexp (rd rs1 rs2 rm : RegIdx)
  /-- 40_modarith.md R137 -/
  | modinv (rd rs1 rm : RegIdx)
  /-- 40_modarith.md R141 -/
  | modsqrt (rd rs1 rm : RegIdx)
  /-- 41_ecc.md R170: `rd`, `rs1` pairs -/
  | pdbl (rd rs1 : RegIdx)
  /-- 41_ecc.md R174: `rd`, `rs1`, `rs2` pairs -/
  | padd (rd rs1 rs2 : RegIdx)
  /-- 41_ecc.md R178: `rd`, `rs1` pairs, `rs2` the scalar's register -/
  | pmul (rd rs1 rs2 : RegIdx)
  /-- 41_ecc.md R185: `rs1` a pair -/
  | pval (rs1 : RegIdx)
  /-- 41_ecc.md R187: `rd` a pair, `rs1` the register of x, `isOdd` = FL[0] -/
  | pdecomp (rd rs1 : RegIdx) (isOdd : Bool)
  /-- 41_ecc.md R192: `rd` a pair -/
  | ploadg (rd : RegIdx)
  /-- 41_ecc.md R194 -/
  | secpload
  /-- 41_ecc.md R196: `rd` a pair -/
  | sec1dec (rd : RegIdx)
  /-- 41_ecc.md R198: `rs1` a pair, `compressed` = FL[0] -/
  | sec1enc (rs1 : RegIdx) (compressed : Bool)
  /-- 42_codec.md R224 -/
  | b58enc
  /-- 42_codec.md R230 -/
  | b58dec
  /-- 42_codec.md R240 -/
  | bech32enc
  /-- 42_codec.md R246 -/
  | bchmod (rd : RegIdx)
deriving DecidableEq, Repr

end Sys2Proof
end

