-- ==== Sys2Proof/Machine/State.lean ====
section
/-! DEFINITION. The state of the BWCC, all of it, as plain data, and its reset value. -/

namespace Sys2Proof.Machine

/-- The defined fields of STATUS (10_state.md R30). Its other bits are reserved, read as 0 and
ignore writes, so they have no storage. `busy` is also the engine's phase (10_state.md R50). -/
structure Status where
  /-- bit 0: a command is in flight (R31) -/
  busy : Bool
  /-- bit 1: the last command completed without error (R32) -/
  done : Bool
  /-- bit 2: the last command completed with an error (R32) -/
  err : Bool
  /-- bit 3: a write was dropped (R34) -/
  ovr : Bool
  /-- bit 4: the result of the last successful PVAL (R35) -/
  pred : Bool
  /-- bits 11:8 (R33) -/
  errcode : BitVec 4
deriving DecidableEq, Repr

/-- The width of a bus access (20_memory.md R63). Only `w32` is taken. -/
inductive Width where
  | w8 | w16 | w32 | w64 | burst
deriving DecidableEq, Repr

/-- The address of a bus access, seen from the window (20_memory.md R60, R64). -/
inductive BusAddr where
  /-- an offset of the 4096-byte window -/
  | window (off : BitVec 12)
  /-- an address outside the window, which the BWCC does not decode -/
  | outside (addr : Nat)
deriving DecidableEq, Repr

/-- A host bus transaction (20_memory.md R61). The data of a write whose width is not 32 bits is
not held: such a write is a bus error (R63). -/
inductive Transaction where
  | read (addr : BusAddr) (width : Width)
  | write (addr : BusAddr) (width : Width) (data : Word)
deriving DecidableEq, Repr

/-- The kinds of event that change BWCC state (43_control.md R260). -/
inductive Event where
  /-- a host transaction -/
  | host (t : Transaction)
  /-- a turn of the engine: in phase BUSY the completion (R263), in phase IDLE nothing -/
  | engine
  /-- the reset input (70_reset_and_hazards.md R320) -/
  | reset
deriving DecidableEq, Repr

/-- What the bus answers to a transaction (20_memory.md R61, R64). -/
inductive Response where
  /-- a read's word -/
  | data (w : Word)
  /-- a write's success -/
  | ok
  /-- misaligned, or not 32 bits wide (R62, R63) -/
  | busError
  /-- not an address of the window (R64) -/
  | notDecoded
deriving DecidableEq, Repr

/-- The two byte buffers, keyed by window offset (20_memory.md R66): IBUF[j] at 0x400 + j, OBUF[j]
at 0x800 + j. Only bytes written since the last reset are listed, in strictly rising order; see
`Memory.wf` and log entry 3. -/
abbrev Memory := List Host.Cell

/-- The state of the BWCC (10_state.md R20), then the model's own four fields. -/
structure State where
  /-- V0..V15 (10_state.md R21) -/
  v : Vector U256 16
  /-- CTRL.IE (10_state.md R28) -/
  ie : Bool
  /-- STATUS (10_state.md R30) -/
  status : Status
  /-- CMD, the in-flight or last command word (10_state.md R37, R51) -/
  cmd : Word
  /-- ILEN (10_state.md R38) -/
  ilen : BitVec 16
  /-- HLEN (10_state.md R39) -/
  hlen : BitVec 16
  /-- OLEN (10_state.md R40) -/
  olen : BitVec 16
  /-- the curve bank (10_state.md R41) -/
  curve : Curve
  /-- IBUF and OBUF (10_state.md R48, R49) -/
  mem : Memory
  /-- the model's: the events still to come, the first first (log entries 2, 14) -/
  inputs : List Event
  /-- the model's: the bus's answer to the last transaction (log entry 9) -/
  resp : Option Response
  /-- the model's: how many draws reads while BUSY have taken (log entry 5) -/
  draws : Nat
  /-- the model's: how many resets there have been (log entry 4) -/
  epoch : Nat
deriving DecidableEq, Repr

/-- Reasons the machine stops with a fault: none. Every command completes, every bus access
completes, and every error is a completion with a code (93_implementation_defined.md,
"Treatments": no behaviour of the BWCC is stuck). No constructor, so nobody raises one: safe. -/
inductive Fault where
deriving DecidableEq, Repr

/-- Reasons the model refuses an instruction. -/
inductive Refusal where
  /-- Raised only by an arm of `exec` whose instruction has no meaning yet: safe. No arm is left
  so. -/
  | notModelled (mnemonic : String)
deriving DecidableEq, Repr

/-- The machine right after reset (70_reset_and_hazards.md R321). The buffers list nothing: each
byte is a draw of this reset. -/
def State.reset : State where
  v := Vector.replicate 16 0#256
  ie := false
  status := ⟨false, false, false, false, false, 0#4⟩
  cmd := 0#32
  ilen := 0#16
  hlen := 0#16
  olen := 0#16
  curve := secp256k1
  mem := []
  inputs := []
  resp := none
  draws := 0
  epoch := 0

end Sys2Proof.Machine
end

