-- ==== Sys2Proof/Machine/Flags.lean ====
section
/-! DEFINITION. Every way STATUS changes, its word, and the interrupt output. -/

namespace Sys2Proof.Machine

/-- The word a read of STATUS returns: bits 11:8 ERRCODE, 4 PRED, 3 OVR, 2 ERR, 1 DONE, 0 BUSY,
every other bit 0 (10_state.md R30). -/
def Status.word (st : Status) : Word :=
  0#20 ++ st.errcode ++ 0#3 ++ BitVec.ofBool st.pred ++ BitVec.ofBool st.ovr ++ BitVec.ofBool st.err ++
    BitVec.ofBool st.done ++ BitVec.ofBool st.busy

/-- Issue clears DONE, ERR and ERRCODE and sets BUSY; OVR and PRED stay (43_control.md R261). -/
def Status.issued (st : Status) : Status :=
  { st with busy := true, done := false, err := false, errcode := 0#4 }

/-- Completion without error: DONE <- 1, ERRCODE <- 0, BUSY <- 0 (43_control.md R263). -/
def Status.completed (st : Status) : Status :=
  { st with busy := false, done := true, errcode := 0#4 }

/-- Completion with an error: ERR <- 1, ERRCODE <- code, BUSY <- 0 (43_control.md R263,
60_exceptions.md R293). -/
def Status.failed (st : Status) (e : ErrCode) : Status :=
  { st with busy := false, err := true, errcode := e.code }

/-- A dropped write sets OVR (10_state.md R34). -/
def Status.overrun (st : Status) : Status := { st with ovr := true }

/-- A host write to STATUS: a 1 in bit 1, 2 or 3 clears DONE, ERR or OVR; nothing else acts
(10_state.md R30, R32, R34, R36). -/
def Status.w1c (st : Status) (w : Word) : Status :=
  { st with
    done := st.done && !w.getLsbD 1
    err := st.err && !w.getLsbD 2
    ovr := st.ovr && !w.getLsbD 3 }

/-- The interrupt output, level-sensitive (60_exceptions.md R290, R295). -/
def State.irq (s : State) : Bool := s.ie && (s.status.done || s.status.err)

/-- The interrupt as the platform sees it: the line BWCC_IRQ when it is asserted
(00_scope.md R9, 60_exceptions.md R290). -/
def State.irqLine (s : State) : Option Nat := if s.irq then some Config.bwccIrq else none

end Sys2Proof.Machine
end

