-- ==== Sys2Proof/Machine/Ops.lean ====
section
/-! DEFINITION. The named operations over memory, buffers and the command lifecycle: byte access,
byte strings, issue, completion with success or error, reset. -/

namespace Sys2Proof.Machine

/-- The outcome of a meaning or a step. -/
abbrev Result := Host.Outcome State Fault Refusal

/-! Memory -/

/-- The window offset of IBUF[0] (20_memory.md R66). -/
def ibufBase : Nat := 0x400

/-- The window offset of OBUF[0] (20_memory.md R66). -/
def obufBase : Nat := 0x800

/-- IBUF_SIZE (00_scope.md R8). -/
def ibufSize : Nat := 256

/-- OBUF_SIZE (00_scope.md R8). -/
def obufSize : Nat := 512

/-- The offsets that hold a buffer byte: IBUF's and OBUF's (20_memory.md R66). -/
abbrev inBuffer (a : Nat) : Prop :=
  (ibufBase ≤ a ∧ a < ibufBase + ibufSize) ∨ (obufBase ≤ a ∧ a < obufBase + obufSize)

/-- The one canonical form of a memory: offsets strictly rising, each inside a buffer (log entry 3). -/
abbrev Memory.wf (m : Memory) : Prop :=
  m.Pairwise (fun c d => c.1 < d.1) ∧ ∀ c ∈ m, inBuffer c.1

/-- The byte listed at an offset, if one has been written since the last reset. -/
def Memory.get? : Memory → Nat → Option Byte
  | [], _ => none
  | c :: m, a => if c.1 = a then some c.2 else Memory.get? m a

/-- Lists a byte at an offset, in place. -/
def Memory.set (a : Nat) (b : Byte) : Memory → Memory
  | [] => [(a, b)]
  | c :: m =>
    if a < c.1 then (a, b) :: c :: m
    else if a = c.1 then (a, b) :: m
    else c :: Memory.set a b m

/-- Lists a byte string at rising offsets. -/
def Memory.setBytes (m : Memory) (a : Nat) : List Byte → Memory
  | [] => m
  | b :: bs => Memory.setBytes (m.set a b) (a + 1) bs

/-- The buffer byte at a window offset. A byte that nothing has written since the last reset is
that reset's draw (10_state.md R48, R49; log entry 3). This is the one definition of what an
unlisted offset reads as. -/
def State.byteAt (s : State) (a : Nat) : Byte :=
  match s.mem.get? a with
  | some b => b
  | none => Config.bufferDraw s.epoch a

/-- IBUF[j]. -/
def State.ibuf (s : State) (j : Nat) : Byte := s.byteAt (ibufBase + j)

/-- OBUF[j]. -/
def State.obuf (s : State) (j : Nat) : Byte := s.byteAt (obufBase + j)

/-- bytes(IBUF, j, n): IBUF[j], ..., IBUF[j+n-1] (00_scope.md R14). -/
def State.ibytes (s : State) (j n : Nat) : List Byte := (List.range n).map fun i => s.ibuf (j + i)

/-- OBUF[0 .. len(out)-1] <- out; OLEN <- len(out) (10_state.md R40, R49). Every output fits
(42_codec.md R223), so cutting at OBUF_SIZE discards nothing. -/
def State.output (s : State) (out : List Byte) : State :=
  { s with
    mem := s.mem.setBytes obufBase (out.take obufSize)
    olen := BitVec.ofNat 16 out.length }

/-! Byte strings and integers: big-endian (20_memory.md R69, 00_scope.md R14) -/

/-- bitlen(k): the position of the highest set bit plus one, 0 for 0 (00_scope.md R11). -/
def bitlen (k : Nat) : Nat := if k = 0 then 0 else k.log2 + 1

/-- be_int(s): the first byte most significant, 0 for the empty string. -/
def beInt (bs : List Byte) : Nat := bs.foldl (fun acc b => acc * 256 + b.toNat) 0

/-- be_bytes_N(v), for v < 256^N. -/
def beBytes : Nat → Nat → List Byte
  | 0, _ => []
  | n + 1, v => beBytes n (v / 256) ++ [BitVec.ofNat 8 v]

/-- The loop "while v > 0: prepend v mod base; v <- v div base"; the first argument bounds its
rounds (log entry 18). -/
def digitsLoop (base : Nat) : Nat → Nat → List Nat → List Nat
  | 0, _, acc => acc
  | k + 1, v, acc => if v = 0 then acc else digitsLoop base k (v / base) (v % base :: acc)

/-- The digits of v in a base of at least 2, most significant first; none for 0. -/
def digits (base v : Nat) : List Nat := digitsLoop base (bitlen v) v []

/-- minimal_be(v): the shortest big-endian string, empty for 0 (00_scope.md R14, 42_codec.md R232). -/
def minimalBe (v : Nat) : List Byte := (digits 256 v).map (BitVec.ofNat 8)

/-! The command lifecycle -/

/-- Issue of a command word (43_control.md R261). The snapshot needs no copy: R262, log entry 8. -/
def State.issue (s : State) (w : Word) : State := { s with cmd := w, status := s.status.issued }

/-- Completion without error, after the command's writes (43_control.md R263). -/
def State.succeed (s : State) : State := { s with status := s.status.completed }

/-- Completion with an error, the BWCC's trap entry: STATUS.ERR, ERRCODE and BUSY, and nothing else
(60_exceptions.md R293, 43_control.md R264). There is no return from it (R294): the host writes 1
to ERR (`Status.w1c`) or issues the next command (`State.issue`). -/
def State.fail (s : State) (e : ErrCode) : State := { s with status := s.status.failed e }

/-- Completes a command from the state `s` at completion: either the state with all its writes done,
or an error and none of them (43_control.md R263, R264). -/
def State.finish (s : State) : Except ErrCode State → Result
  | .ok t => .next t.succeed
  | .error e => .next (s.fail e)

/-- Reset, by the reset input or by CTRL.SRST, in any phase (70_reset_and_hazards.md R320 to R323):
every piece of the spec's state takes its reset value; the buffers take new draws. The model's own
`inputs`, `resp` and `draws` are no state of the machine and go on. -/
def State.doReset (s : State) : State :=
  { State.reset with
    inputs := s.inputs
    resp := s.resp
    draws := s.draws
    epoch := s.epoch + 1 }

end Sys2Proof.Machine
end

