-- ==== Sys2Proof/WellFormed.lean ====
section
/-! DEFINITION. Well-formed commands: every pair field is even. -/

namespace Sys2Proof

/-- A field can name a point register pair exactly when it is even (10_state.md R22,
30_encoding.md R96). -/
def pairOk (r : RegIdx) : Bool := !r.getLsbD 0

/-- A command is well formed when each field its class reads as a pair is even
(30_encoding.md R93, R96). Every other field admits every value its type has. -/
def Instr.wf : Instr → Bool
  | .nop => true
  | .modadd _ _ _ _ => true
  | .modsub _ _ _ _ => true
  | .modmul _ _ _ _ => true
  | .modred _ _ _ => true
  | .modexp _ _ _ _ => true
  | .modinv _ _ _ => true
  | .modsqrt _ _ _ => true
  | .pdbl rd rs1 => pairOk rd && pairOk rs1
  | .padd rd rs1 rs2 => pairOk rd && pairOk rs1 && pairOk rs2
  | .pmul rd rs1 _ => pairOk rd && pairOk rs1
  | .pval rs1 => pairOk rs1
  | .pdecomp rd _ _ => pairOk rd
  | .ploadg rd => pairOk rd
  | .secpload => true
  | .sec1dec rd => pairOk rd
  | .sec1enc rs1 _ => pairOk rs1
  | .b58enc => true
  | .b58dec => true
  | .bech32enc => true
  | .bchmod _ => true

end Sys2Proof
end

