-- ==== Sys2Proof/Machine/Operands.lean ====
section
/-! DEFINITION. Every operand form: a single register, a pair, the modulus register, the curve
bank's prime, the words of a 256-bit register. -/

namespace Sys2Proof.Machine

/-- An affine point, or any pair's two values, as unsigned integers (10_state.md R22). -/
structure Point where
  x : Nat
  y : Nat
deriving DecidableEq, Repr

/-- V[r] (00_scope.md R13). -/
def State.getV (s : State) (r : RegIdx) : U256 := s.v[r.toNat]

/-- V[r] <- x (00_scope.md R13). -/
def State.setV (s : State) (r : RegIdx) (x : U256) : State := { s with v := s.v.set r.toNat x }

/-- A register operand as the unsigned integer it holds (40_modarith.md R120). -/
def State.nat (s : State) (r : RegIdx) : Nat := (s.getV r).toNat

/-- V[rd] <- an integer below 2^256. -/
def State.setNat (s : State) (r : RegIdx) (n : Nat) : State := s.setV r (BitVec.ofNat 256 n)

/-- VP[r] = (V[r], V[r+1]), for even r (00_scope.md R13, 10_state.md R22). -/
def State.pair (s : State) (r : RegIdx) : Point := ⟨s.nat r, s.nat (r + 1#4)⟩

/-- VP[r] <- (x, y) (00_scope.md R13). -/
def State.setPair (s : State) (r : RegIdx) (q : Point) : State :=
  (s.setNat r q.x).setNat (r + 1#4) q.y

/-- The modulus check, used on V[rm] and on CURVE.P (40_modarith.md R121, 41_ecc.md R162). -/
abbrev badModulus (m : Nat) : Prop := m < 3 ∨ m % 2 = 0

/-- A computation that first checks its modulus (40_modarith.md R121). -/
def checkModulus {α : Type} (m : Nat) (k : Except ErrCode α) : Except ErrCode α :=
  if badModulus m then .error .modulus else k

/-- A computation that first checks that a pair field is even. The decoder has made the same check;
this one gives an ill-formed `Instr` the error its word has (30_encoding.md R96, 60_exceptions.md
R282; log entry 13). -/
def checkPair {α : Type} (r : RegIdx) (k : Except ErrCode α) : Except ErrCode α :=
  if pairOk r then k else .error .illegal

/-- CURVE.P as an integer (41_ecc.md R160). -/
def State.primeP (s : State) : Nat := s.curve.p.toNat

/-- a = CURVE.A mod p (41_ecc.md R160, 10_state.md R43). -/
def State.coeffA (s : State) : Nat := s.curve.a.toNat % s.primeP

/-- b = CURVE.B mod p (41_ecc.md R160, 10_state.md R43). -/
def State.coeffB (s : State) : Nat := s.curve.b.toNat % s.primeP

/-- Word k of a 256-bit register: its bits 32k+31 : 32k (20_memory.md R67). -/
def wordOf (x : U256) (k : Fin 8) : Word := x.extractLsb' (32 * k.val) 32

/-- A 256-bit register with word k replaced and no other bit changed (20_memory.md R67). -/
def withWord (x : U256) (k : Fin 8) (w : Word) : U256 :=
  (x &&& ~~~((0xFFFFFFFF#256) <<< (32 * k.val))) ||| (w.setWidth 256 <<< (32 * k.val))

end Sys2Proof.Machine
end

