-- ==== Sys2Proof/Machine/Bus.lean ====
section
/-! DEFINITION. The bus: the address map of the window, and what a read and a write do in each
phase (20_memory.md, 43_control.md R273). -/

namespace Sys2Proof.Machine

/-- WINDOW (00_scope.md R8). -/
def windowSize : Nat := 4096

/-- What the BWCC sees of a bus address, given the base of its window (00_scope.md R9, 20_memory.md
R60, R64). -/
def BusAddr.ofBus (base addr : Nat) : BusAddr :=
  if base ≤ addr ∧ addr < base + windowSize then .window (BitVec.ofNat 12 (addr - base))
  else .outside addr

/-- The same, for the platform's base (00_scope.md R9; log entry 12). -/
def BusAddr.decode (addr : Nat) : BusAddr := BusAddr.ofBus Config.bwccBase addr

/-- ID_VALUE, the constant ID (10_state.md R27). -/
def idValue : Word := 0x42570001#32

/-- The registers of the curve bank, in the order of the address map (20_memory.md R66). -/
inductive CurveReg where
  | p | a | b | n | gx | gy
deriving DecidableEq, Repr

/-- What stands at an aligned offset (20_memory.md R66). -/
inductive Region where
  | id | ctrl | status | cmd | ilen | hlen | olen
  /-- word k of a curve-bank register -/
  | curve (r : CurveReg) (k : Fin 8)
  /-- word k of V[i] -/
  | v (i : RegIdx) (k : Fin 8)
  /-- IBUF[j] to IBUF[j+3] -/
  | ibuf (j : Nat)
  /-- OBUF[j] to OBUF[j+3] -/
  | obuf (j : Nat)
  | reserved
deriving DecidableEq, Repr

/-- The i-th register of the curve bank (20_memory.md R66). -/
def curveRegAt : Nat → CurveReg
  | 0 => .p
  | 1 => .a
  | 2 => .b
  | 3 => .n
  | 4 => .gx
  | _ => .gy

/-- The address map (20_memory.md R66, R67, R68), on aligned offsets. -/
def regionOf (off : BitVec 12) : Region :=
  let o := off.toNat
  if o = 0x000 then .id
  else if o = 0x004 then .ctrl
  else if o = 0x008 then .status
  else if o = 0x00C then .cmd
  else if o = 0x010 then .ilen
  else if o = 0x014 then .hlen
  else if o = 0x018 then .olen
  else if o < 0x040 then .reserved
  else if o < 0x100 then .curve (curveRegAt ((o - 0x040) / 32)) (Fin.ofNat 8 (o / 4))
  else if o < 0x300 then .v (BitVec.ofNat 4 ((o - 0x100) / 32)) (Fin.ofNat 8 (o / 4))
  else if o < 0x400 then .reserved
  else if o < 0x500 then .ibuf (o - 0x400)
  else if o < 0x800 then .reserved
  else if o < 0xA00 then .obuf (o - 0x800)
  else .reserved

/-- A register of the curve bank. -/
def Curve.get (c : Curve) : CurveReg → U256
  | .p => c.p
  | .a => c.a
  | .b => c.b
  | .n => c.n
  | .gx => c.gx
  | .gy => c.gy

/-- A register of the curve bank, written. -/
def Curve.set (c : Curve) (x : U256) : CurveReg → Curve
  | .p => { c with p := x }
  | .a => { c with a := x }
  | .b => { c with b := x }
  | .n => { c with n := x }
  | .gx => { c with gx := x }
  | .gy => { c with gy := x }

/-- The word of four buffer bytes: the lowest-numbered byte least significant (20_memory.md R68). -/
def wordOfBytes (b0 b1 b2 b3 : Byte) : Word := b3 ++ b2 ++ b1 ++ b0

/-- The four bytes of a word, the least significant first (20_memory.md R68). -/
def bytesOfWord (w : Word) : List Byte :=
  [w.extractLsb' 0 8, w.extractLsb' 8 8, w.extractLsb' 16 8, w.extractLsb' 24 8]

/-- The buffer word whose lowest byte stands at a window offset (20_memory.md R68). -/
def State.bufferWord (s : State) (a : Nat) : Word :=
  wordOfBytes (s.byteAt a) (s.byteAt (a + 1)) (s.byteAt (a + 2)) (s.byteAt (a + 3))

/-- The word an aligned read returns while its location holds its value (20_memory.md R65 to R68,
10_state.md R26 to R40). -/
def State.readRegion (s : State) : Region → Word
  | .id => idValue
  | .ctrl => (BitVec.ofBool s.ie).setWidth 32
  | .status => s.status.word
  | .cmd => s.cmd
  | .ilen => s.ilen.setWidth 32
  | .hlen => s.hlen.setWidth 32
  | .olen => s.olen.setWidth 32
  | .curve r k => wordOf (s.curve.get r) k
  | .v i k => wordOf (s.getV i) k
  | .ibuf j => s.bufferWord (ibufBase + j)
  | .obuf j => s.bufferWord (obufBase + j)
  | .reserved => 0#32

/-- The locations whose reads are draws while BUSY (10_state.md R53, 70_reset_and_hazards.md R333). -/
def Region.drawsWhileBusy : Region → Bool
  | .olen => true
  | .curve _ _ => true
  | .v _ _ => true
  | .ibuf _ => true
  | .obuf _ => true
  | .id => false
  | .ctrl => false
  | .status => false
  | .cmd => false
  | .ilen => false
  | .hlen => false
  | .reserved => false

/-- A draw as its location shows it: OLEN's reserved bits read 0 (10_state.md R26, R40; log entry 6). -/
def Region.drawn (r : Region) (d : Word) : Word :=
  match r with
  | .olen => (d.setWidth 16).setWidth 32
  | _ => d

/-- A host read of an aligned word (43_control.md R273): the exact word, or while BUSY, for
data-plane state, a fresh draw. A read changes nothing of the machine (20_memory.md R73). -/
def State.hostRead (s : State) (off : BitVec 12) : State :=
  let r := regionOf off
  if s.status.busy ∧ r.drawsWhileBusy then
    { s with
      resp := some (.data (r.drawn (Config.busyDraw s.draws)))
      draws := s.draws + 1 }
  else { s with resp := some (.data (s.readRegion r)) }

/-- A write to CTRL, in any phase: SRST = 1 is the soft reset, which discards IE; else IE is written
(10_state.md R28, R29; 70_reset_and_hazards.md R322, R332). -/
def State.writeCtrl (s : State) (w : Word) : State :=
  if w.getLsbD 1 then s.doReset else { s with ie := w.getLsbD 0 }

/-- A write in phase IDLE to anything but CTRL and STATUS (43_control.md R261, R273; 10_state.md
R37 to R39; 20_memory.md R65, R67, R68). -/
def State.writeIdle (s : State) (w : Word) : Region → State
  | .cmd => s.issue w
  | .ilen => { s with ilen := w.setWidth 16 }
  | .hlen => { s with hlen := w.setWidth 16 }
  | .curve r k => { s with curve := s.curve.set (withWord (s.curve.get r) k w) r }
  | .v i k => s.setV i (withWord (s.getV i) k w)
  | .ibuf j => { s with mem := s.mem.setBytes (ibufBase + j) (bytesOfWord w) }
  | .id => s
  | .ctrl => s
  | .status => s
  | .olen => s
  | .obuf _ => s
  | .reserved => s

/-- A host write of an aligned word, without the bus's answer (43_control.md R273): CTRL and STATUS
in any phase; anything else while IDLE its effect, while BUSY dropped with OVR
(70_reset_and_hazards.md R331, R332). -/
def State.writeWord (s : State) (off : BitVec 12) (w : Word) : State :=
  match regionOf off with
  | .ctrl => s.writeCtrl w
  | .status => { s with status := s.status.w1c w }
  | r => if s.status.busy then { s with status := s.status.overrun } else s.writeIdle w r

/-- A host write of an aligned word: it always succeeds (20_memory.md R65, 70_reset_and_hazards.md
R322, R331). -/
def State.hostWrite (s : State) (off : BitVec 12) (w : Word) : State :=
  { s.writeWord off w with resp := some .ok }

/-- Whether the BWCC takes an access: 32 bits wide and aligned (20_memory.md R62, R63). -/
def accessOk (off : BitVec 12) (width : Width) : Bool := width == .w32 && off.extractLsb' 0 2 == 0#2

/-- One host transaction. Outside the window nothing is decoded (20_memory.md R64; log entry 11); a
misaligned access or one of another width is a bus error and changes no state (R62, R63), OVR
included (log entry 10). -/
def State.transact (s : State) : Transaction → State
  | .read (.outside _) _ => { s with resp := some .notDecoded }
  | .write (.outside _) _ _ => { s with resp := some .notDecoded }
  | .read (.window off) width =>
    if accessOk off width then s.hostRead off else { s with resp := some .busError }
  | .write (.window off) width w =>
    if accessOk off width then s.hostWrite off w else { s with resp := some .busError }

end Sys2Proof.Machine
end

