-- ==== Sys2Proof/Decode.lean ====
section
/-! DEFINITION. The decoder of command words, total, rejecting by name, and the encoder
(30_encoding.md R90 to R100). -/

namespace Sys2Proof

/-- The assigned opcodes (30_encoding.md R94). -/
inductive Opcode where
  | nop | modadd | modsub | modmul | modred | modexp | modinv | modsqrt
  | pdbl | padd | pmul | pval | pdecomp | ploadg | secpload | sec1dec | sec1enc
  | b58enc | b58dec | bech32enc | bchmod
deriving DecidableEq, Repr

/-- The format classes (30_encoding.md R93). -/
inductive FormatClass where
  | m4 | m3 | pp | ppp | pps | xp | psf | xpf | p | r | z
deriving DecidableEq, Repr

/-- What a class does with a register field (30_encoding.md R93). -/
inductive FieldUse where
  /-- the class marks the field 0: it must be zero (R97) -/
  | zero
  /-- a single register, any of 0..15 -/
  | reg
  /-- a pair: even (R96) -/
  | pair
deriving DecidableEq, Repr

/-- A row of the class table of 30_encoding.md R93. -/
structure ClassRow where
  rd : FieldUse
  rs1 : FieldUse
  rs2 : FieldUse
  rm : FieldUse
  /-- whether FL[0] is a flag of the class -/
  flag : Bool
deriving DecidableEq, Repr

/-- Why a command word is illegal (30_encoding.md R96, R97, R98). -/
inductive Illegal where
  /-- the OP value is not assigned (R98) -/
  | unassignedOp (op : BitVec 8)
  /-- a register field that the class marks 0 is not zero (R97) -/
  | nonzeroField
  /-- FL[7:1] is not zero, or FL[0] is 1 for a class without a flag (R97) -/
  | reservedFlag
  /-- a pair field is odd (R96) -/
  | oddPair
deriving DecidableEq, Repr

/-- The fields of a command word (30_encoding.md R91). -/
structure Fields where
  op : BitVec 8
  rd : RegIdx
  rs1 : RegIdx
  rs2 : RegIdx
  rm : RegIdx
  fl : BitVec 8
deriving DecidableEq, Repr

/-- The field layout of 30_encoding.md R91, read. -/
def Fields.ofWord (c : Word) : Fields where
  op := c.extractLsb' 0 8
  rd := c.extractLsb' 8 4
  rs1 := c.extractLsb' 12 4
  rs2 := c.extractLsb' 16 4
  rm := c.extractLsb' 20 4
  fl := c.extractLsb' 24 8

/-- The field layout of 30_encoding.md R91, written. -/
def Fields.toWord (f : Fields) : Word :=
  f.fl ++ f.rm ++ f.rs2 ++ f.rs1 ++ f.rd ++ f.op

/-- The opcode map, 30_encoding.md R94. -/
def Opcode.byte : Opcode → BitVec 8
  | .nop => 0x00#8
  | .modadd => 0x10#8
  | .modsub => 0x11#8
  | .modmul => 0x12#8
  | .modred => 0x13#8
  | .modexp => 0x14#8
  | .modinv => 0x15#8
  | .modsqrt => 0x16#8
  | .pdbl => 0x20#8
  | .padd => 0x21#8
  | .pmul => 0x22#8
  | .pval => 0x23#8
  | .pdecomp => 0x24#8
  | .ploadg => 0x25#8
  | .secpload => 0x26#8
  | .sec1dec => 0x28#8
  | .sec1enc => 0x29#8
  | .b58enc => 0x30#8
  | .b58dec => 0x31#8
  | .bech32enc => 0x32#8
  | .bchmod => 0x33#8

/-- Every assigned opcode, in the order of 30_encoding.md R94. -/
def Opcode.all : List Opcode :=
  [.nop, .modadd, .modsub, .modmul, .modred, .modexp, .modinv, .modsqrt,
   .pdbl, .padd, .pmul, .pval, .pdecomp, .ploadg, .secpload, .sec1dec, .sec1enc,
   .b58enc, .b58dec, .bech32enc, .bchmod]

/-- The opcode an OP byte names, if it is assigned (30_encoding.md R94, R98). -/
def Opcode.ofByte (b : BitVec 8) : Option Opcode :=
  Opcode.all.find? fun o => o.byte == b

/-- The class of each opcode (30_encoding.md R93). -/
def Opcode.cls : Opcode → FormatClass
  | .nop => .z
  | .modadd => .m4
  | .modsub => .m4
  | .modmul => .m4
  | .modred => .m3
  | .modexp => .m4
  | .modinv => .m3
  | .modsqrt => .m3
  | .pdbl => .pp
  | .padd => .ppp
  | .pmul => .pps
  | .pval => .xp
  | .pdecomp => .psf
  | .ploadg => .p
  | .secpload => .z
  | .sec1dec => .p
  | .sec1enc => .xpf
  | .b58enc => .z
  | .b58dec => .z
  | .bech32enc => .z
  | .bchmod => .r

/-- The class table of 30_encoding.md R93. -/
def FormatClass.row : FormatClass → ClassRow
  | .m4 => ⟨.reg, .reg, .reg, .reg, false⟩
  | .m3 => ⟨.reg, .reg, .zero, .reg, false⟩
  | .pp => ⟨.pair, .pair, .zero, .zero, false⟩
  | .ppp => ⟨.pair, .pair, .pair, .zero, false⟩
  | .pps => ⟨.pair, .pair, .reg, .zero, false⟩
  | .xp => ⟨.zero, .pair, .zero, .zero, false⟩
  | .psf => ⟨.pair, .reg, .zero, .zero, true⟩
  | .xpf => ⟨.zero, .pair, .zero, .zero, true⟩
  | .p => ⟨.pair, .zero, .zero, .zero, false⟩
  | .r => ⟨.reg, .zero, .zero, .zero, false⟩
  | .z => ⟨.zero, .zero, .zero, .zero, false⟩

/-- Whether a field breaks "must be zero" (30_encoding.md R97). -/
def FieldUse.zeroBroken (u : FieldUse) (f : RegIdx) : Bool := u == .zero && f != 0#4

/-- Whether a field breaks "must be even" (30_encoding.md R96). -/
def FieldUse.pairBroken (u : FieldUse) (f : RegIdx) : Bool := u == .pair && !pairOk f

/-- Whether FL breaks its rule: FL[7:1] zero always, FL[0] zero unless it is the class's flag
(30_encoding.md R93, R97). -/
def ClassRow.flagBroken (k : ClassRow) (fl : BitVec 8) : Bool :=
  fl.extractLsb' 1 7 != 0#7 || (!k.flag && fl.getLsbD 0)

/-- The checks a class makes of a word's fields (30_encoding.md R96, R97). -/
def ClassRow.check (k : ClassRow) (f : Fields) : Option Illegal :=
  if k.rd.zeroBroken f.rd || k.rs1.zeroBroken f.rs1 || k.rs2.zeroBroken f.rs2 || k.rm.zeroBroken f.rm then
    some .nonzeroField
  else if k.flagBroken f.fl then some .reservedFlag
  else if k.rd.pairBroken f.rd || k.rs1.pairBroken f.rs1 || k.rs2.pairBroken f.rs2 || k.rm.pairBroken f.rm then
    some .oddPair
  else none

/-- The command an opcode makes of its fields (30_encoding.md R92, R93). -/
def Opcode.instr (o : Opcode) (f : Fields) : Instr :=
  match o with
  | .nop => .nop
  | .modadd => .modadd f.rd f.rs1 f.rs2 f.rm
  | .modsub => .modsub f.rd f.rs1 f.rs2 f.rm
  | .modmul => .modmul f.rd f.rs1 f.rs2 f.rm
  | .modred => .modred f.rd f.rs1 f.rm
  | .modexp => .modexp f.rd f.rs1 f.rs2 f.rm
  | .modinv => .modinv f.rd f.rs1 f.rm
  | .modsqrt => .modsqrt f.rd f.rs1 f.rm
  | .pdbl => .pdbl f.rd f.rs1
  | .padd => .padd f.rd f.rs1 f.rs2
  | .pmul => .pmul f.rd f.rs1 f.rs2
  | .pval => .pval f.rs1
  | .pdecomp => .pdecomp f.rd f.rs1 (f.fl.getLsbD 0)
  | .ploadg => .ploadg f.rd
  | .secpload => .secpload
  | .sec1dec => .sec1dec f.rd
  | .sec1enc => .sec1enc f.rs1 (f.fl.getLsbD 0)
  | .b58enc => .b58enc
  | .b58dec => .b58dec
  | .bech32enc => .bech32enc
  | .bchmod => .bchmod f.rd

/-- The decoder: total on every 32-bit word (30_encoding.md R100). -/
def decode (c : Word) : Except Illegal Instr :=
  let f := Fields.ofWord c
  match Opcode.ofByte f.op with
  | none => .error (.unassignedOp f.op)
  | some o =>
    match o.cls.row.check f with
    | some e => .error e
    | none => .ok (o.instr f)

/-- The opcode of a command. -/
def Instr.opcode : Instr → Opcode
  | .nop => .nop
  | .modadd _ _ _ _ => .modadd
  | .modsub _ _ _ _ => .modsub
  | .modmul _ _ _ _ => .modmul
  | .modred _ _ _ => .modred
  | .modexp _ _ _ _ => .modexp
  | .modinv _ _ _ => .modinv
  | .modsqrt _ _ _ => .modsqrt
  | .pdbl _ _ => .pdbl
  | .padd _ _ _ => .padd
  | .pmul _ _ _ => .pmul
  | .pval _ => .pval
  | .pdecomp _ _ _ => .pdecomp
  | .ploadg _ => .ploadg
  | .secpload => .secpload
  | .sec1dec _ => .sec1dec
  | .sec1enc _ _ => .sec1enc
  | .b58enc => .b58enc
  | .b58dec => .b58dec
  | .bech32enc => .bech32enc
  | .bchmod _ => .bchmod

/-- The flag byte of a command with the flag FL[0] (30_encoding.md R92). -/
def flagByte (b : Bool) : BitVec 8 := (BitVec.ofBool b).setWidth 8

/-- The fields of a command: absent fields are 0 (30_encoding.md R93, R101). -/
def Instr.fields (i : Instr) : Fields :=
  let op := i.opcode.byte
  match i with
  | .nop => ⟨op, 0, 0, 0, 0, 0⟩
  | .modadd rd rs1 rs2 rm => ⟨op, rd, rs1, rs2, rm, 0⟩
  | .modsub rd rs1 rs2 rm => ⟨op, rd, rs1, rs2, rm, 0⟩
  | .modmul rd rs1 rs2 rm => ⟨op, rd, rs1, rs2, rm, 0⟩
  | .modred rd rs1 rm => ⟨op, rd, rs1, 0, rm, 0⟩
  | .modexp rd rs1 rs2 rm => ⟨op, rd, rs1, rs2, rm, 0⟩
  | .modinv rd rs1 rm => ⟨op, rd, rs1, 0, rm, 0⟩
  | .modsqrt rd rs1 rm => ⟨op, rd, rs1, 0, rm, 0⟩
  | .pdbl rd rs1 => ⟨op, rd, rs1, 0, 0, 0⟩
  | .padd rd rs1 rs2 => ⟨op, rd, rs1, rs2, 0, 0⟩
  | .pmul rd rs1 rs2 => ⟨op, rd, rs1, rs2, 0, 0⟩
  | .pval rs1 => ⟨op, 0, rs1, 0, 0, 0⟩
  | .pdecomp rd rs1 isOdd => ⟨op, rd, rs1, 0, 0, flagByte isOdd⟩
  | .ploadg rd => ⟨op, rd, 0, 0, 0, 0⟩
  | .secpload => ⟨op, 0, 0, 0, 0, 0⟩
  | .sec1dec rd => ⟨op, rd, 0, 0, 0, 0⟩
  | .sec1enc rs1 compressed => ⟨op, 0, rs1, 0, 0, flagByte compressed⟩
  | .b58enc => ⟨op, 0, 0, 0, 0, 0⟩
  | .b58dec => ⟨op, 0, 0, 0, 0, 0⟩
  | .bech32enc => ⟨op, 0, 0, 0, 0, 0⟩
  | .bchmod rd => ⟨op, rd, 0, 0, 0, 0⟩

/-- The command word of a command (30_encoding.md R91, R93, R94). -/
def encode (i : Instr) : Word := i.fields.toWord

/-- The word whose low `nbits` bits are those of `w` and whose other bits are 0, if it fits the
one length a command has (30_encoding.md R90). -/
def tableWord (nbits w : Nat) : Option Word :=
  let v := w % 2 ^ nbits
  if v < 2 ^ 32 then some (BitVec.ofNat 32 v) else none

/-- What the decoder reads from an instruction whose bits are `w` (log entry 1): a command is one
32-bit word written to CMD whole, so no byte order enters (30_encoding.md R90). -/
def decodeTableWord (nbits w : Nat) : Option Instr :=
  match tableWord nbits w with
  | none => none
  | some c =>
    match decode c with
    | .ok i => some i
    | .error _ => none

end Sys2Proof
end

