-- ==== Sys2Proof/Machine/Base58.lean ====
section
/-! DEFINITION. Base58: the alphabet, encoding and decoding of byte strings (42_codec.md). -/

namespace Sys2Proof.Machine

/-- The ASCII codes of the alphabet B58, index 0 first (42_codec.md R226; the spec marks it as from
general knowledge: log entry 16). -/
def b58Alphabet : List Byte :=
  [0x31#8, 0x32#8, 0x33#8, 0x34#8, 0x35#8, 0x36#8, 0x37#8, 0x38#8] ++
  [0x39#8, 0x41#8, 0x42#8, 0x43#8, 0x44#8, 0x45#8, 0x46#8, 0x47#8] ++
  [0x48#8, 0x4A#8, 0x4B#8, 0x4C#8, 0x4D#8, 0x4E#8, 0x50#8, 0x51#8] ++
  [0x52#8, 0x53#8, 0x54#8, 0x55#8, 0x56#8, 0x57#8, 0x58#8, 0x59#8] ++
  [0x5A#8, 0x61#8, 0x62#8, 0x63#8, 0x64#8, 0x65#8, 0x66#8, 0x67#8] ++
  [0x68#8, 0x69#8, 0x6A#8, 0x6B#8, 0x6D#8, 0x6E#8, 0x6F#8, 0x70#8] ++
  [0x71#8, 0x72#8, 0x73#8, 0x74#8, 0x75#8, 0x76#8, 0x77#8, 0x78#8] ++
  [0x79#8, 0x7A#8]

/-- B58[i], for i < 58. -/
def b58Char (i : Nat) : Byte := b58Alphabet.getD i 0x31#8

/-- index(B58, c), if c is in the alphabet (42_codec.md R230, R231). -/
def b58Index (c : Byte) : Option Nat := b58Alphabet.findIdx? fun d => d == c

/-- The number of leading bytes equal to b. -/
def leading (b : Byte) (s : List Byte) : Nat := (s.takeWhile fun c => c == b).length

/-- The text of a byte string: one '1' per leading zero byte, then the base-58 digits of its value
(42_codec.md R224, R225). -/
def b58Encode (s : List Byte) : List Byte :=
  List.replicate (leading 0x00#8 s) 0x31#8 ++ (digits 58 (beInt s)).map b58Char

/-- The value of a text, left to right; none if a byte is not in the alphabet (42_codec.md R230). -/
def b58Fold : List Byte → Nat → Option Nat
  | [], v => some v
  | c :: cs, v =>
    match b58Index c with
    | none => none
    | some d => b58Fold cs (v * 58 + d)

/-- The byte string of a text: one zero byte per leading '1', then the minimal big-endian bytes of
its value; none if a byte is not in the alphabet (42_codec.md R230, R232). -/
def b58Decode (s : List Byte) : Option (List Byte) :=
  match b58Fold s 0 with
  | none => none
  | some v => some (List.replicate (leading 0x31#8 s) 0x00#8 ++ minimalBe v)

end Sys2Proof.Machine
end

