-- ==== Sys2Proof/Machine/Bech32.lean ====
section
/-! DEFINITION. Bech32: regrouping, HRP expansion, the checksum register, the encoder (42_codec.md). -/

namespace Sys2Proof.Machine

/-- The ASCII codes of the charset CS, index 0 first (42_codec.md R235). -/
def charset : List Byte :=
  [0x71#8, 0x70#8, 0x7A#8, 0x72#8, 0x79#8, 0x39#8, 0x78#8, 0x38#8] ++
  [0x67#8, 0x66#8, 0x32#8, 0x74#8, 0x76#8, 0x64#8, 0x77#8, 0x30#8] ++
  [0x73#8, 0x33#8, 0x6A#8, 0x6E#8, 0x35#8, 0x34#8, 0x6B#8, 0x68#8] ++
  [0x63#8, 0x65#8, 0x36#8, 0x6D#8, 0x75#8, 0x61#8, 0x37#8, 0x6C#8]

/-- CS[g] (42_codec.md R235). -/
def csChar (g : Sym) : Byte := charset.getD g.toNat 0x71#8

/-- The loop "while bits >= 5" of 42_codec.md R236: the groups it puts out, and the bits left. -/
def drain (acc : Nat) : Nat → List Sym × Nat
  | bits + 5 => (BitVec.ofNat 5 (acc >>> bits) :: (drain acc bits).1, (drain acc bits).2)
  | bits => ([], bits)

/-- The loop over the bytes of 42_codec.md R236, from an accumulator of `bits` bits. -/
def groupsLoop (acc bits : Nat) : List Byte → List Sym
  | [] => if bits > 0 then [BitVec.ofNat 5 (acc <<< (5 - bits))] else []
  | x :: xs =>
    let acc' := (acc <<< 8) ||| x.toNat
    let out := drain acc' (bits + 8)
    out.1 ++ groupsLoop (acc' &&& (2 ^ out.2 - 1)) out.2 xs

/-- groups5(s): the 5-bit groups of a byte string, MSB first, zero-padded (42_codec.md R236). -/
def groups5 (s : List Byte) : List Sym := groupsLoop 0 0 s

/-- hrpexp(h) (42_codec.md R237). -/
def hrpExpand (h : List Byte) : List Sym :=
  h.map (fun c : Byte => c.extractLsb' 5 3 |>.setWidth 5) ++ [0#5] ++ h.map (fun c : Byte => c.setWidth 5)

/-- GEN (42_codec.md R238). -/
def polyGen : List (BitVec 30) :=
  [0x3B6A57B2#30, 0x26508E6D#30, 0x1EA119FA#30, 0x3D4233DD#30, 0x2A1462B3#30]

/-- The generator mix of one step: GEN[i] for each i in 0..4 with b[i] = 1, where b is the 5 bits
shifted out (42_codec.md R238). -/
def polyMix (b : Sym) : BitVec 30 :=
  (if b.getLsbD 0 then polyGen.getD 0 0#30 else 0#30) ^^^
  (if b.getLsbD 1 then polyGen.getD 1 0#30 else 0#30) ^^^
  (if b.getLsbD 2 then polyGen.getD 2 0#30 else 0#30) ^^^
  (if b.getLsbD 3 then polyGen.getD 3 0#30 else 0#30) ^^^
  (if b.getLsbD 4 then polyGen.getD 4 0#30 else 0#30)

/-- One step of the 30-bit register: the low 25 bits move up by 5, the symbol enters, and the 5
bits shifted out select generators (42_codec.md R238; 90_conflicts.md C8). -/
def polyStep (chk : BitVec 30) (v : Sym) : BitVec 30 :=
  (((chk &&& 0x1FFFFFF#30) <<< 5) ^^^ v.setWidth 30) ^^^ polyMix (chk.extractLsb' 25 5)

/-- polymod(vs), from the start value 1 (42_codec.md R238; log entry 16). -/
def polymod (vs : List Sym) : BitVec 30 := vs.foldl polyStep 1#30

/-- The checksum word c (42_codec.md R239). -/
def checksumWord (h : List Byte) (d : List Sym) : BitVec 30 :=
  polymod (hrpExpand h ++ d ++ List.replicate 6 0#5) ^^^ 1#30

/-- The six checksum symbols of a word, most significant first (42_codec.md R239). -/
def checksumSyms (c : BitVec 30) : List Sym :=
  [c.extractLsb' 25 5, c.extractLsb' 20 5, c.extractLsb' 15 5, c.extractLsb' 10 5,
   c.extractLsb' 5 5, c.extractLsb' 0 5]

/-- The Bech32 string of an HRP and a payload (42_codec.md R240). -/
def bech32Encode (h payload : List Byte) : List Byte :=
  let d := groups5 payload
  h ++ [0x31#8] ++ d.map csChar ++ (checksumSyms (checksumWord h d)).map csChar

end Sys2Proof.Machine
end

