-- ==== Sys2Proof/Machine/Codec.lean ====
section
/-! DEFINITION. The meanings of B58ENC, B58DEC, BECH32ENC, BCHMOD (42_codec.md). -/

namespace Sys2Proof.Machine

/-- B58ENC: OBUF <- the Base58 text of IBUF[0..ILEN-1] (42_codec.md R224). -/
def execB58enc (s : State) : Result :=
  let n := s.ilen.toNat
  s.finish <|
    if n > ibufSize then .error .length else .ok (s.output (b58Encode (s.ibytes 0 n)))

/-- B58DEC: OBUF <- the bytes of the Base58 text IBUF[0..ILEN-1] (42_codec.md R230). -/
def execB58dec (s : State) : Result :=
  let n := s.ilen.toNat
  s.finish <|
    if n > ibufSize then .error .length
    else
      match b58Decode (s.ibytes 0 n) with
      | none => .error .format
      | some out => .ok (s.output out)

/-- BECH32ENC: OBUF <- the Bech32 string of the HRP IBUF[0..HLEN-1] and the payload
IBUF[HLEN..HLEN+ILEN-1] (42_codec.md R240, R241, R222). -/
def execBech32enc (s : State) : Result :=
  let k := s.hlen.toNat
  let n := s.ilen.toNat
  s.finish <|
    if k + n > ibufSize then .error .length
    else .ok (s.output (bech32Encode (s.ibytes 0 k) (s.ibytes k n)))

/-- BCHMOD: V[rd] <- polymod of the symbols IBUF[0..ILEN-1], no final xor (42_codec.md R246 to R248). -/
def execBchmod (rd : RegIdx) (s : State) : Result :=
  let n := s.ilen.toNat
  s.finish <|
    if n > ibufSize then .error .length
    else if (s.ibytes 0 n).any (fun v => decide (32 ≤ v.toNat)) then .error .format
    else .ok (s.setV rd ((polymod ((s.ibytes 0 n).map fun v => v.setWidth 5)).setWidth 256))

end Sys2Proof.Machine
end

