-- ==== Sys2Proof/Machine/Control.lean ====
section
/-! DEFINITION. The meaning of NOP (43_control.md). -/

namespace Sys2Proof.Machine

/-- NOP: completes with no write (43_control.md R270). -/
def execNop (s : State) : Result := s.finish (.ok s)

end Sys2Proof.Machine
end

