-- ==== Sys2Proof/Machine/Arith.lean ====
section
/-! DEFINITION. The exact arithmetic of the modular unit: power, inverse, square root
(40_modarith.md). All of it is on unbounded integers (R122). -/

namespace Sys2Proof.Machine

/-- The mathematical `z mod m`, in [0, m) even for negative z (00_scope.md R12). -/
def imod (z : Int) (m : Nat) : Nat := (z % (m : Int)).toNat

/-- Square-and-multiply from the exponent's lowest bit; the first argument bounds the rounds. -/
def modPowLoop (m : Nat) : Nat → Nat → Nat → Nat → Nat
  | 0, _, _, acc => acc
  | k + 1, b, e, acc =>
    modPowLoop m k (b * b % m) (e / 2) (if e % 2 = 1 then acc * b % m else acc)

/-- (a ^ e) mod m (40_modarith.md R134, R135; the law `modPow_eq` says so). -/
def modPow (a e m : Nat) : Nat := modPowLoop m (bitlen e) (a % m) e (1 % m)

/-- The remainders r0, r1 of Euclid's algorithm on (m, a), each with an x such that
r ≡ x·a (mod m); the first argument bounds the rounds (log entry 18). -/
def invLoop (m : Nat) : Nat → Nat → Nat → Nat → Nat → Nat
  | 0, _, x0, _, _ => x0
  | k + 1, r0, x0, r1, x1 =>
    if r1 = 0 then x0
    else invLoop m k r1 x1 (r0 % r1) (imod ((x0 : Int) - (r0 / r1 * x1 : Nat)) m)

/-- The x in [1, m) with a·x ≡ 1 (mod m), or NOINV when gcd(a mod m, m) is not 1
(40_modarith.md R137, 41_ecc.md R168). -/
def modInv (a m : Nat) : Except ErrCode Nat :=
  if Nat.gcd (a % m) m = 1 then .ok (invLoop m (2 * bitlen m + 2) m 0 (a % m) 1)
  else .error .noinv

/-- The least c with lo <= c < lo + n and `ok c`. -/
def findLeast (ok : Nat → Bool) (lo : Nat) : Nat → Option Nat
  | 0 => none
  | n + 1 => if ok lo then some lo else findLeast ok (lo + 1) n

/-- The loop "while Q mod 2 = 0: Q <- Q div 2; S <- S + 1" (40_modarith.md R142); the first
argument bounds the rounds (log entry 18). -/
def oddPart : Nat → Nat → Nat → Nat × Nat
  | 0, q, s => (q, s)
  | k + 1, q, s => if q % 2 = 0 then oddPart k (q / 2) (s + 1) else (q, s)

/-- ZMAX (00_scope.md R8). -/
def zMax : Nat := 65536

/-- The least c with 2 <= c < min(m, ZMAX) and c^((m-1) div 2) mod m = m - 1 (40_modarith.md R142). -/
def leastNonresidue (m : Nat) : Option Nat :=
  findLeast (fun c => modPow c ((m - 1) / 2) m == m - 1) 2 (min m zMax - 2)

/-- The Tonelli-Shanks loop of 40_modarith.md R142, on M, c, t, R. M falls each round (R144), so
S + 1 rounds always suffice (log entry 18). -/
def tsLoop (m : Nat) : Nat → Nat → Nat → Nat → Nat → Except ErrCode Nat
  | 0, _, _, _, _ => .error .nonresidue
  | k + 1, mm, c, t, r =>
    if t = 1 then .ok r
    else
      match findLeast (fun j => modPow t (2 ^ j) m == 1) 1 (mm - 1) with
      | none => .error .nonresidue
      | some i =>
        let b := modPow c (2 ^ (mm - i - 1)) m
        tsLoop m k i (b * b % m) (t * b * b % m) (r * b % m)

/-- The branch of SQRT for m mod 4 = 1 (40_modarith.md R142, R143). -/
def tonelliShanks (a m : Nat) : Except ErrCode Nat :=
  let qs := oddPart (bitlen (m - 1)) (m - 1) 0
  match leastNonresidue m with
  | none => .error .nonresidue
  | some z =>
    tsLoop m (qs.2 + 1) qs.2 (modPow z qs.1 m) (modPow a qs.1 m) (modPow a ((qs.1 + 1) / 2) m)

/-- The candidate root of a non-zero a in [0, m) (40_modarith.md R142, R143). -/
def sqrtCandidate (a m : Nat) : Except ErrCode Nat :=
  if m % 4 = 3 then .ok (modPow a ((m + 1) / 4) m) else tonelliShanks a m

/-- "if (r * r) mod m != a: raise NONRESIDUE", the final check of 40_modarith.md R142. -/
def checkRoot (a m r : Nat) : Except ErrCode Nat :=
  if r * r % m = a then .ok r else .error .nonresidue

/-- SQRT(a, m) of 40_modarith.md R142. -/
def sqrtMod (a m : Nat) : Except ErrCode Nat :=
  checkModulus m <|
    if a % m = 0 then .ok 0
    else
      match sqrtCandidate (a % m) m with
      | .error e => .error e
      | .ok r => checkRoot (a % m) m r

end Sys2Proof.Machine
end

