-- ==== Sys2Proof/Machine/Curve.lean ====
section
/-! DEFINITION. The affine formulas of the point engine (41_ecc.md). -/

namespace Sys2Proof.Machine

/-- The right side x^3 + a·x + b of the curve equation, mod p (41_ecc.md R160). -/
def curveRhs (p a b x : Nat) : Nat := (x * x * x + a * x + b) % p

/-- DBL(x, y) (41_ecc.md R168). -/
def dblPoint (p a : Nat) (q : Point) : Except ErrCode Point :=
  match modInv (2 * q.y % p) p with
  | .error e => .error e
  | .ok w =>
    let lam := (3 * q.x * q.x + a) * w % p
    let x3 := imod ((lam : Int) * lam - 2 * q.x) p
    let y3 := imod ((lam : Int) * ((q.x : Int) - x3) - q.y) p
    .ok ⟨x3, y3⟩

/-- ADD(x1, y1, x2, y2) (41_ecc.md R169; 90_conflicts.md C2). -/
def addPoint (p a : Nat) (q1 q2 : Point) : Except ErrCode Point :=
  if q1.x = q2.x ∧ q1.y = q2.y then dblPoint p a q1
  else
    match modInv (imod ((q1.x : Int) - q2.x) p) p with
    | .error e => .error e
    | .ok w =>
      let lam := imod (((q1.y : Int) - q2.y) * w) p
      let x3 := imod ((lam : Int) * lam - q1.x - q2.x) p
      let y3 := imod ((lam : Int) * ((q1.x : Int) - x3) - q1.y) p
      .ok ⟨x3, y3⟩

/-- One round of the double-and-add loop: R <- DBL(R), then R <- ADD(R, P) if the bit is 1
(41_ecc.md R178). -/
def ladderRound (p a : Nat) (q r : Point) (bit : Bool) : Except ErrCode Point :=
  match dblPoint p a r with
  | .error e => .error e
  | .ok d => if bit then addPoint p a d q else .ok d

/-- The loop "for i from n - 1 down to 0" of 41_ecc.md R178. -/
def ladder (p a k : Nat) (q : Point) : Nat → Point → Except ErrCode Point
  | 0, r => .ok r
  | i + 1, r =>
    match ladderRound p a q r (k.testBit i) with
    | .error e => .error e
    | .ok r' => ladder p a k q i r'

/-- k·P for k >= 1: the top set bit is consumed by the start value (41_ecc.md R178, R180). -/
def mulPoint (p a k : Nat) (q : Point) : Except ErrCode Point :=
  ladder p a k q (bitlen k - 1) q

/-- The point with the x given and the y of the parity asked (41_ecc.md R187, R188). -/
def decompress (p a b x : Nat) (odd : Bool) : Except ErrCode Point :=
  if x ≥ p then .error .range
  else
    match sqrtMod (curveRhs p a b x) p with
    | .error e => .error e
    | .ok y => .ok ⟨x, if y % 2 ≠ odd.toNat then (p - y) % p else y⟩

end Sys2Proof.Machine
end

