-- ==== Sys2Proof/Machine/Ecc.lean ====
section
/-! DEFINITION. The meanings of PDBL, PADD, PMUL, PVAL, PDECOMP, PLOADG, SECPLOAD, SEC1DEC, SEC1ENC
(41_ecc.md). The order of the checks is R165's. -/

namespace Sys2Proof.Machine

/-- The range check of a source pair (41_ecc.md R163). -/
def checkRange {α : Type} (p : Nat) (q : Point) (k : Except ErrCode α) : Except ErrCode α :=
  if q.x ≥ p ∨ q.y ≥ p then .error .range else k

/-- The write of a point result to a pair (41_ecc.md R167). -/
def State.writePoint (s : State) (rd : RegIdx) : Except ErrCode Point → Except ErrCode State
  | .error e => .error e
  | .ok q => .ok (s.setPair rd q)

/-- PDBL: VP[rd] <- DBL(VP[rs1]) (41_ecc.md R170). -/
def execPdbl (rd rs1 : RegIdx) (s : State) : Result :=
  s.finish <| checkPair rd <| checkPair rs1 <| checkModulus s.primeP <|
    checkRange s.primeP (s.pair rs1) <|
      s.writePoint rd (dblPoint s.primeP s.coeffA (s.pair rs1))

/-- PADD: VP[rd] <- ADD(VP[rs1], VP[rs2]) (41_ecc.md R174). -/
def execPadd (rd rs1 rs2 : RegIdx) (s : State) : Result :=
  s.finish <| checkPair rd <| checkPair rs1 <| checkPair rs2 <| checkModulus s.primeP <|
    checkRange s.primeP (s.pair rs1) <| checkRange s.primeP (s.pair rs2) <|
      s.writePoint rd (addPoint s.primeP s.coeffA (s.pair rs1) (s.pair rs2))

/-- PMUL: VP[rd] <- k·VP[rs1], k = V[rs2], or SCALAR for k = 0 (41_ecc.md R178, R179). -/
def execPmul (rd rs1 rs2 : RegIdx) (s : State) : Result :=
  s.finish <| checkPair rd <| checkPair rs1 <| checkModulus s.primeP <|
    checkRange s.primeP (s.pair rs1) <|
      if s.nat rs2 = 0 then .error .scalar
      else s.writePoint rd (mulPoint s.primeP s.coeffA (s.nat rs2) (s.pair rs1))

/-- Whether a pair is a point of the curve: both coordinates in range and the equation holds
(41_ecc.md R185, R186). -/
def State.onCurve (s : State) (q : Point) : Bool :=
  decide (q.x < s.primeP) && decide (q.y < s.primeP) &&
    (q.y * q.y % s.primeP == curveRhs s.primeP s.coeffA s.coeffB q.x)

/-- PVAL: STATUS.PRED <- whether VP[rs1] is on the curve (41_ecc.md R185, R186). -/
def execPval (rs1 : RegIdx) (s : State) : Result :=
  s.finish <| checkPair rs1 <| checkModulus s.primeP <|
    .ok { s with status := { s.status with pred := s.onCurve (s.pair rs1) } }

/-- PDECOMP: VP[rd] <- the point with x = V[rs1] and the parity asked (41_ecc.md R187 to R189). -/
def execPdecomp (rd rs1 : RegIdx) (isOdd : Bool) (s : State) : Result :=
  s.finish <| checkPair rd <| checkModulus s.primeP <|
    s.writePoint rd (decompress s.primeP s.coeffA s.coeffB (s.nat rs1) isOdd)

/-- PLOADG: VP[rd] <- (CURVE.GX, CURVE.GY), unchecked (41_ecc.md R192, R193). -/
def execPloadg (rd : RegIdx) (s : State) : Result :=
  s.finish <| checkPair rd <| .ok (s.setPair rd ⟨s.curve.gx.toNat, s.curve.gy.toNat⟩)

/-- SECPLOAD: the curve bank <- secp256k1 (41_ecc.md R194). -/
def execSecpload (s : State) : Result := s.finish <| .ok { s with curve := secp256k1 }

/-- The x coordinate of the key in IBUF: bytes 1 to 32 (41_ecc.md R196). -/
def State.keyX (s : State) : Nat := beInt (s.ibytes 1 32)

/-- The y coordinate of an uncompressed key in IBUF: bytes 33 to 64 (41_ecc.md R196). -/
def State.keyY (s : State) : Nat := beInt (s.ibytes 33 32)

/-- The point of a key whose tag and length are checked (41_ecc.md R196). -/
def State.keyPoint (s : State) (tag : Byte) : Except ErrCode Point :=
  if tag = 0x04#8 then checkRange s.primeP ⟨s.keyX, s.keyY⟩ (.ok ⟨s.keyX, s.keyY⟩)
  else decompress s.primeP s.coeffA s.coeffB s.keyX (tag == 0x03#8)

/-- SEC1DEC: VP[rd] <- the key in IBUF[0..ILEN-1]; the checks in the order of 41_ecc.md R197
(41_ecc.md R196). -/
def execSec1dec (rd : RegIdx) (s : State) : Result :=
  let n := s.ilen.toNat
  let tag := s.ibuf 0
  s.finish <| checkPair rd <|
    if n > ibufSize then .error .length
    else if n = 0 then .error .length
    else if ¬(tag = 0x02#8 ∨ tag = 0x03#8 ∨ tag = 0x04#8) then .error .format
    else if tag = 0x04#8 ∧ n ≠ 65 then .error .length
    else if (tag = 0x02#8 ∨ tag = 0x03#8) ∧ n ≠ 33 then .error .length
    else checkModulus s.primeP <| s.writePoint rd (s.keyPoint tag)

/-- The SEC1 bytes of a pair (41_ecc.md R191, R198). -/
def sec1Bytes (q : Point) (compressed : Bool) : List Byte :=
  if compressed then (if q.y % 2 = 1 then 0x03#8 else 0x02#8) :: beBytes 32 q.x
  else 0x04#8 :: (beBytes 32 q.x ++ beBytes 32 q.y)

/-- SEC1ENC: OBUF <- the key of VP[rs1], OLEN <- 33 or 65 (41_ecc.md R198, R199). -/
def execSec1enc (rs1 : RegIdx) (compressed : Bool) (s : State) : Result :=
  s.finish <| checkPair rs1 <| .ok (s.output (sec1Bytes (s.pair rs1) compressed))

end Sys2Proof.Machine
end

