-- ==== Sys2Proof/Machine/ModArith.lean ====
section
/-! DEFINITION. The meanings of MODADD, MODSUB, MODMUL, MODRED, MODEXP, MODINV, MODSQRT
(40_modarith.md). Each checks the modulus first (R121, R124) and writes one canonical residue. -/

namespace Sys2Proof.Machine

/-- A command of the modular unit: check m = V[rm], compute, write V[rd] (40_modarith.md R120,
R121, R124). -/
def modularCommand (s : State) (rd rm : RegIdx) (compute : Nat → Except ErrCode Nat) : Result :=
  s.finish <| checkModulus (s.nat rm) <|
    match compute (s.nat rm) with
    | .error e => .error e
    | .ok r => .ok (s.setNat rd r)

/-- MODADD: V[rd] <- (a + b) mod m (40_modarith.md R125). -/
def execModadd (rd rs1 rs2 rm : RegIdx) (s : State) : Result :=
  modularCommand s rd rm fun m => .ok ((s.nat rs1 + s.nat rs2) % m)

/-- MODSUB: V[rd] <- (a - b) mod m, the non-negative remainder (40_modarith.md R127). -/
def execModsub (rd rs1 rs2 rm : RegIdx) (s : State) : Result :=
  modularCommand s rd rm fun m => .ok (imod ((s.nat rs1 : Int) - (s.nat rs2 : Int)) m)

/-- MODMUL: V[rd] <- (a * b) mod m (40_modarith.md R129, R130). -/
def execModmul (rd rs1 rs2 rm : RegIdx) (s : State) : Result :=
  modularCommand s rd rm fun m => .ok (s.nat rs1 * s.nat rs2 % m)

/-- MODRED: V[rd] <- a mod m (40_modarith.md R132). -/
def execModred (rd rs1 rm : RegIdx) (s : State) : Result :=
  modularCommand s rd rm fun m => .ok (s.nat rs1 % m)

/-- MODEXP: V[rd] <- (a ^ e) mod m (40_modarith.md R134, R135). -/
def execModexp (rd rs1 rs2 rm : RegIdx) (s : State) : Result :=
  modularCommand s rd rm fun m => .ok (modPow (s.nat rs1) (s.nat rs2) m)

/-- MODINV: V[rd] <- the inverse of a mod m, or NOINV (40_modarith.md R137 to R139). -/
def execModinv (rd rs1 rm : RegIdx) (s : State) : Result :=
  modularCommand s rd rm fun m => modInv (s.nat rs1) m

/-- MODSQRT: V[rd] <- SQRT(a, m), or NONRESIDUE (40_modarith.md R141, R142, R147). -/
def execModsqrt (rd rs1 rm : RegIdx) (s : State) : Result :=
  modularCommand s rd rm fun m => sqrtMod (s.nat rs1) m

end Sys2Proof.Machine
end

