-- ==== Sys2Proof/Machine/Dispatch.lean ====
section
/-! DEFINITION. Exec: each command to its meaning (43_control.md R263, R274). -/

namespace Sys2Proof.Machine

/-- `Exec` of 43_control.md R263 and the completion with its result: the dispatch table R274. -/
def exec (i : Instr) (s : State) : Host.Outcome State Fault Refusal :=
  match i with
  | .nop => Sys2Proof.Machine.execNop s
  | .modadd rd rs1 rs2 rm => Sys2Proof.Machine.execModadd rd rs1 rs2 rm s
  | .modsub rd rs1 rs2 rm => Sys2Proof.Machine.execModsub rd rs1 rs2 rm s
  | .modmul rd rs1 rs2 rm => Sys2Proof.Machine.execModmul rd rs1 rs2 rm s
  | .modred rd rs1 rm => Sys2Proof.Machine.execModred rd rs1 rm s
  | .modexp rd rs1 rs2 rm => Sys2Proof.Machine.execModexp rd rs1 rs2 rm s
  | .modinv rd rs1 rm => Sys2Proof.Machine.execModinv rd rs1 rm s
  | .modsqrt rd rs1 rm => Sys2Proof.Machine.execModsqrt rd rs1 rm s
  | .pdbl rd rs1 => Sys2Proof.Machine.execPdbl rd rs1 s
  | .padd rd rs1 rs2 => Sys2Proof.Machine.execPadd rd rs1 rs2 s
  | .pmul rd rs1 rs2 => Sys2Proof.Machine.execPmul rd rs1 rs2 s
  | .pval rs1 => Sys2Proof.Machine.execPval rs1 s
  | .pdecomp rd rs1 isOdd => Sys2Proof.Machine.execPdecomp rd rs1 isOdd s
  | .ploadg rd => Sys2Proof.Machine.execPloadg rd s
  | .secpload => Sys2Proof.Machine.execSecpload s
  | .sec1dec rd => Sys2Proof.Machine.execSec1dec rd s
  | .sec1enc rs1 compressed => Sys2Proof.Machine.execSec1enc rs1 compressed s
  | .b58enc => Sys2Proof.Machine.execB58enc s
  | .b58dec => Sys2Proof.Machine.execB58dec s
  | .bech32enc => Sys2Proof.Machine.execBech32enc s
  | .bchmod rd => Sys2Proof.Machine.execBchmod rd s

end Sys2Proof.Machine
end

