-- ==== Sys2Proof/Machine/Engine.lean ====
section
/-! DEFINITION. The engine: fetching the command word from CMD, and the completion. -/

namespace Sys2Proof.Machine

/-- The completion of the in-flight command: `Exec` of the word in CMD, or ILLEGAL for a word that
is no command (43_control.md R263, R274; 30_encoding.md R99). -/
def State.complete (s : State) : Result :=
  match decode s.cmd with
  | .ok i => exec i s
  | .error _ => s.finish (.error .illegal)

/-- The engine's turn: in phase BUSY the completion, in phase IDLE nothing (43_control.md R260,
R263). -/
def State.engineTurn (s : State) : Result := if s.status.busy then s.complete else .next s

/-- The state after the events it waits for have lost their first. -/
def State.taken (s : State) (rest : List Event) : State := { s with inputs := rest }

end Sys2Proof.Machine
end

