-- ==== Sys2Proof/Machine/Step.lean ====
section
/-! DEFINITION. One step: the next event, and how a command comes to run. -/

namespace Sys2Proof.Machine

/-- One step: the first of the events still to come (43_control.md R260, R273). With none to come
the engine has the turn, so a command in flight completes (R267) and an idle machine waits
(70_reset_and_hazards.md R324); log entry 2. -/
def step (s : State) : Host.Outcome State Fault Refusal :=
  match s.inputs with
  | [] => s.engineTurn
  | .host t :: rest => .next ((s.taken rest).transact t)
  | .engine :: rest => (s.taken rest).engineTurn
  | .reset :: rest => .next (s.taken rest).doReset

/-- The state in which the host's write of the word to CMD has just issued it (43_control.md R261)
and the engine has the next turn (R266: the latency may be zero); log entry 1. -/
def State.withFetchWord (s : State) (nbits w : Nat) : State :=
  { s.issue (BitVec.ofNat 32 (w % 2 ^ nbits)) with inputs := .engine :: s.inputs }

end Sys2Proof.Machine
end

