-- ==== Sys2Proof/Safety.lean ====
section
/-! DEFINITION. The terms the claims use: the invariant every step keeps, the spec's tables written
out once more for the claims, the registers a command writes. -/

namespace Sys2Proof.Safety

open Sys2Proof.Machine

/-- STATUS after a command without error: BUSY 0, DONE 1, ERRCODE 0 (43_control.md R263). -/
def doneStatus (st : Status) : Status := { st with busy := false, done := true, errcode := 0#4 }

/-- STATUS after a command with an error: BUSY 0, ERR 1, ERRCODE the code (43_control.md R263,
60_exceptions.md R293). -/
def errStatus (st : Status) (code : BitVec 4) : Status :=
  { st with busy := false, err := true, errcode := code }

/-- The same state, ended by an error: nothing but STATUS changed (43_control.md R264). -/
def ended (s : State) (code : BitVec 4) : State := { s with status := errStatus s.status code }

/-- The states that the spec's rules allow: the memory's canonical form (log entry 3); DONE, ERR and
ERRCODE are clear while BUSY (43_control.md R261); at most one of DONE and ERR (10_state.md R32);
ERRCODE is 0 with DONE, not 0 with ERR (R33), and never above 8 (60_exceptions.md R281); OLEN is at
most OBUF's size (42_codec.md R223). -/
structure Inv (s : State) : Prop where
  mem : s.mem.wf
  busy : s.status.busy = true → s.status.done = false ∧ s.status.err = false ∧ s.status.errcode = 0#4
  one : ¬(s.status.done = true ∧ s.status.err = true)
  done : s.status.done = true → s.status.errcode = 0#4
  err : s.status.err = true → s.status.errcode ≠ 0#4
  code : s.status.errcode.toNat ≤ 8
  olen : s.olen.toNat ≤ obufSize

/-- The match and mask table of 30_encoding.md R95: (match, mask). -/
def matchMask : Opcode → Word × Word
  | .nop => (0x00000000#32, 0xFFFFFFFF#32)
  | .modadd => (0x00000010#32, 0xFF0000FF#32)
  | .modsub => (0x00000011#32, 0xFF0000FF#32)
  | .modmul => (0x00000012#32, 0xFF0000FF#32)
  | .modred => (0x00000013#32, 0xFF0F00FF#32)
  | .modexp => (0x00000014#32, 0xFF0000FF#32)
  | .modinv => (0x00000015#32, 0xFF0F00FF#32)
  | .modsqrt => (0x00000016#32, 0xFF0F00FF#32)
  | .pdbl => (0x00000020#32, 0xFFFF11FF#32)
  | .padd => (0x00000021#32, 0xFFF111FF#32)
  | .pmul => (0x00000022#32, 0xFFF011FF#32)
  | .pval => (0x00000023#32, 0xFFFF1FFF#32)
  | .pdecomp => (0x00000024#32, 0xFEFF01FF#32)
  | .ploadg => (0x00000025#32, 0xFFFFF1FF#32)
  | .secpload => (0x00000026#32, 0xFFFFFFFF#32)
  | .sec1dec => (0x00000028#32, 0xFFFFF1FF#32)
  | .sec1enc => (0x00000029#32, 0xFEFF1FFF#32)
  | .b58enc => (0x00000030#32, 0xFFFFFFFF#32)
  | .b58dec => (0x00000031#32, 0xFFFFFFFF#32)
  | .bech32enc => (0x00000032#32, 0xFFFFFFFF#32)
  | .bchmod => (0x00000033#32, 0xFFFFF0FF#32)

/-- The operand registers a command writes when it succeeds: its destination, both registers of a
destination pair (10_state.md R21, R22; the rule of each command). -/
def destRegs : Instr → List RegIdx
  | .nop => []
  | .modadd rd _ _ _ => [rd]
  | .modsub rd _ _ _ => [rd]
  | .modmul rd _ _ _ => [rd]
  | .modred rd _ _ => [rd]
  | .modexp rd _ _ _ => [rd]
  | .modinv rd _ _ => [rd]
  | .modsqrt rd _ _ => [rd]
  | .pdbl rd _ => [rd, rd + 1#4]
  | .padd rd _ _ => [rd, rd + 1#4]
  | .pmul rd _ _ => [rd, rd + 1#4]
  | .pval _ => []
  | .pdecomp rd _ _ => [rd, rd + 1#4]
  | .ploadg rd => [rd, rd + 1#4]
  | .secpload => []
  | .sec1dec rd => [rd, rd + 1#4]
  | .sec1enc _ _ => []
  | .b58enc => []
  | .b58dec => []
  | .bech32enc => []
  | .bchmod rd => [rd]

/-- The byte-producing commands: those that write OBUF and OLEN (10_state.md R40, R49). -/
def producesBytes : Instr → Bool
  | .sec1enc _ _ => true
  | .b58enc => true
  | .b58dec => true
  | .bech32enc => true
  | .nop => false
  | .modadd _ _ _ _ => false
  | .modsub _ _ _ _ => false
  | .modmul _ _ _ _ => false
  | .modred _ _ _ => false
  | .modexp _ _ _ _ => false
  | .modinv _ _ _ => false
  | .modsqrt _ _ _ => false
  | .pdbl _ _ => false
  | .padd _ _ _ => false
  | .pmul _ _ _ => false
  | .pval _ => false
  | .pdecomp _ _ _ => false
  | .ploadg _ => false
  | .secpload => false
  | .sec1dec _ => false
  | .bchmod _ => false

/-- Whether a pair is an affine point of the curve y^2 = x^3 + a·x + b over the integers mod p, with
both coordinates in range (41_ecc.md R160, R185), for p = CURVE.P, a = CURVE.A, b = CURVE.B, the
coefficients not reduced (10_state.md R43 makes no difference). -/
def OnCurve (c : Curve) (q : Point) : Prop :=
  q.x < c.p.toNat ∧ q.y < c.p.toNat ∧
    q.y * q.y % c.p.toNat = (q.x * q.x * q.x + c.a.toNat * q.x + c.b.toNat) % c.p.toNat

/-- The primes for which SQRT finds a root of every square: p ≡ 3 (mod 4), or p ≡ 1 (mod 4) with a
non-residue that its search meets below ZMAX (40_modarith.md R142, R143). -/
def HasRootFinder (p : Nat) : Prop :=
  Nat.Prime p ∧ (p % 4 = 3 ∨
    (p % 4 = 1 ∧ ∃ z : Nat, 2 ≤ z ∧ z < p ∧ z < 65536 ∧ ¬∃ x : Nat, x * x % p = z))

/-- `Tangent p a q r`: r is the double of q by the affine formula, with some slope (41_ecc.md R168):
λ·2y ≡ 3x² + a, x3 ≡ λ² - 2x, y3 ≡ λ(x - x3) - y (mod p), both in [0, p). -/
def Tangent (p a : Nat) (q r : Point) : Prop :=
  r.x < p ∧ r.y < p ∧ ∃ lam : Int,
    lam * (2 * q.y) ≡ 3 * (q.x : Int) * q.x + a [ZMOD p] ∧
    (r.x : Int) ≡ lam * lam - 2 * q.x [ZMOD p] ∧
    (r.y : Int) ≡ lam * ((q.x : Int) - r.x) - q.y [ZMOD p]

/-- `Chord p q1 q2 r`: r is the sum of q1 and q2 by the affine formula, with some slope (41_ecc.md
R169): λ(x1 - x2) ≡ y1 - y2, x3 ≡ λ² - x1 - x2, y3 ≡ λ(x1 - x3) - y1 (mod p), both in [0, p). -/
def Chord (p : Nat) (q1 q2 r : Point) : Prop :=
  r.x < p ∧ r.y < p ∧ ∃ lam : Int,
    lam * ((q1.x : Int) - q2.x) ≡ (q1.y : Int) - q2.y [ZMOD p] ∧
    (r.x : Int) ≡ lam * lam - q1.x - q2.x [ZMOD p] ∧
    (r.y : Int) ≡ lam * ((q1.x : Int) - r.x) - q1.y [ZMOD p]

/-- One doubling that has a result: 2y is invertible mod p (41_ecc.md R168). -/
def Doubles (p a : Nat) (q r : Point) : Prop := Nat.gcd (2 * q.y) p = 1 ∧ Tangent p a q r

/-- One addition that has a result: equal points double, others have x1 - x2 invertible mod p
(41_ecc.md R169). -/
def Adds (p a : Nat) (q1 q2 r : Point) : Prop :=
  (q1 = q2 ∧ Doubles p a q1 r) ∨
  (q1 ≠ q2 ∧ Int.gcd ((q1.x : Int) - q2.x) p = 1 ∧ Chord p q1 q2 r)

/-- `Multiplies p a q k r`: double-and-add, most significant bit first, takes q to r = k·q with every
step having a result (41_ecc.md R178, R180). -/
inductive Multiplies (p a : Nat) (q : Point) : Nat → Point → Prop where
  /-- the top set bit is consumed by the start value -/
  | one : Multiplies p a q 1 q
  /-- a lower bit that is 0 doubles -/
  | even {k : Nat} {r d : Point} : Multiplies p a q k r → Doubles p a r d → Multiplies p a q (2 * k) d
  /-- a lower bit that is 1 doubles and adds the original point -/
  | odd {k : Nat} {r d t : Point} : Multiplies p a q k r → Doubles p a r d → Adds p a d q t →
      Multiplies p a q (2 * k + 1) t

/-- A 32-bit host read of a window offset (20_memory.md R61). -/
def busRead (off : BitVec 12) : Event := .host (.read (.window off) .w32)

/-- A 32-bit host write of a window offset (20_memory.md R61). -/
def busWrite (off : BitVec 12) (w : Word) : Event := .host (.write (.window off) .w32 w)

/-- The operand registers after VP[rd] <- q (00_scope.md R13). -/
def pairSet (s : State) (rd : RegIdx) (q : Point) : Vector U256 16 :=
  (s.v.set rd.toNat (BitVec.ofNat 256 q.x)).set (rd + 1#4).toNat (BitVec.ofNat 256 q.y)

/-- The big-endian value of the n bytes f 0, ..., f (n - 1) (00_scope.md R14). -/
def beValue (f : Nat → Byte) (n : Nat) : Nat := ∑ i ∈ Finset.range n, (f i).toNat * 256 ^ (n - 1 - i)

/-- z is the number of leading bytes equal to b among the n bytes f 0, ..., f (n - 1). -/
def LeadingCount (f : Nat → Byte) (n : Nat) (b : Byte) (z : Nat) : Prop :=
  z ≤ n ∧ (∀ j < z, f j = b) ∧ (z < n → f z ≠ b)

/-- The base offset of each curve-bank register (20_memory.md R66). -/
def curveBase : CurveReg → Nat
  | .p => 0x040
  | .a => 0x060
  | .b => 0x080
  | .n => 0x0A0
  | .gx => 0x0C0
  | .gy => 0x0E0

end Sys2Proof.Safety
end

