-- ==== Sys2Proof/Certificates/Slice0/Obligations.lean ====
section
/-! DEFINITION. The statements about the BWCC, for the provers. Each `Obligations.<Name>` is a Prop
listed in OBLIGATIONS.json; each docstring names the rule of spec/ it formalises. Each one that has
hypotheses has a witness in Sys2Proof/Tests/Slice0.lean. -/

open Sys2Proof Sys2Proof.Machine Sys2Proof.Safety

/-! ## Encoding -/

/-- Decoding the word of a well-formed command gives the command back (30_encoding.md sections 1 to 3). -/
def Obligations.DecodeOfEncodeIsIdentity : Prop :=
  ∀ i : Instr, i.wf = true → decode (encode i) = .ok i

/-- A word that decodes is the word of its command, and the command is well formed: no bit of a legal
word is dropped (30_encoding.md sections 1 to 4). -/
def Obligations.EncodeOfDecodeIsIdentity : Prop :=
  ∀ (c : Word) (i : Instr), decode c = .ok i → encode i = c ∧ i.wf = true

/-- The decoder reads a word as command X exactly when (c and mask_X) = match_X, no word matches two
rows, and a word is illegal exactly when it matches none (30_encoding.md sections 3 and 4: its match
and mask table and the totality of decoding, both of which the spec marks as derived). -/
def Obligations.DecodeFollowsMatchAndMask : Prop :=
  (∀ (c : Word) (o : Opcode),
    (∃ i, decode c = .ok i ∧ i.opcode = o) ↔ c &&& (matchMask o).2 = (matchMask o).1) ∧
  (∀ (c : Word) (o o' : Opcode), c &&& (matchMask o).2 = (matchMask o).1 →
    c &&& (matchMask o').2 = (matchMask o').1 → o = o') ∧
  (∀ c : Word, (∃ e, decode c = .error e) ↔ ∀ o, c &&& (matchMask o).2 ≠ (matchMask o).1)

/-- The encoding examples of 30_encoding.md R104, read and written. -/
def Obligations.EncodingExamplesHold : Prop :=
  (encode (.pmul 2#4 0#4 4#4) = 0x00040222#32 ∧ decode 0x00040222#32 = .ok (.pmul 2#4 0#4 4#4)) ∧
  (encode (.modsqrt 1#4 0#4 2#4) = 0x00200116#32 ∧ decode 0x00200116#32 = .ok (.modsqrt 1#4 0#4 2#4)) ∧
  (encode (.sec1enc 2#4 true) = 0x01002029#32 ∧ decode 0x01002029#32 = .ok (.sec1enc 2#4 true)) ∧
  (encode (.pdecomp 2#4 4#4 true) = 0x01004224#32 ∧ decode 0x01004224#32 = .ok (.pdecomp 2#4 4#4 true)) ∧
  (encode (.bchmod 5#4) = 0x00000533#32 ∧ decode 0x00000533#32 = .ok (.bchmod 5#4)) ∧
  (encode (.pdbl 3#4 0#4) = 0x00000320#32 ∧ decode 0x00000320#32 = .error .oddPair)

/-! ## The command lifecycle -/

/-- When the word in flight decodes to a command, the engine's turn is `exec` of that command on the
state (43_control.md section 3). What the step adds: it takes the turn off the list of events to
come; with none to come the engine has the turn anyway (log entry 2). -/
def Obligations.StepRunsTheDecodedCommand : Prop :=
  ∀ (s : State) (i : Instr), s.status.busy = true → decode s.cmd = .ok i →
    (∀ rest, s.inputs = .engine :: rest → step s = exec i { s with inputs := rest }) ∧
    (s.inputs = [] → step s = exec i s)

/-- The writes of CMD, ILEN and HLEN while IDLE. A write to CMD issues the word: CMD takes it, BUSY is
set, DONE, ERR and ERRCODE are cleared, OVR and PRED and all else stay (43_control.md section 2). A
write to ILEN or HLEN keeps bits 15:0 of the word, ignores bits 31:16, and changes nothing else
(10_state.md section 4). The bus's answer and the events to come: log entries 2 and 9. -/
def Obligations.WritesOfCmdIlenHlenWhileIdle : Prop :=
  ∀ (s : State) (w : Word) (rest : List Event), s.status.busy = false →
    (s.inputs = busWrite 0x00C#12 w :: rest →
      step s = .next { s with
        inputs := rest
        resp := some .ok
        cmd := w
        status := { s.status with busy := true, done := false, err := false, errcode := 0#4 } }) ∧
    (s.inputs = busWrite 0x010#12 w :: rest →
      step s = .next { s with inputs := rest, resp := some .ok, ilen := w.extractLsb' 0 16 }) ∧
    (s.inputs = busWrite 0x014#12 w :: rest →
      step s = .next { s with inputs := rest, resp := some .ok, hlen := w.extractLsb' 0 16 })

/-- An illegal word is issued like any other and completes with ILLEGAL, code 1; nothing else
changes but BUSY, DONE, ERR, ERRCODE and CMD (30_encoding.md R99). -/
def Obligations.IllegalWordCompletesWithIllegal : Prop :=
  ∀ (s : State) (w : Word) (e : Illegal) (rest : List Event), s.status.busy = false →
    decode w = .error e → s.inputs = busWrite 0x00C#12 w :: .engine :: rest →
    core.run 2 s = .next { s with
      inputs := rest
      resp := some .ok
      cmd := w
      status := { s.status with busy := false, done := false, err := true, errcode := 1#4 } }

/-- While BUSY a host transaction that is no soft reset leaves the command in flight and every
operand it reads as they are, so the snapshot is the current state (43_control.md section 2). -/
def Obligations.TransactionsWhileBusyKeepTheSnapshot : Prop :=
  ∀ (s : State) (t : Transaction) (rest : List Event), s.status.busy = true →
    s.inputs = .host t :: rest →
    (∀ w, t = .write (.window 0x004#12) .w32 w → w.getLsbD 1 = false) →
    ∃ u, step s = .next u ∧ u.status.busy = true ∧ u.cmd = s.cmd ∧ u.v = s.v ∧ u.curve = s.curve ∧
      u.ilen = s.ilen ∧ u.hlen = s.hlen ∧ u.olen = s.olen ∧ u.mem = s.mem ∧ u.epoch = s.epoch

/-- While BUSY a write to any offset but CTRL and STATUS completes without a bus error and has no
effect but OVR <- 1 (70_reset_and_hazards.md R331). -/
def Obligations.WriteWhileBusyIsDropped : Prop :=
  ∀ (s : State) (off : BitVec 12) (w : Word) (rest : List Event), s.status.busy = true →
    off.toNat % 4 = 0 → off ≠ 0x004#12 → off ≠ 0x008#12 → s.inputs = busWrite off w :: rest →
    step s = .next { s with
      inputs := rest
      resp := some .ok
      status := { s.status with ovr := true } }

/-- A write to STATUS, in any phase, clears DONE, ERR and OVR where it has a 1 and does nothing else;
while BUSY only OVR can change, since DONE and ERR are already clear (10_state.md R36). -/
def Obligations.StatusWriteOnlyClears : Prop :=
  ∀ (s : State) (w : Word) (rest : List Event), s.inputs = busWrite 0x008#12 w :: rest →
    step s = .next { s with
      inputs := rest
      resp := some .ok
      status := { s.status with
        done := s.status.done && !w.getLsbD 1
        err := s.status.err && !w.getLsbD 2
        ovr := s.status.ovr && !w.getLsbD 3 } } ∧
    (Inv s → s.status.busy = true →
      step s = .next { s with
        inputs := rest
        resp := some .ok
        status := { s.status with ovr := s.status.ovr && !w.getLsbD 3 } })

/-- The reset input, and a CTRL write with SRST = 1 whatever its other bits, in any phase, leave
exactly the reset state, with no trace of a command in flight; a CTRL write with SRST = 0 only sets
IE (70_reset_and_hazards.md R322, R323; 10_state.md R29). The model's own fields go on (log entries
2, 4, 5, 9). -/
def Obligations.BothResetsGiveTheResetState : Prop :=
  (∀ (s : State) (rest : List Event), s.inputs = .reset :: rest →
    step s = .next { State.reset with
      inputs := rest, resp := s.resp, draws := s.draws, epoch := s.epoch + 1 }) ∧
  (∀ (s : State) (w : Word) (rest : List Event), s.inputs = busWrite 0x004#12 w :: rest →
    w.getLsbD 1 = true →
    step s = .next { State.reset with
      inputs := rest, resp := some .ok, draws := s.draws, epoch := s.epoch + 1 }) ∧
  (∀ (s : State) (w : Word) (rest : List Event), s.inputs = busWrite 0x004#12 w :: rest →
    w.getLsbD 1 = false →
    step s = .next { s with inputs := rest, resp := some .ok, ie := w.getLsbD 0 })

/-- What reset leaves (70_reset_and_hazards.md R321): every register's value, the interrupt output
low, and every buffer byte a draw of that reset. -/
def Obligations.ResetLeavesTheTableValues : Prop :=
  State.reset.status = ⟨false, false, false, false, false, 0#4⟩ ∧
  State.reset.readRegion (regionOf 0x000#12) = 0x42570001#32 ∧
  State.reset.ie = false ∧ State.reset.cmd = 0#32 ∧ State.reset.ilen = 0#16 ∧
  State.reset.hlen = 0#16 ∧ State.reset.olen = 0#16 ∧
  (∀ r : RegIdx, State.reset.getV r = 0#256) ∧
  State.reset.curve.p.toNat = 2 ^ 256 - 2 ^ 32 - 977 ∧ State.reset.curve.a = 0#256 ∧
  State.reset.curve.b = 7#256 ∧
  State.reset.curve.n = 0xFFFFFFFFFFFFFFFFFFFFFFFFFFFFFFFEBAAEDCE6AF48A03BBFD25E8CD0364141#256 ∧
  State.reset.curve.gx = 0x79BE667EF9DCBBAC55A06295CE870B07029BFCDB2DCE28D959F2815B16F81798#256 ∧
  State.reset.curve.gy = 0x483ADA7726A3C4655DA4FBFC0E1108A8FD17B448A68554199C47D08FFB10D4B8#256 ∧
  State.reset.irq = false ∧
  (∀ j < 256, State.reset.ibuf j = Config.bufferDraw 0 (0x400 + j)) ∧
  (∀ j < 512, State.reset.obuf j = Config.bufferDraw 0 (0x800 + j))

/-- From every state, whatever is to come, every step has a next state; one step past the events to
come the engine is IDLE: no command hangs and none stops the machine (43_control.md section 3; the
engine's turn when no event is left is log entry 2). -/
def Obligations.EveryRunEndsIdle : Prop :=
  (∀ s : State, ∃ t, step s = .next t) ∧
  (∀ s : State, ∃ t, core.run (s.inputs.length + 1) s = .next t ∧ t.status.busy = false ∧ t.inputs = [])

/-- The reset state is one the rules allow (log entry 3 for the memory's form). -/
def Obligations.ResetMeetsTheInvariant : Prop := Inv State.reset

/-- Every step keeps the states the rules allow: the memory's form, the STATUS flags' rules (10_state.md
section 4), ERRCODE's range, and OLEN within OBUF. -/
def Obligations.EveryStepKeepsTheInvariant : Prop :=
  ∀ s t : State, Inv s → step s = .next t → Inv t

/-! ## The bus -/

/-- A misaligned access, or one that is not 32 bits wide, gets a bus error and changes no state, in
any phase (20_memory.md section 2); that such a write while BUSY leaves OVR alone is the model's
reading, log entry 10. -/
def Obligations.BusErrorChangesNothing : Prop :=
  ∀ (s : State) (off : BitVec 12) (width : Width) (w : Word) (rest : List Event),
    (off.toNat % 4 ≠ 0 ∨ width ≠ .w32) →
    (s.inputs = .host (.read (.window off) width) :: rest →
      step s = .next { s with inputs := rest, resp := some .busError }) ∧
    (s.inputs = .host (.write (.window off) width w) :: rest →
      step s = .next { s with inputs := rest, resp := some .busError })

/-- An aligned read of a reserved offset returns 0 in any phase, and a write of a reserved offset or
of a read-only register (ID, OLEN, OBUF) while IDLE is ignored without an error (20_memory.md section
2 and 3; reserved offsets while BUSY: log entry 7). -/
def Obligations.ReservedAndReadOnlyOffsets : Prop :=
  ∀ (s : State) (off : BitVec 12) (w : Word) (rest : List Event), off.toNat % 4 = 0 →
    (((0x01C ≤ off.toNat ∧ off.toNat < 0x040) ∨ (0x300 ≤ off.toNat ∧ off.toNat < 0x400) ∨
        (0x500 ≤ off.toNat ∧ off.toNat < 0x800) ∨ 0xA00 ≤ off.toNat) →
      s.inputs = busRead off :: rest →
      step s = .next { s with inputs := rest, resp := some (.data 0#32) }) ∧
    (((0x01C ≤ off.toNat ∧ off.toNat < 0x040) ∨ (0x300 ≤ off.toNat ∧ off.toNat < 0x400) ∨
        (0x500 ≤ off.toNat ∧ off.toNat < 0x800) ∨ 0xA00 ≤ off.toNat ∨
        off.toNat = 0x000 ∨ off.toNat = 0x018 ∨ (0x800 ≤ off.toNat ∧ off.toNat < 0xA00)) →
      s.status.busy = false → s.inputs = busWrite off w :: rest →
      step s = .next { s with inputs := rest, resp := some .ok })

/-- Word k of V[i] stands at 0x100 + 32i + 4k and word k of a curve-bank register at its base + 4k:
while IDLE a read returns bits 32k+31 : 32k, and a write replaces those bits and no others, of that
register and no other (20_memory.md R67). -/
def Obligations.WordsOf256BitRegisters : Prop :=
  ∀ (s : State) (off : BitVec 12) (k : Fin 8) (w : Word) (rest : List Event), s.status.busy = false →
    (∀ i : RegIdx, off.toNat = 0x100 + 32 * i.toNat + 4 * k.val →
      (s.inputs = busRead off :: rest →
        step s = .next { s with
          inputs := rest, resp := some (.data ((s.getV i).extractLsb' (32 * k.val) 32)) }) ∧
      (s.inputs = busWrite off w :: rest →
        ∃ x : U256, step s = .next { s with
            inputs := rest, resp := some .ok, v := s.v.set i.toNat x } ∧
          x.extractLsb' (32 * k.val) 32 = w ∧
          ∀ b : Nat, ¬(32 * k.val ≤ b ∧ b < 32 * k.val + 32) → x.getLsbD b = (s.getV i).getLsbD b)) ∧
    (∀ r : CurveReg, off.toNat = curveBase r + 4 * k.val →
      (s.inputs = busRead off :: rest →
        step s = .next { s with
          inputs := rest, resp := some (.data ((s.curve.get r).extractLsb' (32 * k.val) 32)) }) ∧
      (s.inputs = busWrite off w :: rest →
        ∃ c : Curve, step s = .next { s with inputs := rest, resp := some .ok, curve := c } ∧
          (c.get r).extractLsb' (32 * k.val) 32 = w ∧
          (∀ b : Nat, ¬(32 * k.val ≤ b ∧ b < 32 * k.val + 32) →
            (c.get r).getLsbD b = (s.curve.get r).getLsbD b) ∧
          ∀ r' : CurveReg, r' ≠ r → c.get r' = s.curve.get r'))

/-- Byte j of IBUF and OBUF is bits 8(j mod 4)+7 : 8(j mod 4) of the word at base + 4(j div 4); while
IDLE a word write to IBUF replaces the four bytes it covers and no other (20_memory.md R68). -/
def Obligations.ByteLanesOfTheBuffers : Prop :=
  ∀ (s : State) (off : BitVec 12) (q : Nat) (w : Word) (rest : List Event), s.mem.wf →
    s.status.busy = false →
    (q < 64 → off.toNat = 0x400 + 4 * q →
      (s.inputs = busRead off :: rest →
        ∃ x : Word, step s = .next { s with inputs := rest, resp := some (.data x) } ∧
          ∀ i < 4, x.extractLsb' (8 * i) 8 = s.ibuf (4 * q + i)) ∧
      (s.inputs = busWrite off w :: rest →
        ∃ m : Memory, step s = .next { s with inputs := rest, resp := some .ok, mem := m } ∧
          (∀ i < 4, ({ s with mem := m } : State).ibuf (4 * q + i) = w.extractLsb' (8 * i) 8) ∧
          ∀ a : Nat, ¬(0x400 + 4 * q ≤ a ∧ a < 0x400 + 4 * q + 4) →
            ({ s with mem := m } : State).byteAt a = s.byteAt a)) ∧
    (q < 128 → off.toNat = 0x800 + 4 * q → s.inputs = busRead off :: rest →
      ∃ x : Word, step s = .next { s with inputs := rest, resp := some (.data x) } ∧
        ∀ i < 4, x.extractLsb' (8 * i) 8 = s.obuf (4 * q + i))

/-- What a read of each register returns. In both phases ID, CTRL, STATUS, CMD, ILEN and HLEN read
exactly (ILEN and HLEN while BUSY: log entry 7). OLEN reads exactly while IDLE, and while BUSY as a
fresh draw in its low 16 bits (its reserved bits read 0: log entry 6). V, the curve bank, IBUF and
OBUF while BUSY read as a fresh draw. Nothing else changes (10_state.md sections 4 and 7,
70_reset_and_hazards.md section 3). -/
def Obligations.ReadsInBothPhases : Prop :=
  ∀ (s : State) (off : BitVec 12) (rest : List Event), off.toNat % 4 = 0 →
    s.inputs = busRead off :: rest →
    (off = 0x000#12 → step s = .next { s with inputs := rest, resp := some (.data 0x42570001#32) }) ∧
    (off = 0x004#12 → step s = .next { s with
      inputs := rest, resp := some (.data (if s.ie then 1#32 else 0#32)) }) ∧
    (off = 0x008#12 → step s = .next { s with inputs := rest, resp := some (.data s.status.word) }) ∧
    (off = 0x00C#12 → step s = .next { s with inputs := rest, resp := some (.data s.cmd) }) ∧
    (off = 0x010#12 → step s = .next { s with
      inputs := rest, resp := some (.data (0#16 ++ s.ilen)) }) ∧
    (off = 0x014#12 → step s = .next { s with
      inputs := rest, resp := some (.data (0#16 ++ s.hlen)) }) ∧
    (off = 0x018#12 → s.status.busy = false → step s = .next { s with
      inputs := rest, resp := some (.data (0#16 ++ s.olen)) }) ∧
    (off = 0x018#12 → s.status.busy = true → step s = .next { s with
      inputs := rest, draws := s.draws + 1
      resp := some (.data (0#16 ++ (Config.busyDraw s.draws).extractLsb' 0 16)) }) ∧
    ((0x040 ≤ off.toNat ∧ off.toNat < 0x300) ∨ (0x400 ≤ off.toNat ∧ off.toNat < 0x500) ∨
        (0x800 ≤ off.toNat ∧ off.toNat < 0xA00) → s.status.busy = true →
      step s = .next { s with
        inputs := rest, draws := s.draws + 1, resp := some (.data (Config.busyDraw s.draws)) })

/-- The word of STATUS: BUSY, DONE, ERR, OVR, PRED in bits 0 to 4, ERRCODE in bits 11:8, every other
bit 0 (10_state.md section 4). -/
def Obligations.StatusWordLayout : Prop :=
  ∀ st : Status, st.word.getLsbD 0 = st.busy ∧ st.word.getLsbD 1 = st.done ∧ st.word.getLsbD 2 = st.err ∧
    st.word.getLsbD 3 = st.ovr ∧ st.word.getLsbD 4 = st.pred ∧ st.word.extractLsb' 8 4 = st.errcode ∧
    st.word.extractLsb' 5 3 = 0#3 ∧ st.word.extractLsb' 12 20 = 0#20

/-- The interrupt output is high exactly while IE and one of DONE and ERR are set; setting IE while
DONE or ERR is set raises it at once; clearing both flags by a write to STATUS, issuing a command,
clearing IE and reset each lower it (60_exceptions.md section 4). -/
def Obligations.InterruptFollowsItsFlags : Prop :=
  (∀ s : State, s.irq = true ↔ s.ie = true ∧ (s.status.done = true ∨ s.status.err = true)) ∧
  (∀ (s : State) (w : Word) (rest : List Event), (s.status.done = true ∨ s.status.err = true) →
    s.inputs = busWrite 0x004#12 w :: rest → w.getLsbD 0 = true → w.getLsbD 1 = false →
    ∃ t, step s = .next t ∧ t.irq = true) ∧
  (∀ (s : State) (w : Word) (rest : List Event), s.inputs = busWrite 0x008#12 w :: rest →
    w.getLsbD 1 = true → w.getLsbD 2 = true → ∃ t, step s = .next t ∧ t.irq = false) ∧
  (∀ (s : State) (w : Word) (rest : List Event), s.status.busy = false →
    s.inputs = busWrite 0x00C#12 w :: rest → ∃ t, step s = .next t ∧ t.irq = false) ∧
  (∀ (s : State) (w : Word) (rest : List Event), s.inputs = busWrite 0x004#12 w :: rest →
    w.getLsbD 0 = false → ∃ t, step s = .next t ∧ t.irq = false) ∧
  (∀ (s : State) (rest : List Event), s.inputs = .reset :: rest → ∃ t, step s = .next t ∧ t.irq = false)

/-! ## Rules over every command -/

/-- A command with an odd pair field ends with ILLEGAL, code 1, before any other check, and writes
nothing (30_encoding.md sections 2 and 4; that `exec` of such a term agrees with its word is log
entry 13). -/
def Obligations.OddPairsRaiseIllegal : Prop :=
  ∀ (i : Instr) (s : State), i.wf = false →
    decode (encode i) = .error .oddPair ∧ exec i s = .next (ended s 1#4)

/-- A command that raises an error writes none of its destinations: only BUSY, ERR and ERRCODE change
(43_control.md R264). -/
def Obligations.ErrorWritesNothing : Prop :=
  ∀ (i : Instr) (s t : State), s.status.done = false → s.status.err = false → exec i s = .next t →
    t.status.err = true → ∃ code, code ≠ 0#4 ∧ t = ended s code

/-- A completion clears BUSY and sets exactly one of DONE and ERR: with DONE, ERRCODE is 0; with ERR,
ERRCODE is one of 1 to 8. OVR stays (10_state.md section 4, 60_exceptions.md section 1). -/
def Obligations.CompletionSetsExactlyOneFlag : Prop :=
  ∀ (i : Instr) (s t : State), s.status.done = false → s.status.err = false → exec i s = .next t →
    t.status.busy = false ∧ t.status.ovr = s.status.ovr ∧
    ((t.status.done = true ∧ t.status.err = false ∧ t.status.errcode = 0#4) ∨
      (t.status.done = false ∧ t.status.err = true ∧ 1 ≤ t.status.errcode.toNat ∧
        t.status.errcode.toNat ≤ 8))

/-- The frame of every command: it writes no operand register but its destinations, the curve bank
only if it is SECPLOAD, the buffers and OLEN only if it produces bytes, PRED only if it is PVAL, and
never CTRL, CMD, ILEN, HLEN, OVR (43_control.md section 3 and the rule of each command). -/
def Obligations.CommandsWriteOnlyTheirDestinations : Prop :=
  ∀ (i : Instr) (s t : State), exec i s = .next t →
    t.ie = s.ie ∧ t.cmd = s.cmd ∧ t.ilen = s.ilen ∧ t.hlen = s.hlen ∧ t.status.ovr = s.status.ovr ∧
    t.inputs = s.inputs ∧ t.resp = s.resp ∧ t.draws = s.draws ∧ t.epoch = s.epoch ∧
    (∀ r : RegIdx, r ∉ destRegs i → t.getV r = s.getV r) ∧
    (i ≠ .secpload → t.curve = s.curve) ∧
    (producesBytes i = false → t.mem = s.mem ∧ t.olen = s.olen) ∧
    ((∀ r, i ≠ .pval r) → t.status.pred = s.status.pred)

/-- Commands never write IBUF, and write OBUF only below the new OLEN: every byte outside
OBUF[0..OLEN-1] keeps its value (10_state.md section 6). -/
def Obligations.CommandsWriteOnlyObufBelowOlen : Prop :=
  ∀ (i : Instr) (s t : State), s.mem.wf → exec i s = .next t →
    ∀ a : Nat, ¬(0x800 ≤ a ∧ a < 0x800 + t.olen.toNat) → t.byteAt a = s.byteAt a

/-- What a command computes depends on nothing but the operand registers, the curve bank, ILEN, HLEN
and the buffers: two states that agree on those end with the same error code, registers, curve bank
and buffers; with the same OLEN if a byte-producing command succeeds, and the same PRED if PVAL
succeeds; and else OLEN and PRED are the same if they were before (43_control.md section 3, R265). -/
def Obligations.ResultDependsOnlyOnTheSnapshot : Prop :=
  ∀ (i : Instr) (s s' t : State), s.v = s'.v → s.curve = s'.curve → s.ilen = s'.ilen →
    s.hlen = s'.hlen → s.mem = s'.mem → s.epoch = s'.epoch → exec i s = .next t →
    ∃ t', exec i s' = .next t' ∧ t'.status.errcode = t.status.errcode ∧ t'.v = t.v ∧
      t'.curve = t.curve ∧ t'.mem = t.mem ∧
      (t.status.errcode = 0#4 → producesBytes i = true → t'.olen = t.olen) ∧
      (t.status.errcode = 0#4 → (∃ r, i = .pval r) → t'.status.pred = t.status.pred) ∧
      (s.olen = s'.olen → t'.olen = t.olen) ∧
      (s.status.pred = s'.status.pred → t'.status.pred = t.status.pred)

/-- NOP completes with DONE and writes nothing (43_control.md section 4). -/
def Obligations.NopOnlyCompletes : Prop :=
  ∀ s : State, exec .nop s = .next { s with status := doneStatus s.status }

/-! ## The modular unit -/

/-- MODADD, MODSUB, MODMUL and MODRED with an odd modulus m >= 3 write the exact residue of the sum,
difference, product and operand to V[rd], whatever registers coincide, and complete; nothing else
changes (40_modarith.md sections 2 to 5). -/
def Obligations.ModularResultsAreExactResidues : Prop :=
  ∀ (rd rs1 rs2 rm : RegIdx) (s : State), 3 ≤ s.nat rm → s.nat rm % 2 = 1 →
    exec (.modadd rd rs1 rs2 rm) s = .next { s with
      v := s.v.set rd.toNat (BitVec.ofNat 256 ((s.nat rs1 + s.nat rs2) % s.nat rm))
      status := doneStatus s.status } ∧
    exec (.modsub rd rs1 rs2 rm) s = .next { s with
      v := s.v.set rd.toNat (BitVec.ofNat 256 (((s.nat rs1 : Int) - s.nat rs2) % (s.nat rm : Int)).toNat)
      status := doneStatus s.status } ∧
    exec (.modmul rd rs1 rs2 rm) s = .next { s with
      v := s.v.set rd.toNat (BitVec.ofNat 256 (s.nat rs1 * s.nat rs2 % s.nat rm))
      status := doneStatus s.status } ∧
    exec (.modred rd rs1 rm) s = .next { s with
      v := s.v.set rd.toNat (BitVec.ofNat 256 (s.nat rs1 % s.nat rm))
      status := doneStatus s.status }

/-- Every command of the modular unit whose modulus is even or below 3 ends with MODULUS, code 5, and
changes nothing but STATUS (40_modarith.md R121). -/
def Obligations.ModularUnitChecksItsModulus : Prop :=
  ∀ (rd rs1 rs2 rm : RegIdx) (s : State), (s.nat rm < 3 ∨ s.nat rm % 2 = 0) →
    exec (.modadd rd rs1 rs2 rm) s = .next (ended s 5#4) ∧
    exec (.modsub rd rs1 rs2 rm) s = .next (ended s 5#4) ∧
    exec (.modmul rd rs1 rs2 rm) s = .next (ended s 5#4) ∧
    exec (.modred rd rs1 rm) s = .next (ended s 5#4) ∧
    exec (.modexp rd rs1 rs2 rm) s = .next (ended s 5#4) ∧
    exec (.modinv rd rs1 rm) s = .next (ended s 5#4) ∧
    exec (.modsqrt rd rs1 rm) s = .next (ended s 5#4)

/-- MODEXP writes the exact power (a ^ e) mod m, the exponent not reduced, and 0^0 = 1
(40_modarith.md section 6). -/
def Obligations.ModexpIsTheExactPower : Prop :=
  ∀ (rd rs1 rs2 rm : RegIdx) (s : State), 3 ≤ s.nat rm → s.nat rm % 2 = 1 →
    exec (.modexp rd rs1 rs2 rm) s = .next { s with
      v := s.v.set rd.toNat (BitVec.ofNat 256 (s.nat rs1 ^ s.nat rs2 % s.nat rm))
      status := doneStatus s.status }

/-- MODINV writes the one x in [1, m) with a·x ≡ 1 (mod m) when gcd(a, m) = 1, and else ends with
NOINV, code 4, writing nothing (40_modarith.md section 7, R138). -/
def Obligations.ModinvWritesTheInverse : Prop :=
  ∀ (rd rs1 rm : RegIdx) (s : State), 3 ≤ s.nat rm → s.nat rm % 2 = 1 →
    (Nat.gcd (s.nat rs1) (s.nat rm) = 1 → ∃ x : Nat, 1 ≤ x ∧ x < s.nat rm ∧
      s.nat rs1 * x % s.nat rm = 1 ∧
      (∀ y : Nat, 1 ≤ y → y < s.nat rm → s.nat rs1 * y % s.nat rm = 1 → y = x) ∧
      exec (.modinv rd rs1 rm) s = .next { s with
        v := s.v.set rd.toNat (BitVec.ofNat 256 x), status := doneStatus s.status }) ∧
    (Nat.gcd (s.nat rs1) (s.nat rm) ≠ 1 → exec (.modinv rd rs1 rm) s = .next (ended s 4#4))

/-- Whatever the modulus, a MODSQRT that completes without error has written a root in [0, m) whose
square is a mod m (40_modarith.md section 8, R145). -/
def Obligations.ModsqrtResultSquaresBack : Prop :=
  ∀ (rd rs1 rm : RegIdx) (s t : State), s.status.done = false →
    exec (.modsqrt rd rs1 rm) s = .next t → t.status.done = true →
    t.nat rd < s.nat rm ∧ t.nat rd * t.nat rd % s.nat rm = s.nat rs1 % s.nat rm

/-- For a prime modulus m ≡ 3 (mod 4), MODSQRT of a square writes a^((m+1)/4) mod m, a root, and of a
non-square ends with NONRESIDUE, code 6, writing nothing (40_modarith.md section 8). -/
def Obligations.ModsqrtClosedFormBranch : Prop :=
  ∀ (rd rs1 rm : RegIdx) (s : State), Nat.Prime (s.nat rm) → s.nat rm % 4 = 3 →
    ((∃ x : Nat, x * x % s.nat rm = s.nat rs1 % s.nat rm) → ∃ r : Nat,
      r = s.nat rs1 ^ ((s.nat rm + 1) / 4) % s.nat rm ∧ r * r % s.nat rm = s.nat rs1 % s.nat rm ∧
      exec (.modsqrt rd rs1 rm) s = .next { s with
        v := s.v.set rd.toNat (BitVec.ofNat 256 r), status := doneStatus s.status }) ∧
    ((¬∃ x : Nat, x * x % s.nat rm = s.nat rs1 % s.nat rm) →
      exec (.modsqrt rd rs1 rm) s = .next (ended s 6#4))

/-- For a prime modulus m ≡ 1 (mod 4) that has a non-residue below ZMAX, the Tonelli-Shanks branch of
MODSQRT finds a root of every square, and ends with NONRESIDUE on every non-square (40_modarith.md
section 8). -/
def Obligations.ModsqrtTonelliShanksBranch : Prop :=
  ∀ (rd rs1 rm : RegIdx) (s : State), Nat.Prime (s.nat rm) → s.nat rm % 4 = 1 →
    (∃ z : Nat, 2 ≤ z ∧ z < s.nat rm ∧ z < 65536 ∧ ¬∃ x : Nat, x * x % s.nat rm = z) →
    ((∃ x : Nat, x * x % s.nat rm = s.nat rs1 % s.nat rm) → ∃ r : Nat, r < s.nat rm ∧
      r * r % s.nat rm = s.nat rs1 % s.nat rm ∧
      exec (.modsqrt rd rs1 rm) s = .next { s with
        v := s.v.set rd.toNat (BitVec.ofNat 256 r), status := doneStatus s.status }) ∧
    ((¬∃ x : Nat, x * x % s.nat rm = s.nat rs1 % s.nat rm) →
      exec (.modsqrt rd rs1 rm) s = .next (ended s 6#4))

/-! ## The point engine -/

/-- PDBL of a pair in range writes the double by the affine formula when 2y is invertible mod p, and
else ends with NOINV, code 4; nothing else changes (41_ecc.md sections 1 and 2). -/
def Obligations.PdblWritesTheTangentPoint : Prop :=
  ∀ (rd rs1 : RegIdx) (s : State), pairOk rd = true → pairOk rs1 = true → 3 ≤ s.curve.p.toNat →
    s.curve.p.toNat % 2 = 1 → s.nat rs1 < s.curve.p.toNat → s.nat (rs1 + 1#4) < s.curve.p.toNat →
    (Nat.gcd (2 * s.nat (rs1 + 1#4)) s.curve.p.toNat = 1 → ∃ q : Point,
      Tangent s.curve.p.toNat s.curve.a.toNat ⟨s.nat rs1, s.nat (rs1 + 1#4)⟩ q ∧
      exec (.pdbl rd rs1) s = .next { s with v := pairSet s rd q, status := doneStatus s.status }) ∧
    (Nat.gcd (2 * s.nat (rs1 + 1#4)) s.curve.p.toNat ≠ 1 →
      exec (.pdbl rd rs1) s = .next (ended s 4#4))

/-- PADD of two pairs in range: equal pairs double; different pairs write the chord's point when
x1 - x2 is invertible mod p, and else end with NOINV, code 4 (41_ecc.md sections 1 and 3). -/
def Obligations.PaddWritesTheChordPoint : Prop :=
  ∀ (rd rs1 rs2 : RegIdx) (s : State), pairOk rd = true → pairOk rs1 = true → pairOk rs2 = true →
    3 ≤ s.curve.p.toNat → s.curve.p.toNat % 2 = 1 →
    (s.pair rs1).x < s.curve.p.toNat → (s.pair rs1).y < s.curve.p.toNat →
    (s.pair rs2).x < s.curve.p.toNat → (s.pair rs2).y < s.curve.p.toNat →
    (s.pair rs1 = s.pair rs2 → exec (.padd rd rs1 rs2) s = exec (.pdbl rd rs1) s) ∧
    (s.pair rs1 ≠ s.pair rs2 →
      Int.gcd (((s.pair rs1).x : Int) - (s.pair rs2).x) s.curve.p.toNat = 1 → ∃ q : Point,
      Chord s.curve.p.toNat (s.pair rs1) (s.pair rs2) q ∧
      exec (.padd rd rs1 rs2) s = .next { s with v := pairSet s rd q, status := doneStatus s.status }) ∧
    (s.pair rs1 ≠ s.pair rs2 →
      Int.gcd (((s.pair rs1).x : Int) - (s.pair rs2).x) s.curve.p.toNat ≠ 1 →
      exec (.padd rd rs1 rs2) s = .next (ended s 4#4))

/-- Doubling a pair with y = 0, and adding a point and its negative, end with NOINV and write
nothing (41_ecc.md R171, R176). -/
def Obligations.DegeneratePointsRaiseNoinv : Prop :=
  ∀ (rd rs1 rs2 : RegIdx) (s : State), pairOk rd = true → pairOk rs1 = true → pairOk rs2 = true →
    3 ≤ s.curve.p.toNat → s.curve.p.toNat % 2 = 1 → (s.pair rs1).x < s.curve.p.toNat →
    (s.pair rs1).y < s.curve.p.toNat →
    ((s.pair rs1).y = 0 → exec (.pdbl rd rs1) s = .next (ended s 4#4)) ∧
    ((s.pair rs1).y ≠ 0 → (s.pair rs2).x = (s.pair rs1).x →
      (s.pair rs2).y = (s.curve.p.toNat - (s.pair rs1).y) % s.curve.p.toNat →
      exec (.padd rd rs1 rs2) s = .next (ended s 4#4))

/-- PADD gives the same result, or the same error, with its arguments swapped (41_ecc.md R177). -/
def Obligations.PaddIsSymmetric : Prop :=
  ∀ (rd rs1 rs2 : RegIdx) (s : State), exec (.padd rd rs1 rs2) s = exec (.padd rd rs2 rs1) s

/-- With a bad curve prime, PDBL, PADD, PMUL, PVAL, PDECOMP, and SEC1DEC of a key whose length and tag
are right, end with MODULUS, code 5; with a good prime and a coordinate out of range PDBL, PADD and
PMUL end with RANGE, code 7; pair fields are even (41_ecc.md sections 1 and 9). -/
def Obligations.PointCommandsCheckPrimeAndRange : Prop :=
  ∀ (rd rs1 rs2 : RegIdx) (s : State), pairOk rd = true → pairOk rs1 = true →
    ((s.curve.p.toNat < 3 ∨ s.curve.p.toNat % 2 = 0) →
      exec (.pdbl rd rs1) s = .next (ended s 5#4) ∧ exec (.pmul rd rs1 rs2) s = .next (ended s 5#4) ∧
      (pairOk rs2 = true → exec (.padd rd rs1 rs2) s = .next (ended s 5#4)) ∧
      exec (.pval rs1) s = .next (ended s 5#4) ∧
      (∀ (r : RegIdx) (odd : Bool), exec (.pdecomp rd r odd) s = .next (ended s 5#4)) ∧
      ((s.ilen = 65#16 ∧ s.ibuf 0 = 0x04#8) ∨
          (s.ilen = 33#16 ∧ (s.ibuf 0 = 0x02#8 ∨ s.ibuf 0 = 0x03#8)) →
        exec (.sec1dec rd) s = .next (ended s 5#4))) ∧
    (3 ≤ s.curve.p.toNat → s.curve.p.toNat % 2 = 1 →
      (s.curve.p.toNat ≤ (s.pair rs1).x ∨ s.curve.p.toNat ≤ (s.pair rs1).y) →
      exec (.pdbl rd rs1) s = .next (ended s 7#4) ∧ exec (.pmul rd rs1 rs2) s = .next (ended s 7#4) ∧
      (pairOk rs2 = true → exec (.padd rd rs1 rs2) s = .next (ended s 7#4)) ∧
      (pairOk rs2 = true → exec (.padd rd rs2 rs1) s = .next (ended s 7#4)))

/-- PMUL of a pair in range by k writes the point that double-and-add, most significant bit first,
reaches when every step has a result; for k >= 1 with no such point it ends with NOINV, code 4; for
k = 0 with SCALAR, code 8; for k = 1 the point itself is written (41_ecc.md section 4). -/
def Obligations.PmulComputesTheMultiple : Prop :=
  ∀ (rd rs1 rs2 : RegIdx) (s : State), pairOk rd = true → pairOk rs1 = true → 3 ≤ s.curve.p.toNat →
    s.curve.p.toNat % 2 = 1 → (s.pair rs1).x < s.curve.p.toNat → (s.pair rs1).y < s.curve.p.toNat →
    (∀ r : Point, Multiplies s.curve.p.toNat s.curve.a.toNat (s.pair rs1) (s.nat rs2) r →
      exec (.pmul rd rs1 rs2) s = .next { s with v := pairSet s rd r, status := doneStatus s.status }) ∧
    (1 ≤ s.nat rs2 →
      (¬∃ r : Point, Multiplies s.curve.p.toNat s.curve.a.toNat (s.pair rs1) (s.nat rs2) r) →
      exec (.pmul rd rs1 rs2) s = .next (ended s 4#4)) ∧
    (s.nat rs2 = 0 → exec (.pmul rd rs1 rs2) s = .next (ended s 8#4)) ∧
    (s.nat rs2 = 1 → exec (.pmul rd rs1 rs2) s = .next { s with
      v := (s.v.set rd.toNat (s.getV rs1)).set (rd + 1#4).toNat (s.getV (rs1 + 1#4))
      status := doneStatus s.status })

/-- Curve closure: PMUL of a point on the curve that completes without error writes a point on the
curve, for every odd modulus (41_ecc.md section 4). -/
def Obligations.PmulStaysOnTheCurve : Prop :=
  ∀ (rd rs1 rs2 : RegIdx) (s t : State), pairOk rd = true → pairOk rs1 = true →
    s.status.done = false → OnCurve s.curve (s.pair rs1) →
    exec (.pmul rd rs1 rs2) s = .next t → t.status.done = true → OnCurve s.curve (t.pair rd)

/-- PVAL writes to PRED whether the pair is a point of the curve, coordinates out of range included,
and changes nothing else but STATUS (41_ecc.md section 5). -/
def Obligations.PvalReportsMembership : Prop :=
  ∀ (rs1 : RegIdx) (s : State), pairOk rs1 = true → 3 ≤ s.curve.p.toNat → s.curve.p.toNat % 2 = 1 →
    ∃ b : Bool, (b = true ↔ OnCurve s.curve (s.pair rs1)) ∧
      exec (.pval rs1) s = .next { s with status := { doneStatus s.status with pred := b } }

/-- Whatever the modulus, a PDECOMP that completes without error has written a point of the curve,
with the x asked for and the parity asked for unless y is 0 (41_ecc.md section 6). -/
def Obligations.PdecompNeverLeavesTheCurve : Prop :=
  ∀ (rd rs1 : RegIdx) (odd : Bool) (s t : State), pairOk rd = true → s.status.done = false →
    exec (.pdecomp rd rs1 odd) s = .next t → t.status.done = true →
    OnCurve s.curve (t.pair rd) ∧ (t.pair rd).x = s.nat rs1 ∧
      ((t.pair rd).y % 2 = odd.toNat ∨ (t.pair rd).y = 0)

/-- For a prime p ≡ 3 (mod 4), and for a prime p ≡ 1 (mod 4) that has a non-residue below ZMAX
(92_eei_decisions.md D57), PDECOMP of an x in range that has a point on the curve completes with such
a point, of the parity asked for unless y is 0; with no such point it ends with NONRESIDUE, code 6;
with x >= p with RANGE, code 7 (41_ecc.md section 6). -/
def Obligations.PdecompFindsThePoint : Prop :=
  ∀ (rd rs1 : RegIdx) (odd : Bool) (s : State), pairOk rd = true → HasRootFinder s.curve.p.toNat →
    ((∃ y : Nat, OnCurve s.curve ⟨s.nat rs1, y⟩) → ∃ y : Nat, OnCurve s.curve ⟨s.nat rs1, y⟩ ∧
      (y % 2 = odd.toNat ∨ y = 0) ∧
      exec (.pdecomp rd rs1 odd) s = .next { s with
        v := pairSet s rd ⟨s.nat rs1, y⟩, status := doneStatus s.status }) ∧
    (s.nat rs1 < s.curve.p.toNat → (¬∃ y : Nat, OnCurve s.curve ⟨s.nat rs1, y⟩) →
      exec (.pdecomp rd rs1 odd) s = .next (ended s 6#4)) ∧
    (s.curve.p.toNat ≤ s.nat rs1 → exec (.pdecomp rd rs1 odd) s = .next (ended s 7#4))

/-- PLOADG copies the generator of the bank to a pair, whatever it holds; SECPLOAD restores the bank
it has after reset (41_ecc.md section 8). -/
def Obligations.GeneratorAndCurveLoads : Prop :=
  (∀ (rd : RegIdx) (s : State), pairOk rd = true → exec (.ploadg rd) s = .next { s with
    v := (s.v.set rd.toNat s.curve.gx).set (rd + 1#4).toNat s.curve.gy
    status := doneStatus s.status }) ∧
  (∀ s : State, exec .secpload s = .next { s with
    curve := State.reset.curve, status := doneStatus s.status })

/-- SEC1DEC of an uncompressed key with both coordinates in range writes them, with no curve check;
with one out of range it ends with RANGE, code 7 (41_ecc.md section 9). -/
def Obligations.Sec1decOfAnUncompressedKey : Prop :=
  ∀ (rd : RegIdx) (s : State), pairOk rd = true → s.ilen = 65#16 → s.ibuf 0 = 0x04#8 →
    3 ≤ s.curve.p.toNat → s.curve.p.toNat % 2 = 1 →
    let x := beValue (fun i => s.ibuf (1 + i)) 32
    let y := beValue (fun i => s.ibuf (33 + i)) 32
    (x < s.curve.p.toNat → y < s.curve.p.toNat →
      exec (.sec1dec rd) s = .next { s with v := pairSet s rd ⟨x, y⟩, status := doneStatus s.status }) ∧
    ((s.curve.p.toNat ≤ x ∨ s.curve.p.toNat ≤ y) → exec (.sec1dec rd) s = .next (ended s 7#4))

/-- SEC1DEC of a compressed key is PDECOMP of its x with the parity of its tag (41_ecc.md section 9):
in a state in which a register holds the x the two agree wholly; in any state SEC1DEC ends with the
STATUS that PDECOMP ends with once a register is given the x, and writes the pair that PDECOMP then
writes, or with an error nothing. -/
def Obligations.Sec1decOfACompressedKeyIsPdecomp : Prop :=
  ∀ (rd rs1 : RegIdx) (s : State), s.ilen = 33#16 → (s.ibuf 0 = 0x02#8 ∨ s.ibuf 0 = 0x03#8) →
    (s.nat rs1 = beValue (fun i => s.ibuf (1 + i)) 32 →
      exec (.sec1dec rd) s = exec (.pdecomp rd rs1 (s.ibuf 0 == 0x03#8)) s) ∧
    let x := beValue (fun i => s.ibuf (1 + i)) 32
    ∃ t u, exec (.sec1dec rd) s = .next t ∧
      exec (.pdecomp rd rs1 (s.ibuf 0 == 0x03#8))
        { s with v := s.v.set rs1.toNat (BitVec.ofNat 256 x) } = .next u ∧
      (u.status.errcode = 0#4 → t = { s with
        v := (s.v.set rd.toNat (u.getV rd)).set (rd + 1#4).toNat (u.getV (rd + 1#4))
        status := u.status }) ∧
      (u.status.errcode ≠ 0#4 → t = { s with status := u.status })

/-- The input-shape errors of SEC1DEC, in their order: a length above 256 or 0, a bad tag, a length
that does not match the tag (41_ecc.md section 9). -/
def Obligations.Sec1decChecksItsKeyInOrder : Prop :=
  ∀ (rd : RegIdx) (s : State), pairOk rd = true →
    ((256 < s.ilen.toNat ∨ s.ilen.toNat = 0) → exec (.sec1dec rd) s = .next (ended s 2#4)) ∧
    (1 ≤ s.ilen.toNat → s.ilen.toNat ≤ 256 →
      (s.ibuf 0 ≠ 0x02#8 → s.ibuf 0 ≠ 0x03#8 → s.ibuf 0 ≠ 0x04#8 →
        exec (.sec1dec rd) s = .next (ended s 3#4)) ∧
      (s.ibuf 0 = 0x04#8 → s.ilen.toNat ≠ 65 → exec (.sec1dec rd) s = .next (ended s 2#4)) ∧
      ((s.ibuf 0 = 0x02#8 ∨ s.ibuf 0 = 0x03#8) → s.ilen.toNat ≠ 33 →
        exec (.sec1dec rd) s = .next (ended s 2#4)))

/-- SEC1ENC writes the tag and the big-endian coordinates to OBUF and sets OLEN to 33 or 65, whatever
the values, and changes no other byte (41_ecc.md section 10). -/
def Obligations.Sec1encWritesTheKey : Prop :=
  ∀ (rs1 : RegIdx) (s : State), pairOk rs1 = true → s.mem.wf →
    (∃ t, exec (.sec1enc rs1 true) s = .next t ∧
      t = { s with mem := t.mem, olen := 33#16, status := doneStatus s.status } ∧
      t.obuf 0 = (if s.nat (rs1 + 1#4) % 2 = 1 then 0x03#8 else 0x02#8) ∧
      (∀ i < 32, (t.obuf (1 + i)).toNat = s.nat rs1 / 256 ^ (31 - i) % 256) ∧
      ∀ a : Nat, ¬(0x800 ≤ a ∧ a < 0x800 + 33) → t.byteAt a = s.byteAt a) ∧
    (∃ t, exec (.sec1enc rs1 false) s = .next t ∧
      t = { s with mem := t.mem, olen := 65#16, status := doneStatus s.status } ∧
      t.obuf 0 = 0x04#8 ∧
      (∀ i < 32, (t.obuf (1 + i)).toNat = s.nat rs1 / 256 ^ (31 - i) % 256) ∧
      (∀ i < 32, (t.obuf (33 + i)).toNat = s.nat (rs1 + 1#4) / 256 ^ (31 - i) % 256) ∧
      ∀ a : Nat, ¬(0x800 ≤ a ∧ a < 0x800 + 65) → t.byteAt a = s.byteAt a)

/-- The key round trip: a pair in range, serialised by SEC1ENC, copied by the host to IBUF with ILEN,
and parsed by SEC1DEC, comes back; uncompressed for every odd p >= 3, and compressed for a point on
the curve with p a prime ≡ 3 (mod 4), or ≡ 1 (mod 4) with a non-residue below ZMAX (41_ecc.md
section 10). -/
def Obligations.Sec1KeyRoundTrip : Prop :=
  ∀ (rd rs1 : RegIdx) (compressed : Bool) (s t u : State), pairOk rd = true → pairOk rs1 = true →
    s.mem.wf → exec (.sec1enc rs1 compressed) s = .next t → u.curve = s.curve → u.ilen = t.olen →
    (∀ j < t.olen.toNat, u.ibuf j = t.obuf j) →
    ((compressed = false ∧ 3 ≤ s.curve.p.toNat ∧ s.curve.p.toNat % 2 = 1 ∧
        (s.pair rs1).x < s.curve.p.toNat ∧ (s.pair rs1).y < s.curve.p.toNat) ∨
      (compressed = true ∧ HasRootFinder s.curve.p.toNat ∧ OnCurve s.curve (s.pair rs1))) →
    exec (.sec1dec rd) u = .next { u with
      v := pairSet u rd (s.pair rs1), status := doneStatus u.status }

/-! ## The codecs -/

/-- The two character tables are the strings of 42_codec.md R226 and R235, in ASCII. -/
def Obligations.AlphabetsAreTheSpecsStrings : Prop :=
  (List.range 58).map (fun i => (b58Char i).toNat) =
    "123456789ABCDEFGHJKLMNPQRSTUVWXYZabcdefghijkmnopqrstuvwxyz".toList.map Char.toNat ∧
  (List.range 32).map (fun i => (csChar (BitVec.ofNat 5 i)).toNat) =
    "qpzry9x8gf2tvdw0s3jn54khce6mua7l".toList.map Char.toNat

/-- The length check of the codec commands and of SEC1DEC: LENGTH, code 2, and nothing written
(42_codec.md R222). -/
def Obligations.CodecsCheckTheirLengths : Prop :=
  ∀ (rd : RegIdx) (s : State),
    (256 < s.ilen.toNat → exec .b58enc s = .next (ended s 2#4) ∧ exec .b58dec s = .next (ended s 2#4) ∧
      exec (.bchmod rd) s = .next (ended s 2#4) ∧
      (pairOk rd = true → exec (.sec1dec rd) s = .next (ended s 2#4))) ∧
    (256 < s.hlen.toNat + s.ilen.toNat → exec .bech32enc s = .next (ended s 2#4))

/-- B58ENC of n <= 256 bytes writes one '1' per leading zero byte and then the base-58 digits of the
big-endian value, most significant first with no leading zero digit; OLEN counts them, at most 350,
and no other byte changes (42_codec.md section 1). -/
def Obligations.B58encWritesTheDigits : Prop :=
  ∀ s : State, s.mem.wf → s.ilen.toNat ≤ 256 →
    ∃ (t : State) (z : Nat) (ds : List Nat), exec .b58enc s = .next t ∧
      LeadingCount s.ibuf s.ilen.toNat 0x00#8 z ∧ (∀ d ∈ ds, d < 58) ∧ ds.head? ≠ some 0 ∧
      Nat.ofDigits 58 ds.reverse = beValue s.ibuf s.ilen.toNat ∧
      t = { s with
        mem := t.mem, olen := BitVec.ofNat 16 (z + ds.length), status := doneStatus s.status } ∧
      t.olen.toNat = z + ds.length ∧ z + ds.length ≤ 350 ∧ (∀ j < z, t.obuf j = 0x31#8) ∧
      (∀ (j : Nat) (h : j < ds.length), t.obuf (z + j) = b58Char ds[j]) ∧
      ∀ a : Nat, ¬(0x800 ≤ a ∧ a < 0x800 + (z + ds.length)) → t.byteAt a = s.byteAt a

/-- B58DEC of n <= 256 alphabet characters writes one zero byte per leading '1' and then the minimal
big-endian bytes of the value, at most n in all; a character outside the alphabet, anywhere, ends it
with FORMAT, code 3 (42_codec.md section 2). -/
def Obligations.B58decWritesTheBytes : Prop :=
  ∀ s : State, s.mem.wf → s.ilen.toNat ≤ 256 →
    (∀ idx : Nat → Nat, (∀ j < s.ilen.toNat, idx j < 58 ∧ b58Char (idx j) = s.ibuf j) →
      ∃ (t : State) (z : Nat) (bs : List Byte), exec .b58dec s = .next t ∧
        LeadingCount s.ibuf s.ilen.toNat 0x31#8 z ∧ bs.head? ≠ some 0x00#8 ∧
        beValue (fun i => bs.getD i 0x00#8) bs.length =
          ∑ i ∈ Finset.range s.ilen.toNat, idx i * 58 ^ (s.ilen.toNat - 1 - i) ∧
        t = { s with
          mem := t.mem, olen := BitVec.ofNat 16 (z + bs.length), status := doneStatus s.status } ∧
        t.olen.toNat = z + bs.length ∧ z + bs.length ≤ s.ilen.toNat ∧ (∀ j < z, t.obuf j = 0x00#8) ∧
        (∀ (j : Nat) (h : j < bs.length), t.obuf (z + j) = bs[j]) ∧
        ∀ a : Nat, ¬(0x800 ≤ a ∧ a < 0x800 + (z + bs.length)) → t.byteAt a = s.byteAt a) ∧
    (∀ j < s.ilen.toNat, (∀ i < 58, b58Char i ≠ s.ibuf j) →
      exec .b58dec s = .next (ended s 3#4))

/-- The Base58 round trip, both ways: B58ENC, the text copied by the host to IBUF with ILEN, and
B58DEC give the bytes back when the text is at most 256 characters; and B58DEC of a valid text, the
bytes copied, and B58ENC give the text back (42_codec.md R233). -/
def Obligations.Base58RoundTrip : Prop :=
  (∀ s t u : State, s.mem.wf → u.mem.wf → s.ilen.toNat ≤ 256 → exec .b58enc s = .next t →
    t.olen.toNat ≤ 256 → u.ilen = t.olen → (∀ j < t.olen.toNat, u.ibuf j = t.obuf j) →
    ∃ r, exec .b58dec u = .next r ∧ r.status.done = true ∧ r.olen = s.ilen ∧
      ∀ j < s.ilen.toNat, r.obuf j = s.ibuf j) ∧
  (∀ s t u : State, s.mem.wf → u.mem.wf → s.status.done = false → exec .b58dec s = .next t →
    t.status.done = true → u.ilen = t.olen → (∀ j < t.olen.toNat, u.ibuf j = t.obuf j) →
    ∃ r, exec .b58enc u = .next r ∧ r.status.done = true ∧ r.olen = s.ilen ∧
      ∀ j < s.ilen.toNat, r.obuf j = s.ibuf j)

/-- The checksum register: it starts at 1, and each symbol shifts it as the pseudocode of
42_codec.md R238 says, on integers. -/
def Obligations.PolymodIsTheShiftRegister : Prop :=
  (polymod []).toNat = 1 ∧
  ∀ (vs : List Sym) (v : Sym),
    (polymod (vs ++ [v])).toNat =
      [0, 1, 2, 3, 4].foldl
        (fun chk i =>
          if ((polymod vs).toNat >>> 25).testBit i then
            chk ^^^ [0x3B6A57B2, 0x26508E6D, 0x1EA119FA, 0x3D4233DD, 0x2A1462B3].getD i 0
          else chk)
        ((((polymod vs).toNat &&& 0x1FFFFFF) <<< 5) ^^^ v.toNat)

/-- BECH32ENC with HLEN + ILEN <= 256 writes the HRP as it is, '1', the payload's bits in groups of
five MSB first and zero-padded, and six checksum symbols with which the whole verifies: polymod of
the expanded HRP (c >> 5 of each byte, 0, the low 5 bits of each byte), the data and the checksum is
1 (42_codec.md sections 3 and 4). No other byte changes. -/
def Obligations.Bech32encOutputVerifies : Prop :=
  ∀ s : State, s.mem.wf → s.hlen.toNat + s.ilen.toNat ≤ 256 →
    ∃ (t : State) (d sym : List Sym), exec .bech32enc s = .next t ∧
      d.length = (8 * s.ilen.toNat + 4) / 5 ∧ sym.length = 6 ∧
      Nat.ofDigits 32 (d.reverse.map BitVec.toNat) =
        beValue (fun i => s.ibuf (s.hlen.toNat + i)) s.ilen.toNat * 2 ^ (5 * d.length - 8 * s.ilen.toNat) ∧
      polymod ((List.range s.hlen.toNat).map (fun j => BitVec.ofNat 5 ((s.ibuf j).toNat / 32)) ++ [0#5] ++
        (List.range s.hlen.toNat).map (fun j => BitVec.ofNat 5 ((s.ibuf j).toNat % 32)) ++
        d ++ sym) = 1#30 ∧
      t = { s with
        mem := t.mem, olen := BitVec.ofNat 16 (s.hlen.toNat + 1 + d.length + 6)
        status := doneStatus s.status } ∧
      t.olen.toNat = s.hlen.toNat + 1 + d.length + 6 ∧
      (∀ j < s.hlen.toNat, t.obuf j = s.ibuf j) ∧ t.obuf s.hlen.toNat = 0x31#8 ∧
      (∀ (j : Nat) (h : j < d.length), t.obuf (s.hlen.toNat + 1 + j) = csChar d[j]) ∧
      (∀ (j : Nat) (h : j < sym.length), t.obuf (s.hlen.toNat + 1 + d.length + j) = csChar sym[j]) ∧
      ∀ a : Nat, ¬(0x800 ≤ a ∧ a < 0x800 + (s.hlen.toNat + 1 + d.length + 6)) → t.byteAt a = s.byteAt a

/-- BCHMOD of n <= 256 symbols below 32 writes polymod of them to V[rd], with no final xor; a byte
>= 32 at any position ends it with FORMAT, code 3, and writes nothing (42_codec.md section 5). -/
def Obligations.BchmodRunsTheRegister : Prop :=
  ∀ (rd : RegIdx) (s : State), s.ilen.toNat ≤ 256 →
    ((∀ j < s.ilen.toNat, (s.ibuf j).toNat < 32) → exec (.bchmod rd) s = .next { s with
      v := s.v.set rd.toNat (BitVec.ofNat 256
        (polymod ((List.range s.ilen.toNat).map fun j => BitVec.ofNat 5 (s.ibuf j).toNat)).toNat)
      status := doneStatus s.status }) ∧
    (∀ j < s.ilen.toNat, 32 ≤ (s.ibuf j).toNat → exec (.bchmod rd) s = .next (ended s 3#4))
end

