-- ==== Sys2Proof/Laws/Arith.lean ====
section
/-! SUPPORT. One lemma per arithmetic operation that says what it computes. -/

namespace Sys2Proof.Machine

theorem lt_two_pow_bitlen (k : Nat) : k < 2 ^ bitlen k := by
  unfold bitlen
  split
  · omega
  · exact Nat.lt_log2_self

theorem modPowLoop_eq (m : Nat) : ∀ (k b e acc : Nat), e < 2 ^ k →
    modPowLoop m k b e acc % m = acc * b ^ e % m := by
  intro k
  induction k with
  | zero =>
    intro b e acc h
    have : e = 0 := by omega
    simp [modPowLoop, this]
  | succ k ih =>
    intro b e acc h
    have hk : e / 2 < 2 ^ k := by rw [pow_succ] at h; omega
    rw [modPowLoop, ih _ _ _ hk, Nat.mul_mod, Nat.pow_mod, Nat.mod_mod, ← Nat.pow_mod, ← pow_two, ← pow_mul]
    split
    · next h1 =>
      rw [Nat.mod_mod, ← Nat.mul_mod, mul_assoc, ← pow_succ', show 2 * (e / 2) + 1 = e by omega]
    · next h1 => rw [← Nat.mul_mod, show 2 * (e / 2) = e by omega]

theorem modPowLoop_lt (m : Nat) (hm : 0 < m) : ∀ (k b e acc : Nat), acc < m → modPowLoop m k b e acc < m := by
  intro k
  induction k with
  | zero => intro b e acc h; exact h
  | succ k ih =>
    intro b e acc h
    refine ih _ _ _ ?_
    split
    · exact Nat.mod_lt _ hm
    · exact h

/-- `modPow` is the exact power, reduced (40_modarith.md R134, R135). -/
theorem modPow_eq (a e m : Nat) (hm : 0 < m) : modPow a e m = a ^ e % m := by
  have h := modPowLoop_eq m (bitlen e) (a % m) e (1 % m) (lt_two_pow_bitlen e)
  have hl := modPowLoop_lt m hm (bitlen e) (a % m) e (1 % m) (Nat.mod_lt _ hm)
  rw [Nat.mod_eq_of_lt hl] at h
  rw [modPow, h, Nat.mul_mod, Nat.mod_mod, ← Nat.mul_mod, one_mul, ← Nat.pow_mod]

/-- `imod` is the remainder in [0, m), congruent to its argument (00_scope.md R12). -/
theorem imod_cast (z : Int) (m : Nat) (hm : 0 < m) : ((imod z m : Nat) : Int) = z % (m : Int) := by
  have : 0 ≤ z % (m : Int) := Int.emod_nonneg _ (by omega)
  simp [imod, Int.toNat_of_nonneg this]

theorem imod_lt (z : Int) (m : Nat) (hm : 0 < m) : imod z m < m := by
  have h1 := imod_cast z m hm
  have h2 : z % (m : Int) < m := Int.emod_lt_of_pos _ (by omega)
  omega

theorem invLoop_lt (m : Nat) (hm : 0 < m) : ∀ (k r0 x0 r1 x1 : Nat), x0 < m → x1 < m → invLoop m k r0 x0 r1 x1 < m := by
  intro k
  induction k with
  | zero => intro r0 x0 r1 x1 h _; exact h
  | succ k ih =>
    intro r0 x0 r1 x1 h0 h1
    unfold invLoop
    split
    · exact h0
    · exact ih _ _ _ _ h1 (imod_lt _ _ hm)

theorem invLoop_mod (m : Nat) (hm : 0 < m) (a : Nat) : ∀ (j k r0 x0 r1 x1 : Nat),
    r1 < 2 ^ j → 2 * j + 1 ≤ k →
    (r0 : Int) ≡ x0 * a [ZMOD m] → (r1 : Int) ≡ x1 * a [ZMOD m] →
    ((Nat.gcd r0 r1 : Nat) : Int) ≡ invLoop m k r0 x0 r1 x1 * a [ZMOD m] := by
  have next (r0 x0 r1 x1 : Nat) (h0 : (r0 : Int) ≡ x0 * a [ZMOD m]) (h1 : (r1 : Int) ≡ x1 * a [ZMOD m]) :
      ((r0 % r1 : Nat) : Int) ≡ (imod ((x0 : Int) - (r0 / r1 * x1 : Nat)) m : Nat) * a [ZMOD m] := by
    rw [imod_cast _ _ hm]
    have e : ((r0 % r1 : Nat) : Int) = r0 - (r0 / r1 : Nat) * r1 := by
      have := Nat.div_add_mod r0 r1
      have h : ((r1 * (r0 / r1) + r0 % r1 : Nat) : Int) = r0 := by rw [this]
      push_cast at h ⊢
      linarith
    rw [e]
    have h2 : ((r0 : Int) - (r0 / r1 : Nat) * r1) ≡ (x0 - (r0 / r1 : Nat) * x1) * a [ZMOD m] := by
      have := h0.sub (h1.mul_left (r0 / r1 : Nat))
      rwa [show (x0 : Int) * a - (r0 / r1 : Nat) * (x1 * a) = (x0 - (r0 / r1 : Nat) * x1) * a by ring] at this
    refine h2.trans ?_
    have h3 : ((x0 : Int) - (r0 / r1 * x1 : Nat)) % (m : Int) ≡ (x0 : Int) - (r0 / r1 * x1 : Nat) [ZMOD m] :=
      Int.mod_modEq _ _
    have h4 := h3.symm.mul_right (a : Int)
    push_cast at h4 ⊢
    exact h4
  intro j
  induction j with
  | zero =>
    intro k r0 x0 r1 x1 hr hk h0 h1
    have : r1 = 0 := by omega
    subst this
    obtain ⟨k, rfl⟩ : ∃ n, k = n + 1 := ⟨k - 1, by omega⟩
    simpa [invLoop] using h0
  | succ j ih =>
    intro k r0 x0 r1 x1 hr hk h0 h1
    obtain ⟨k, rfl⟩ : ∃ n, k = n + 2 := ⟨k - 2, by omega⟩
    have n1 := next r0 x0 r1 x1 h0 h1
    unfold invLoop
    split
    · next e => subst e; simpa using h0
    · next hr1 =>
      have hr2 : r0 % r1 < r1 := Nat.mod_lt _ (by omega)
      have g (x y : Nat) : Nat.gcd x y = Nat.gcd y (x % y) := by
        rw [Nat.gcd_comm x, Nat.gcd_rec, Nat.gcd_comm]
      unfold invLoop
      split
      · next e => rw [g, e]; simpa using h1
      · next hr2' =>
        have hlt : r1 % (r0 % r1) < 2 ^ j := by
          rw [pow_succ] at hr
          have h3 : r1 % (r0 % r1) < r0 % r1 := Nat.mod_lt _ (by omega)
          have h4 : r1 % (r0 % r1) + r0 % r1 ≤ r1 := by
            have := Nat.div_add_mod r1 (r0 % r1)
            have hd : 1 ≤ r1 / (r0 % r1) := Nat.div_pos (by omega) (by omega)
            nlinarith
          omega
        have := ih k (r0 % r1) _ (r1 % (r0 % r1)) _ hlt (by omega) n1
          (next r1 x1 (r0 % r1) _ h1 n1)
        rw [g, g r1]
        exact this

/-- `modInv` answers exactly when the inverse exists, and answers it (40_modarith.md R137). -/
theorem modInv_spec (a m : Nat) (hm : 1 < m) :
    (Nat.gcd a m = 1 ∧ ∃ x, modInv a m = .ok x ∧ x < m ∧ a * x % m = 1) ∨
    (Nat.gcd a m ≠ 1 ∧ modInv a m = .error .noinv) := by
  have hg : Nat.gcd (a % m) m = Nat.gcd a m := by rw [← Nat.gcd_rec, Nat.gcd_comm]
  simp only [modInv, hg]
  split
  · next h =>
    refine .inl ⟨h, _, rfl, invLoop_lt m (by omega) _ _ _ _ _ (by omega) hm, ?_⟩
    have hl : a % m < 2 ^ bitlen m := (Nat.mod_lt _ (by omega)).trans (lt_two_pow_bitlen m)
    have e := invLoop_mod m (by omega) a (bitlen m) (2 * bitlen m + 2) m 0 (a % m) 1 hl (by omega)
      (by simp [Int.ModEq]) (by simp [Int.ModEq])
    rw [Nat.gcd_comm, hg, h] at e
    have e2 := e.symm
    rw [Int.ModEq] at e2
    rw [mul_comm]
    have h1 : ((1 : Nat) : Int) % (m : Int) = 1 := Int.emod_eq_of_lt (by norm_num) (by omega)
    rw [h1] at e2
    exact_mod_cast e2
  · next h => exact .inr ⟨h, rfl⟩

/-- `findLeast` answers the least value of its range that satisfies the test, if any does. -/
theorem findLeast_some (ok : Nat → Bool) : ∀ (n lo c : Nat),
    findLeast ok lo n = some c ↔ lo ≤ c ∧ c < lo + n ∧ ok c = true ∧ ∀ d, lo ≤ d → d < c → ok d = false := by
  intro n
  induction n with
  | zero => intro lo c; simp [findLeast]; omega
  | succ n ih =>
    intro lo c
    unfold findLeast
    split
    · next h =>
      constructor
      · rintro ⟨⟩
        exact ⟨le_refl _, by omega, h, fun d h1 h2 => absurd h2 (by omega)⟩
      · rintro ⟨h1, h2, h3, h4⟩
        rcases Nat.lt_or_ge lo c with hlt | hge
        · simp [h4 lo (le_refl _) hlt] at h
        · simp; omega
    · next h =>
      rw [ih]
      constructor
      · rintro ⟨h1, h2, h3, h4⟩
        refine ⟨by omega, by omega, h3, fun d h5 h6 => ?_⟩
        rcases Nat.lt_or_ge lo d with h7 | h7
        · exact h4 d h7 h6
        · rw [show d = lo by omega]; simpa using h
      · rintro ⟨h1, h2, h3, h4⟩
        have : lo ≠ c := fun e => h (e ▸ h3)
        exact ⟨by omega, by omega, h3, fun d h5 h6 => h4 d (by omega) h6⟩

/-- `findLeast` answers nothing exactly when no value of its range satisfies the test. -/
theorem findLeast_none (ok : Nat → Bool) : ∀ (n lo : Nat),
    findLeast ok lo n = none ↔ ∀ c, lo ≤ c → c < lo + n → ok c = false := by
  intro n
  induction n with
  | zero => intro lo; simp [findLeast]; omega
  | succ n ih =>
    intro lo
    unfold findLeast
    split
    · next h => simp; exact ⟨lo, le_refl _, by omega, h⟩
    · next h =>
      rw [ih]
      constructor
      · intro h1 c h2 h3
        rcases Nat.lt_or_ge lo c with h7 | h7
        · exact h1 c h7 (by omega)
        · rw [show c = lo by omega]; simpa using h
      · intro h1 c h2 h3
        exact h1 c (by omega) (by omega)

/-- A root that `checkRoot` lets through squares back (40_modarith.md R145). -/
theorem checkRoot_ok (a m r x : Nat) (h : checkRoot a m r = .ok x) : x = r ∧ x * x % m = a := by
  unfold checkRoot at h
  split at h
  · next e => cases h; exact ⟨rfl, e⟩
  · cases h

/-- The loop's rounds always suffice: `oddPart` splits its argument into an odd number and a power
of two (40_modarith.md R142, log entry 18). -/
theorem oddPart_spec : ∀ (k q s : Nat), 0 < q → q < 2 ^ k →
    (oddPart k q s).1 % 2 = 1 ∧ s ≤ (oddPart k q s).2 ∧
      (oddPart k q s).1 * 2 ^ ((oddPart k q s).2 - s) = q := by
  intro k
  induction k with
  | zero => intro q s h1 h2; omega
  | succ k ih =>
    intro q s h1 h2
    unfold oddPart
    split
    · next h =>
      obtain ⟨h3, h4, h5⟩ := ih (q / 2) (s + 1) (by omega) (by rw [pow_succ] at h2; omega)
      refine ⟨h3, by omega, ?_⟩
      rw [show (oddPart k (q / 2) (s + 1)).2 - s = ((oddPart k (q / 2) (s + 1)).2 - (s + 1)) + 1 by omega,
        pow_succ, ← mul_assoc, h5]
      omega
    · next h => simp; omega

/-! Byte strings and digits -/

theorem digitsLoop_eq (base : Nat) (hb : 2 ≤ base) : ∀ (k v : Nat) (acc : List Nat), v < 2 ^ k →
    digitsLoop base k v acc = (Nat.digits base v).reverse ++ acc := by
  intro k
  induction k with
  | zero =>
    intro v acc h
    have : v = 0 := by omega
    simp [digitsLoop, this]
  | succ k ih =>
    intro v acc h
    unfold digitsLoop
    split
    · next e => simp [e]
    · next e =>
      have hlt : v / base < 2 ^ k := by
        have h1 : v / base ≤ v / 2 := Nat.div_le_div_left hb (by norm_num)
        have h2 : v / 2 < 2 ^ k := by rw [pow_succ] at h; omega
        exact lt_of_le_of_lt h1 h2
      rw [ih _ _ hlt, Nat.digits_def' (b := base) (n := v) (by omega) (by omega)]
      simp

/-- `digits` is the digit string, most significant first; its rounds always suffice (42_codec.md
R224, log entry 18). -/
theorem digits_eq (base v : Nat) (hb : 2 ≤ base) : digits base v = (Nat.digits base v).reverse := by
  rw [digits, digitsLoop_eq base hb _ _ _ (lt_two_pow_bitlen v), List.append_nil]

theorem beInt_append (s : List Byte) (b : Byte) : beInt (s ++ [b]) = beInt s * 256 + b.toNat := by
  simp [beInt]

theorem beBytes_length : ∀ (n v : Nat), (beBytes n v).length = n := by
  intro n
  induction n with
  | zero => intro v; rfl
  | succ n ih => intro v; simp [beBytes, ih]

/-- `beBytes` of N bytes has the value back (00_scope.md R14). -/
theorem beInt_beBytes : ∀ (n v : Nat), v < 256 ^ n → beInt (beBytes n v) = v := by
  intro n
  induction n with
  | zero => intro v h; simp [beBytes, beInt]; omega
  | succ n ih =>
    intro v h
    rw [beBytes, beInt_append, ih (v / 256) (by rw [pow_succ] at h; omega)]
    simp
    omega

end Sys2Proof.Machine
end

