-- ==== Sys2Proof/Laws/Codec.lean ====
section
/-! SUPPORT. The laws of the codec tables and of the Bech32 building blocks. -/

namespace Sys2Proof.Machine

/-- The index of the i-th character of the alphabet is i: the characters are distinct (42_codec.md R226). -/
theorem b58Index_b58Char (i : Nat) (h : i < 58) : b58Index (b58Char i) = some i := by
  have : ∀ i : Fin 58, b58Index (b58Char i.val) = some i.val := by decide +kernel
  exact this ⟨i, h⟩

/-- A byte with an index is that index's character, and the index is below 58 (42_codec.md R230). -/
theorem b58Char_of_b58Index (c : Byte) (i : Nat) (h : b58Index c = some i) : i < 58 ∧ b58Char i = c := by
  obtain ⟨hlt, hc, -⟩ := List.findIdx?_eq_some_iff_getElem.1 h
  have hl : b58Alphabet.length = 58 := rfl
  refine ⟨by omega, ?_⟩
  simp only [b58Char, List.getD_eq_getElem?_getD, List.getElem?_eq_getElem hlt, Option.getD_some]
  simpa using hc

/-- The regrouping loop of five bits at a time (42_codec.md R236). -/
theorem drain_spec (acc bits : Nat) (h : bits < 13) :
    (drain acc bits).2 = bits % 5 ∧ (drain acc bits).1.length = bits / 5 := by
  interval_cases bits <;> exact ⟨rfl, rfl⟩

/-- The checksum register is linear in the symbol that enters (42_codec.md R238). -/
theorem polyStep_symbol (chk : BitVec 30) (v : Sym) : polyStep chk v = polyStep chk 0#5 ^^^ v.setWidth 30 := by
  simp only [polyStep]
  rw [show (0#5).setWidth 30 = 0#30 by rfl, BitVec.xor_zero, BitVec.xor_assoc, BitVec.xor_assoc,
    BitVec.xor_comm (v.setWidth 30)]

theorem polymod_append (a b : List Sym) : polymod (a ++ b) = b.foldl polyStep (polymod a) := by
  simp [polymod]

end Sys2Proof.Machine
end

