-- ==== Sys2Proof/Laws/Decode.lean ====
section
/-! SUPPORT. The laws of the command word's layout and of the opcode map. -/

namespace Sys2Proof

/-- Each bit of the word a field layout makes (30_encoding.md R91). -/
theorem Fields.getLsbD_toWord (f : Fields) (i : Nat) :
    f.toWord.getLsbD i =
      if i < 8 then f.op.getLsbD i
      else if i - 8 < 4 then f.rd.getLsbD (i - 8)
      else if i - 8 - 4 < 4 then f.rs1.getLsbD (i - 8 - 4)
      else if i - 8 - 4 - 4 < 4 then f.rs2.getLsbD (i - 8 - 4 - 4)
      else if i - 8 - 4 - 4 - 4 < 4 then f.rm.getLsbD (i - 8 - 4 - 4 - 4)
      else f.fl.getLsbD (i - 8 - 4 - 4 - 4 - 4) := by
  show BitVec.getLsbD (w := 8 + 4 + 4 + 4 + 4 + 8) (f.fl ++ f.rm ++ f.rs2 ++ f.rs1 ++ f.rd ++ f.op) i = _
  simp only [BitVec.getLsbD_append]

/-- The field layout reads back what it wrote (30_encoding.md R91). -/
theorem Fields.ofWord_toWord (f : Fields) : Fields.ofWord f.toWord = f := by
  have field {n : Nat} (a : Nat) (x : BitVec n) (h : ∀ i < n, f.toWord.getLsbD (a + i) = x.getLsbD i) :
      f.toWord.extractLsb' a n = x := by
    apply BitVec.eq_of_getLsbD_eq
    intro i hi
    simp [hi, h i hi]
  show Fields.mk _ _ _ _ _ _ = f
  rw [field 0 f.op, field 8 f.rd, field 12 f.rs1, field 16 f.rs2, field 20 f.rm, field 24 f.fl] <;>
    (intro i hi; rw [Fields.getLsbD_toWord]; interval_cases i <;> rfl)

/-- The field layout writes back what it read (30_encoding.md R91). -/
theorem Fields.toWord_ofWord (c : Word) : (Fields.ofWord c).toWord = c := by
  apply BitVec.eq_of_getLsbD_eq
  intro i hi
  rw [Fields.getLsbD_toWord]
  simp only [Fields.ofWord, BitVec.getLsbD_extractLsb']
  interval_cases i <;> simp

/-- Every opcode's byte names that opcode: no two rows share a byte (30_encoding.md R94, R95). -/
theorem Opcode.ofByte_byte (o : Opcode) : Opcode.ofByte o.byte = some o := by
  cases o <;> decide

/-- A byte that names an opcode is that opcode's byte (30_encoding.md R94). -/
theorem Opcode.byte_of_ofByte (b : BitVec 8) (o : Opcode) (h : Opcode.ofByte b = some o) : o.byte = b := by
  have := List.find?_some h
  simpa using this

theorem Instr.fields_op (i : Instr) : i.fields.op = i.opcode.byte := by
  cases i <;> rfl

theorem flagByte_getLsbD (b : Bool) : (flagByte b).getLsbD 0 = b := by
  cases b <;> rfl

end Sys2Proof
end

