-- ==== Sys2Proof/Laws/State.lean ====
section
/-! SUPPORT. What each named update of the state does to each field: one lemma per field per update. -/

namespace Sys2Proof.Machine

variable (s : State)

/-! `State.setV` -/

@[simp] theorem State.setV_v (r : RegIdx) (x : U256) : (s.setV r x).v = s.v.set r.toNat x := rfl
@[simp] theorem State.setV_ie (r : RegIdx) (x : U256) : (s.setV r x).ie = s.ie := rfl
@[simp] theorem State.setV_status (r : RegIdx) (x : U256) : (s.setV r x).status = s.status := rfl
@[simp] theorem State.setV_cmd (r : RegIdx) (x : U256) : (s.setV r x).cmd = s.cmd := rfl
@[simp] theorem State.setV_ilen (r : RegIdx) (x : U256) : (s.setV r x).ilen = s.ilen := rfl
@[simp] theorem State.setV_hlen (r : RegIdx) (x : U256) : (s.setV r x).hlen = s.hlen := rfl
@[simp] theorem State.setV_olen (r : RegIdx) (x : U256) : (s.setV r x).olen = s.olen := rfl
@[simp] theorem State.setV_curve (r : RegIdx) (x : U256) : (s.setV r x).curve = s.curve := rfl
@[simp] theorem State.setV_mem (r : RegIdx) (x : U256) : (s.setV r x).mem = s.mem := rfl
@[simp] theorem State.setV_inputs (r : RegIdx) (x : U256) : (s.setV r x).inputs = s.inputs := rfl
@[simp] theorem State.setV_resp (r : RegIdx) (x : U256) : (s.setV r x).resp = s.resp := rfl
@[simp] theorem State.setV_draws (r : RegIdx) (x : U256) : (s.setV r x).draws = s.draws := rfl
@[simp] theorem State.setV_epoch (r : RegIdx) (x : U256) : (s.setV r x).epoch = s.epoch := rfl


/-! `State.setNat` -/

@[simp] theorem State.setNat_v (r : RegIdx) (n : Nat) : (s.setNat r n).v = s.v.set r.toNat (BitVec.ofNat 256 n) := rfl
@[simp] theorem State.setNat_ie (r : RegIdx) (n : Nat) : (s.setNat r n).ie = s.ie := rfl
@[simp] theorem State.setNat_status (r : RegIdx) (n : Nat) : (s.setNat r n).status = s.status := rfl
@[simp] theorem State.setNat_cmd (r : RegIdx) (n : Nat) : (s.setNat r n).cmd = s.cmd := rfl
@[simp] theorem State.setNat_ilen (r : RegIdx) (n : Nat) : (s.setNat r n).ilen = s.ilen := rfl
@[simp] theorem State.setNat_hlen (r : RegIdx) (n : Nat) : (s.setNat r n).hlen = s.hlen := rfl
@[simp] theorem State.setNat_olen (r : RegIdx) (n : Nat) : (s.setNat r n).olen = s.olen := rfl
@[simp] theorem State.setNat_curve (r : RegIdx) (n : Nat) : (s.setNat r n).curve = s.curve := rfl
@[simp] theorem State.setNat_mem (r : RegIdx) (n : Nat) : (s.setNat r n).mem = s.mem := rfl
@[simp] theorem State.setNat_inputs (r : RegIdx) (n : Nat) : (s.setNat r n).inputs = s.inputs := rfl
@[simp] theorem State.setNat_resp (r : RegIdx) (n : Nat) : (s.setNat r n).resp = s.resp := rfl
@[simp] theorem State.setNat_draws (r : RegIdx) (n : Nat) : (s.setNat r n).draws = s.draws := rfl
@[simp] theorem State.setNat_epoch (r : RegIdx) (n : Nat) : (s.setNat r n).epoch = s.epoch := rfl


/-! `State.setPair` -/

@[simp] theorem State.setPair_v (r : RegIdx) (q : Point) : (s.setPair r q).v = (s.v.set r.toNat (BitVec.ofNat 256 q.x)).set (r + 1#4).toNat (BitVec.ofNat 256 q.y) := rfl
@[simp] theorem State.setPair_ie (r : RegIdx) (q : Point) : (s.setPair r q).ie = s.ie := rfl
@[simp] theorem State.setPair_status (r : RegIdx) (q : Point) : (s.setPair r q).status = s.status := rfl
@[simp] theorem State.setPair_cmd (r : RegIdx) (q : Point) : (s.setPair r q).cmd = s.cmd := rfl
@[simp] theorem State.setPair_ilen (r : RegIdx) (q : Point) : (s.setPair r q).ilen = s.ilen := rfl
@[simp] theorem State.setPair_hlen (r : RegIdx) (q : Point) : (s.setPair r q).hlen = s.hlen := rfl
@[simp] theorem State.setPair_olen (r : RegIdx) (q : Point) : (s.setPair r q).olen = s.olen := rfl
@[simp] theorem State.setPair_curve (r : RegIdx) (q : Point) : (s.setPair r q).curve = s.curve := rfl
@[simp] theorem State.setPair_mem (r : RegIdx) (q : Point) : (s.setPair r q).mem = s.mem := rfl
@[simp] theorem State.setPair_inputs (r : RegIdx) (q : Point) : (s.setPair r q).inputs = s.inputs := rfl
@[simp] theorem State.setPair_resp (r : RegIdx) (q : Point) : (s.setPair r q).resp = s.resp := rfl
@[simp] theorem State.setPair_draws (r : RegIdx) (q : Point) : (s.setPair r q).draws = s.draws := rfl
@[simp] theorem State.setPair_epoch (r : RegIdx) (q : Point) : (s.setPair r q).epoch = s.epoch := rfl


/-! `State.output` -/

@[simp] theorem State.output_v (out : List Byte) : (s.output out).v = s.v := rfl
@[simp] theorem State.output_ie (out : List Byte) : (s.output out).ie = s.ie := rfl
@[simp] theorem State.output_status (out : List Byte) : (s.output out).status = s.status := rfl
@[simp] theorem State.output_cmd (out : List Byte) : (s.output out).cmd = s.cmd := rfl
@[simp] theorem State.output_ilen (out : List Byte) : (s.output out).ilen = s.ilen := rfl
@[simp] theorem State.output_hlen (out : List Byte) : (s.output out).hlen = s.hlen := rfl
@[simp] theorem State.output_olen (out : List Byte) : (s.output out).olen = BitVec.ofNat 16 out.length := rfl
@[simp] theorem State.output_curve (out : List Byte) : (s.output out).curve = s.curve := rfl
@[simp] theorem State.output_mem (out : List Byte) : (s.output out).mem = s.mem.setBytes obufBase (out.take obufSize) := rfl
@[simp] theorem State.output_inputs (out : List Byte) : (s.output out).inputs = s.inputs := rfl
@[simp] theorem State.output_resp (out : List Byte) : (s.output out).resp = s.resp := rfl
@[simp] theorem State.output_draws (out : List Byte) : (s.output out).draws = s.draws := rfl
@[simp] theorem State.output_epoch (out : List Byte) : (s.output out).epoch = s.epoch := rfl


/-! `State.issue` -/

@[simp] theorem State.issue_v (w : Word) : (s.issue w).v = s.v := rfl
@[simp] theorem State.issue_ie (w : Word) : (s.issue w).ie = s.ie := rfl
@[simp] theorem State.issue_status (w : Word) : (s.issue w).status = s.status.issued := rfl
@[simp] theorem State.issue_cmd (w : Word) : (s.issue w).cmd = w := rfl
@[simp] theorem State.issue_ilen (w : Word) : (s.issue w).ilen = s.ilen := rfl
@[simp] theorem State.issue_hlen (w : Word) : (s.issue w).hlen = s.hlen := rfl
@[simp] theorem State.issue_olen (w : Word) : (s.issue w).olen = s.olen := rfl
@[simp] theorem State.issue_curve (w : Word) : (s.issue w).curve = s.curve := rfl
@[simp] theorem State.issue_mem (w : Word) : (s.issue w).mem = s.mem := rfl
@[simp] theorem State.issue_inputs (w : Word) : (s.issue w).inputs = s.inputs := rfl
@[simp] theorem State.issue_resp (w : Word) : (s.issue w).resp = s.resp := rfl
@[simp] theorem State.issue_draws (w : Word) : (s.issue w).draws = s.draws := rfl
@[simp] theorem State.issue_epoch (w : Word) : (s.issue w).epoch = s.epoch := rfl


/-! `State.succeed` -/

@[simp] theorem State.succeed_v : (s.succeed).v = s.v := rfl
@[simp] theorem State.succeed_ie : (s.succeed).ie = s.ie := rfl
@[simp] theorem State.succeed_status : (s.succeed).status = s.status.completed := rfl
@[simp] theorem State.succeed_cmd : (s.succeed).cmd = s.cmd := rfl
@[simp] theorem State.succeed_ilen : (s.succeed).ilen = s.ilen := rfl
@[simp] theorem State.succeed_hlen : (s.succeed).hlen = s.hlen := rfl
@[simp] theorem State.succeed_olen : (s.succeed).olen = s.olen := rfl
@[simp] theorem State.succeed_curve : (s.succeed).curve = s.curve := rfl
@[simp] theorem State.succeed_mem : (s.succeed).mem = s.mem := rfl
@[simp] theorem State.succeed_inputs : (s.succeed).inputs = s.inputs := rfl
@[simp] theorem State.succeed_resp : (s.succeed).resp = s.resp := rfl
@[simp] theorem State.succeed_draws : (s.succeed).draws = s.draws := rfl
@[simp] theorem State.succeed_epoch : (s.succeed).epoch = s.epoch := rfl


/-! `State.fail` -/

@[simp] theorem State.fail_v (e : ErrCode) : (s.fail e).v = s.v := rfl
@[simp] theorem State.fail_ie (e : ErrCode) : (s.fail e).ie = s.ie := rfl
@[simp] theorem State.fail_status (e : ErrCode) : (s.fail e).status = s.status.failed e := rfl
@[simp] theorem State.fail_cmd (e : ErrCode) : (s.fail e).cmd = s.cmd := rfl
@[simp] theorem State.fail_ilen (e : ErrCode) : (s.fail e).ilen = s.ilen := rfl
@[simp] theorem State.fail_hlen (e : ErrCode) : (s.fail e).hlen = s.hlen := rfl
@[simp] theorem State.fail_olen (e : ErrCode) : (s.fail e).olen = s.olen := rfl
@[simp] theorem State.fail_curve (e : ErrCode) : (s.fail e).curve = s.curve := rfl
@[simp] theorem State.fail_mem (e : ErrCode) : (s.fail e).mem = s.mem := rfl
@[simp] theorem State.fail_inputs (e : ErrCode) : (s.fail e).inputs = s.inputs := rfl
@[simp] theorem State.fail_resp (e : ErrCode) : (s.fail e).resp = s.resp := rfl
@[simp] theorem State.fail_draws (e : ErrCode) : (s.fail e).draws = s.draws := rfl
@[simp] theorem State.fail_epoch (e : ErrCode) : (s.fail e).epoch = s.epoch := rfl


/-! `State.taken` -/

@[simp] theorem State.taken_v (rest : List Event) : (s.taken rest).v = s.v := rfl
@[simp] theorem State.taken_ie (rest : List Event) : (s.taken rest).ie = s.ie := rfl
@[simp] theorem State.taken_status (rest : List Event) : (s.taken rest).status = s.status := rfl
@[simp] theorem State.taken_cmd (rest : List Event) : (s.taken rest).cmd = s.cmd := rfl
@[simp] theorem State.taken_ilen (rest : List Event) : (s.taken rest).ilen = s.ilen := rfl
@[simp] theorem State.taken_hlen (rest : List Event) : (s.taken rest).hlen = s.hlen := rfl
@[simp] theorem State.taken_olen (rest : List Event) : (s.taken rest).olen = s.olen := rfl
@[simp] theorem State.taken_curve (rest : List Event) : (s.taken rest).curve = s.curve := rfl
@[simp] theorem State.taken_mem (rest : List Event) : (s.taken rest).mem = s.mem := rfl
@[simp] theorem State.taken_inputs (rest : List Event) : (s.taken rest).inputs = rest := rfl
@[simp] theorem State.taken_resp (rest : List Event) : (s.taken rest).resp = s.resp := rfl
@[simp] theorem State.taken_draws (rest : List Event) : (s.taken rest).draws = s.draws := rfl
@[simp] theorem State.taken_epoch (rest : List Event) : (s.taken rest).epoch = s.epoch := rfl


/-! `State.doReset` -/

@[simp] theorem State.doReset_v : (s.doReset).v = State.reset.v := rfl
@[simp] theorem State.doReset_ie : (s.doReset).ie = State.reset.ie := rfl
@[simp] theorem State.doReset_status : (s.doReset).status = State.reset.status := rfl
@[simp] theorem State.doReset_cmd : (s.doReset).cmd = State.reset.cmd := rfl
@[simp] theorem State.doReset_ilen : (s.doReset).ilen = State.reset.ilen := rfl
@[simp] theorem State.doReset_hlen : (s.doReset).hlen = State.reset.hlen := rfl
@[simp] theorem State.doReset_olen : (s.doReset).olen = State.reset.olen := rfl
@[simp] theorem State.doReset_curve : (s.doReset).curve = State.reset.curve := rfl
@[simp] theorem State.doReset_mem : (s.doReset).mem = State.reset.mem := rfl
@[simp] theorem State.doReset_inputs : (s.doReset).inputs = s.inputs := rfl
@[simp] theorem State.doReset_resp : (s.doReset).resp = s.resp := rfl
@[simp] theorem State.doReset_draws : (s.doReset).draws = s.draws := rfl
@[simp] theorem State.doReset_epoch : (s.doReset).epoch = s.epoch + 1 := rfl


/-! `State.withFetchWord` -/

@[simp] theorem State.withFetchWord_v (n w : Nat) : (s.withFetchWord n w).v = s.v := rfl
@[simp] theorem State.withFetchWord_ie (n w : Nat) : (s.withFetchWord n w).ie = s.ie := rfl
@[simp] theorem State.withFetchWord_status (n w : Nat) : (s.withFetchWord n w).status = s.status.issued := rfl
@[simp] theorem State.withFetchWord_cmd (n w : Nat) : (s.withFetchWord n w).cmd = BitVec.ofNat 32 (w % 2 ^ n) := rfl
@[simp] theorem State.withFetchWord_ilen (n w : Nat) : (s.withFetchWord n w).ilen = s.ilen := rfl
@[simp] theorem State.withFetchWord_hlen (n w : Nat) : (s.withFetchWord n w).hlen = s.hlen := rfl
@[simp] theorem State.withFetchWord_olen (n w : Nat) : (s.withFetchWord n w).olen = s.olen := rfl
@[simp] theorem State.withFetchWord_curve (n w : Nat) : (s.withFetchWord n w).curve = s.curve := rfl
@[simp] theorem State.withFetchWord_mem (n w : Nat) : (s.withFetchWord n w).mem = s.mem := rfl
@[simp] theorem State.withFetchWord_inputs (n w : Nat) : (s.withFetchWord n w).inputs = Event.engine :: s.inputs := rfl
@[simp] theorem State.withFetchWord_resp (n w : Nat) : (s.withFetchWord n w).resp = s.resp := rfl
@[simp] theorem State.withFetchWord_draws (n w : Nat) : (s.withFetchWord n w).draws = s.draws := rfl
@[simp] theorem State.withFetchWord_epoch (n w : Nat) : (s.withFetchWord n w).epoch = s.epoch := rfl


variable (st : Status)

/-! `Status.issued` -/

@[simp] theorem Status.issued_busy : (st.issued).busy = true := rfl
@[simp] theorem Status.issued_done : (st.issued).done = false := rfl
@[simp] theorem Status.issued_err : (st.issued).err = false := rfl
@[simp] theorem Status.issued_ovr : (st.issued).ovr = st.ovr := rfl
@[simp] theorem Status.issued_pred : (st.issued).pred = st.pred := rfl
@[simp] theorem Status.issued_errcode : (st.issued).errcode = 0#4 := rfl


/-! `Status.completed` -/

@[simp] theorem Status.completed_busy : (st.completed).busy = false := rfl
@[simp] theorem Status.completed_done : (st.completed).done = true := rfl
@[simp] theorem Status.completed_err : (st.completed).err = st.err := rfl
@[simp] theorem Status.completed_ovr : (st.completed).ovr = st.ovr := rfl
@[simp] theorem Status.completed_pred : (st.completed).pred = st.pred := rfl
@[simp] theorem Status.completed_errcode : (st.completed).errcode = 0#4 := rfl


/-! `Status.failed` -/

@[simp] theorem Status.failed_busy (e : ErrCode) : (st.failed e).busy = false := rfl
@[simp] theorem Status.failed_done (e : ErrCode) : (st.failed e).done = st.done := rfl
@[simp] theorem Status.failed_err (e : ErrCode) : (st.failed e).err = true := rfl
@[simp] theorem Status.failed_ovr (e : ErrCode) : (st.failed e).ovr = st.ovr := rfl
@[simp] theorem Status.failed_pred (e : ErrCode) : (st.failed e).pred = st.pred := rfl
@[simp] theorem Status.failed_errcode (e : ErrCode) : (st.failed e).errcode = e.code := rfl


/-! `Status.overrun` -/

@[simp] theorem Status.overrun_busy : (st.overrun).busy = st.busy := rfl
@[simp] theorem Status.overrun_done : (st.overrun).done = st.done := rfl
@[simp] theorem Status.overrun_err : (st.overrun).err = st.err := rfl
@[simp] theorem Status.overrun_ovr : (st.overrun).ovr = true := rfl
@[simp] theorem Status.overrun_pred : (st.overrun).pred = st.pred := rfl
@[simp] theorem Status.overrun_errcode : (st.overrun).errcode = st.errcode := rfl


/-! `Status.w1c` -/

@[simp] theorem Status.w1c_busy (w : Word) : (st.w1c w).busy = st.busy := rfl
@[simp] theorem Status.w1c_done (w : Word) : (st.w1c w).done = (st.done && !w.getLsbD 1) := rfl
@[simp] theorem Status.w1c_err (w : Word) : (st.w1c w).err = (st.err && !w.getLsbD 2) := rfl
@[simp] theorem Status.w1c_ovr (w : Word) : (st.w1c w).ovr = (st.ovr && !w.getLsbD 3) := rfl
@[simp] theorem Status.w1c_pred (w : Word) : (st.w1c w).pred = st.pred := rfl
@[simp] theorem Status.w1c_errcode (w : Word) : (st.w1c w).errcode = st.errcode := rfl


/-! Registers -/

/-- A register just written reads as written. -/
@[simp] theorem State.getV_setV_self (r : RegIdx) (x : U256) : (s.setV r x).getV r = x := by
  simp [State.getV, State.setV]

/-- A write of one register leaves every other register alone. -/
theorem State.getV_setV_of_ne (r q : RegIdx) (x : U256) (h : r ≠ q) : (s.setV r x).getV q = s.getV q := by
  have hne : r.toNat ≠ q.toNat := fun e => h (BitVec.eq_of_toNat_eq e)
  simp [State.getV, State.setV, hne]

/-- What `finish` answers: always a next state, with every write done or none. -/
theorem State.finish_cases (r : Except ErrCode State) :
    (∃ t, r = .ok t ∧ s.finish r = .next t.succeed) ∨ (∃ e, r = .error e ∧ s.finish r = .next (s.fail e)) := by
  cases r with
  | ok t => exact .inl ⟨t, rfl, rfl⟩
  | error e => exact .inr ⟨e, rfl, rfl⟩

@[simp] theorem State.finish_ok (t : State) : s.finish (.ok t) = .next t.succeed := rfl
@[simp] theorem State.finish_error (e : ErrCode) : s.finish (.error e) = .next (s.fail e) := rfl

/-- A pair check that holds is no check. -/
theorem checkPair_of {α : Type} (r : RegIdx) (k : Except ErrCode α) (h : pairOk r = true) : checkPair r k = k := by
  simp [checkPair, h]

/-- A modulus check that holds is no check. -/
theorem checkModulus_of {α : Type} (m : Nat) (k : Except ErrCode α) (h : ¬badModulus m) : checkModulus m k = k := by
  simp only [checkModulus, if_neg h]

/-- A range check that holds is no check. -/
theorem checkRange_of {α : Type} (p : Nat) (q : Point) (k : Except ErrCode α) (hx : q.x < p) (hy : q.y < p) :
    checkRange p q k = k := by
  have h : ¬(q.x ≥ p ∨ q.y ≥ p) := by omega
  simp only [checkRange, if_neg h]

end Sys2Proof.Machine
end

