-- ==== Sys2Proof/Laws/Memory.lean ====
section
/-! SUPPORT. The laws of the byte memory: read after write, and the canonical form. -/

namespace Sys2Proof.Machine

/-- Reading after listing one byte: that byte at its offset, as before elsewhere. -/
theorem Memory.get?_set (m : Memory) (a b : Nat) (x : Byte) (h : m.Pairwise (fun c d => c.1 < d.1)) :
    (Memory.set a x m).get? b = if b = a then some x else m.get? b := by
  induction m with
  | nil =>
    by_cases e : b = a
    · simp [Memory.set, Memory.get?, e]
    · simp [Memory.set, Memory.get?, e, Ne.symm e]
  | cons c m ih =>
    obtain ⟨hc, hm⟩ := List.pairwise_cons.1 h
    unfold Memory.set
    split
    · by_cases e : b = a
      · simp [Memory.get?, e]
      · simp [Memory.get?, e, Ne.symm e]
    · split
      · next e1 =>
        by_cases e : b = a
        · simp [Memory.get?, e]
        · have : ¬c.1 = b := by omega
          simp [Memory.get?, e, this, Ne.symm e]
      · next h1 h2 =>
        simp only [Memory.get?, ih hm]
        by_cases e : b = a
        · have : ¬c.1 = a := by omega
          simp [this, e]
        · simp [e]

/-- An offset of a memory with a byte listed is the byte's offset or was listed before. -/
theorem Memory.mem_set (m : Memory) (a : Nat) (x : Byte) (c : Host.Cell) (h : c ∈ Memory.set a x m) :
    c.1 = a ∨ c ∈ m := by
  induction m with
  | nil => simp [Memory.set] at h; simp [h]
  | cons d m ih =>
    unfold Memory.set at h
    split at h
    · rcases List.mem_cons.1 h with h | h
      · simp [h]
      · exact .inr h
    · split at h
      · rcases List.mem_cons.1 h with h | h
        · simp [h]
        · exact .inr (List.mem_cons_of_mem _ h)
      · rcases List.mem_cons.1 h with h | h
        · simp [h]
        · rcases ih h with h | h
          · exact .inl h
          · exact .inr (List.mem_cons_of_mem _ h)

/-- Listing a byte of a buffer keeps the canonical form. -/
theorem Memory.wf_set (m : Memory) (a : Nat) (x : Byte) (ha : inBuffer a) (h : m.wf) : (Memory.set a x m).wf := by
  refine ⟨?_, fun c hc => ?_⟩
  · obtain ⟨h, -⟩ := h
    induction m with
    | nil => simp [Memory.set]
    | cons c m ih =>
      obtain ⟨hc, hm⟩ := List.pairwise_cons.1 h
      unfold Memory.set
      split
      · next h1 =>
        refine List.pairwise_cons.2 ⟨fun d hd => ?_, h⟩
        rcases List.mem_cons.1 hd with rfl | hd
        · exact h1
        · exact Nat.lt_trans h1 (hc d hd)
      · split
        · next h1 h2 => exact List.pairwise_cons.2 ⟨fun d hd => h2 ▸ hc d hd, hm⟩
        · next h1 h2 =>
          refine List.pairwise_cons.2 ⟨fun d hd => ?_, ih hm⟩
          rcases Memory.mem_set m a x d hd with e | hd
          · omega
          · exact hc d hd
  · rcases Memory.mem_set m a x c hc with e | hc
    · rw [e]; exact ha
    · exact h.2 c hc

/-- Listing a byte string inside the buffers keeps the canonical form. -/
theorem Memory.wf_setBytes (bs : List Byte) : ∀ (m : Memory) (a : Nat),
    (∀ i < bs.length, inBuffer (a + i)) → m.wf → (m.setBytes a bs).wf := by
  induction bs with
  | nil => intro m a _ h; exact h
  | cons b bs ih =>
    intro m a hin h
    refine ih _ _ (fun i hi => ?_) (Memory.wf_set m a b (hin 0 (by simp)) h)
    have := hin (i + 1) (by simp; omega)
    rwa [show a + 1 + i = a + (i + 1) by omega]

theorem Memory.rising_set (m : Memory) (a : Nat) (x : Byte) (h : m.Pairwise (fun c d => c.1 < d.1)) :
    (Memory.set a x m).Pairwise (fun c d => c.1 < d.1) := by
  induction m with
  | nil => simp [Memory.set]
  | cons c m ih =>
    obtain ⟨hc, hm⟩ := List.pairwise_cons.1 h
    unfold Memory.set
    split
    · next h1 =>
      refine List.pairwise_cons.2 ⟨fun d hd => ?_, h⟩
      rcases List.mem_cons.1 hd with rfl | hd
      · exact h1
      · exact Nat.lt_trans h1 (hc d hd)
    · split
      · next h1 h2 => exact List.pairwise_cons.2 ⟨fun d hd => h2 ▸ hc d hd, hm⟩
      · next h1 h2 =>
        refine List.pairwise_cons.2 ⟨fun d hd => ?_, ih hm⟩
        rcases Memory.mem_set m a x d hd with e | hd
        · omega
        · exact hc d hd

/-- Reading after listing a byte string: its bytes inside, as before outside. -/
theorem Memory.get?_setBytes (bs : List Byte) : ∀ (m : Memory) (a b : Nat),
    m.Pairwise (fun c d => c.1 < d.1) →
    (m.setBytes a bs).get? b = if a ≤ b ∧ b < a + bs.length then bs[b - a]? else m.get? b := by
  induction bs with
  | nil =>
    intro m a b _
    have : ¬(a ≤ b ∧ b < a + ([] : List Byte).length) := by simp
    simp only [Memory.setBytes, if_neg this]
  | cons x bs ih =>
    intro m a b h
    rw [Memory.setBytes, ih _ _ _ (Memory.rising_set m a x h), Memory.get?_set m a b x h]
    by_cases e : b = a
    · subst e
      simp
    · by_cases h1 : a + 1 ≤ b ∧ b < a + 1 + bs.length
      · have h2 : a ≤ b ∧ b < a + (x :: bs).length := by simp; omega
        obtain ⟨n, rfl⟩ : ∃ n, b = a + (n + 1) := ⟨b - a - 1, by omega⟩
        rw [if_pos h1, if_pos h2, show a + (n + 1) - (a + 1) = n by omega, show a + (n + 1) - a = n + 1 by omega]
        simp
      · have h2 : ¬(a ≤ b ∧ b < a + (x :: bs).length) := by simp; omega
        rw [if_neg h1, if_neg h2, if_neg e]

/-- The reset memory has the canonical form. -/
theorem reset_mem_wf : State.reset.mem.wf := ⟨List.Pairwise.nil, fun _ h => absurd h (List.not_mem_nil)⟩

/-- What `byteAt` reads after an output: the output's bytes in OBUF, as before elsewhere. -/
theorem State.byteAt_output (s : State) (out : List Byte) (a : Nat)
    (h : s.mem.Pairwise (fun c d => c.1 < d.1)) (hl : out.length ≤ obufSize) :
    (s.output out).byteAt a =
      if hi : obufBase ≤ a ∧ a < obufBase + out.length then out[a - obufBase]'(by omega) else s.byteAt a := by
  have ht : out.take obufSize = out := List.take_of_length_le hl
  simp only [State.byteAt, State.output_mem, State.output_epoch, ht, Memory.get?_setBytes out _ _ a h]
  by_cases hi : obufBase ≤ a ∧ a < obufBase + out.length
  · rw [if_pos hi, dif_pos hi, List.getElem?_eq_getElem (by omega)]
  · rw [if_neg hi, dif_neg hi]

/-- An output keeps the canonical form. -/
theorem State.wf_output (s : State) (out : List Byte) (h : s.mem.wf) : (s.output out).mem.wf := by
  refine Memory.wf_setBytes _ _ _ (fun i hi => ?_) h
  have : i < obufSize := by simp at hi; omega
  right; omega

/-! Words of a 256-bit register (20_memory.md R67) -/

/-- A word just written reads as written. -/
theorem wordOf_withWord_self (x : U256) (k : Fin 8) (w : Word) : wordOf (withWord x k w) k = w := by
  fin_cases k <;> (apply BitVec.eq_of_getLsbD_eq; intro i hi; simp [wordOf, withWord]; interval_cases i <;> simp)

/-- A write of one word leaves every other word alone. -/
theorem wordOf_withWord_of_ne (x : U256) (j k : Fin 8) (w : Word) (h : j ≠ k) :
    wordOf (withWord x k w) j = wordOf x j := by
  have hne : j.val ≠ k.val := fun e => h (Fin.ext e)
  have hj := j.isLt
  have hk := k.isLt
  apply BitVec.eq_of_getLsbD_eq
  intro i hi
  simp only [wordOf, withWord, BitVec.getLsbD_extractLsb', hi, decide_true, Bool.true_and, BitVec.getLsbD_or,
    BitVec.getLsbD_and, BitVec.getLsbD_not, BitVec.getLsbD_shiftLeft, BitVec.getLsbD_setWidth]
  rcases Nat.lt_or_gt_of_ne hne with hlt | hgt
  · have : 32 * j.val + i < 32 * k.val := by omega
    have h2 : 32 * j.val + i < 256 := by omega
    simp [this, h2]
  · have h1 : ¬ 32 * j.val + i < 32 * k.val := by omega
    have h2 : 32 * j.val + i < 256 := by omega
    have h3 : 32 ≤ 32 * j.val + i - 32 * k.val := by omega
    have h4 : (4294967295#256).getLsbD (32 * j.val + i - 32 * k.val) = false := by
      rw [show (4294967295#256) = BitVec.ofNat 256 (2 ^ 32 - 1) by rfl, BitVec.getLsbD_ofNat,
        Nat.testBit_two_pow_sub_one]
      simp; omega
    have h5 : w.getLsbD (32 * j.val + i - 32 * k.val) = false := BitVec.getLsbD_of_ge _ _ h3
    simp [h1, h2, h4, h5]

end Sys2Proof.Machine
end

