-- ==== Sys2Proof/Laws/PerInstr.lean ====
section
/-! SUPPORT. The per-instruction family `ClassAccepts`: the class table of 30_encoding.md R93 lets a
command's fields through exactly when the command is well formed. -/

namespace Sys2Proof.Laws.ClassAccepts

/-- The checks of a command's class (30_encoding.md R93, R96, R97) pass on its own fields exactly
when it is well formed. -/
def Statement (i : Instr) : Prop := i.opcode.cls.row.check i.fields = none ↔ i.wf = true

theorem nop : Statement .nop := by
  simp [Statement, Instr.opcode, Opcode.cls, FormatClass.row, ClassRow.check, FieldUse.zeroBroken,
    FieldUse.pairBroken, ClassRow.flagBroken, Instr.fields, Instr.wf]

theorem modadd (rd : RegIdx) (rs1 : RegIdx) (rs2 : RegIdx) (rm : RegIdx) : Statement (.modadd rd rs1 rs2 rm) := by
  simp [Statement, Instr.opcode, Opcode.cls, FormatClass.row, ClassRow.check, FieldUse.zeroBroken,
    FieldUse.pairBroken, ClassRow.flagBroken, Instr.fields, Instr.wf]

theorem modsub (rd : RegIdx) (rs1 : RegIdx) (rs2 : RegIdx) (rm : RegIdx) : Statement (.modsub rd rs1 rs2 rm) := by
  simp [Statement, Instr.opcode, Opcode.cls, FormatClass.row, ClassRow.check, FieldUse.zeroBroken,
    FieldUse.pairBroken, ClassRow.flagBroken, Instr.fields, Instr.wf]

theorem modmul (rd : RegIdx) (rs1 : RegIdx) (rs2 : RegIdx) (rm : RegIdx) : Statement (.modmul rd rs1 rs2 rm) := by
  simp [Statement, Instr.opcode, Opcode.cls, FormatClass.row, ClassRow.check, FieldUse.zeroBroken,
    FieldUse.pairBroken, ClassRow.flagBroken, Instr.fields, Instr.wf]

theorem modred (rd : RegIdx) (rs1 : RegIdx) (rm : RegIdx) : Statement (.modred rd rs1 rm) := by
  simp [Statement, Instr.opcode, Opcode.cls, FormatClass.row, ClassRow.check, FieldUse.zeroBroken,
    FieldUse.pairBroken, ClassRow.flagBroken, Instr.fields, Instr.wf]

theorem modexp (rd : RegIdx) (rs1 : RegIdx) (rs2 : RegIdx) (rm : RegIdx) : Statement (.modexp rd rs1 rs2 rm) := by
  simp [Statement, Instr.opcode, Opcode.cls, FormatClass.row, ClassRow.check, FieldUse.zeroBroken,
    FieldUse.pairBroken, ClassRow.flagBroken, Instr.fields, Instr.wf]

theorem modinv (rd : RegIdx) (rs1 : RegIdx) (rm : RegIdx) : Statement (.modinv rd rs1 rm) := by
  simp [Statement, Instr.opcode, Opcode.cls, FormatClass.row, ClassRow.check, FieldUse.zeroBroken,
    FieldUse.pairBroken, ClassRow.flagBroken, Instr.fields, Instr.wf]

theorem modsqrt (rd : RegIdx) (rs1 : RegIdx) (rm : RegIdx) : Statement (.modsqrt rd rs1 rm) := by
  simp [Statement, Instr.opcode, Opcode.cls, FormatClass.row, ClassRow.check, FieldUse.zeroBroken,
    FieldUse.pairBroken, ClassRow.flagBroken, Instr.fields, Instr.wf]

theorem pdbl (rd : RegIdx) (rs1 : RegIdx) : Statement (.pdbl rd rs1) := by
  simp [Statement, Instr.opcode, Opcode.cls, FormatClass.row, ClassRow.check, FieldUse.zeroBroken,
    FieldUse.pairBroken, ClassRow.flagBroken, Instr.fields, Instr.wf]

theorem padd (rd : RegIdx) (rs1 : RegIdx) (rs2 : RegIdx) : Statement (.padd rd rs1 rs2) := by
  simp [Statement, Instr.opcode, Opcode.cls, FormatClass.row, ClassRow.check, FieldUse.zeroBroken,
    FieldUse.pairBroken, ClassRow.flagBroken, Instr.fields, Instr.wf]

theorem pmul (rd : RegIdx) (rs1 : RegIdx) (rs2 : RegIdx) : Statement (.pmul rd rs1 rs2) := by
  simp [Statement, Instr.opcode, Opcode.cls, FormatClass.row, ClassRow.check, FieldUse.zeroBroken,
    FieldUse.pairBroken, ClassRow.flagBroken, Instr.fields, Instr.wf]

theorem pval (rs1 : RegIdx) : Statement (.pval rs1) := by
  simp [Statement, Instr.opcode, Opcode.cls, FormatClass.row, ClassRow.check, FieldUse.zeroBroken,
    FieldUse.pairBroken, ClassRow.flagBroken, Instr.fields, Instr.wf]

theorem pdecomp (rd : RegIdx) (rs1 : RegIdx) (isOdd : Bool) : Statement (.pdecomp rd rs1 isOdd) := by
  cases isOdd <;>
  simp [Statement, Instr.opcode, Opcode.cls, FormatClass.row, ClassRow.check, FieldUse.zeroBroken,
    FieldUse.pairBroken, ClassRow.flagBroken, Instr.fields, Instr.wf, flagByte]

theorem ploadg (rd : RegIdx) : Statement (.ploadg rd) := by
  simp [Statement, Instr.opcode, Opcode.cls, FormatClass.row, ClassRow.check, FieldUse.zeroBroken,
    FieldUse.pairBroken, ClassRow.flagBroken, Instr.fields, Instr.wf]

theorem secpload : Statement .secpload := by
  simp [Statement, Instr.opcode, Opcode.cls, FormatClass.row, ClassRow.check, FieldUse.zeroBroken,
    FieldUse.pairBroken, ClassRow.flagBroken, Instr.fields, Instr.wf]

theorem sec1dec (rd : RegIdx) : Statement (.sec1dec rd) := by
  simp [Statement, Instr.opcode, Opcode.cls, FormatClass.row, ClassRow.check, FieldUse.zeroBroken,
    FieldUse.pairBroken, ClassRow.flagBroken, Instr.fields, Instr.wf]

theorem sec1enc (rs1 : RegIdx) (compressed : Bool) : Statement (.sec1enc rs1 compressed) := by
  cases compressed <;>
  simp [Statement, Instr.opcode, Opcode.cls, FormatClass.row, ClassRow.check, FieldUse.zeroBroken,
    FieldUse.pairBroken, ClassRow.flagBroken, Instr.fields, Instr.wf, flagByte]

theorem b58enc : Statement .b58enc := by
  simp [Statement, Instr.opcode, Opcode.cls, FormatClass.row, ClassRow.check, FieldUse.zeroBroken,
    FieldUse.pairBroken, ClassRow.flagBroken, Instr.fields, Instr.wf]

theorem b58dec : Statement .b58dec := by
  simp [Statement, Instr.opcode, Opcode.cls, FormatClass.row, ClassRow.check, FieldUse.zeroBroken,
    FieldUse.pairBroken, ClassRow.flagBroken, Instr.fields, Instr.wf]

theorem bech32enc : Statement .bech32enc := by
  simp [Statement, Instr.opcode, Opcode.cls, FormatClass.row, ClassRow.check, FieldUse.zeroBroken,
    FieldUse.pairBroken, ClassRow.flagBroken, Instr.fields, Instr.wf]

theorem bchmod (rd : RegIdx) : Statement (.bchmod rd) := by
  simp [Statement, Instr.opcode, Opcode.cls, FormatClass.row, ClassRow.check, FieldUse.zeroBroken,
    FieldUse.pairBroken, ClassRow.flagBroken, Instr.fields, Instr.wf]

end Sys2Proof.Laws.ClassAccepts
end

