-- ==== Sys2Proof/Laws/Step.lean ====
section
/-! SUPPORT. What each shared operation of the lifecycle, the bus and the step can do, said once. -/

namespace Sys2Proof.Machine

/-- Every meaning ends in `finish`: all its writes and DONE, or none of them and an error
(43_control.md R263, R264). -/
theorem exec_finish (i : Instr) (s : State) : ∃ r, exec i s = s.finish r := by
  cases i with
  | nop => exact ⟨.ok s, rfl⟩
  | secpload => exact ⟨.ok { s with curve := secp256k1 }, rfl⟩
  | _ => exact ⟨_, rfl⟩

/-- What a meaning answers: a next state, ended with success or with an error. -/
theorem exec_cases (i : Instr) (s : State) :
    (∃ t, exec i s = .next (State.succeed t)) ∨ (∃ e, exec i s = .next (s.fail e)) := by
  obtain ⟨r, h⟩ := exec_finish i s
  rcases s.finish_cases r with ⟨t, -, e⟩ | ⟨c, -, e⟩
  · exact .inl ⟨t, h.trans e⟩
  · exact .inr ⟨c, h.trans e⟩

/-- A command of the modular unit: a bad modulus, the computation's error, or one register written. -/
theorem modularCommand_cases (s : State) (rd rm : RegIdx) (f : Nat → Except ErrCode Nat) :
    (badModulus (s.nat rm) ∧ modularCommand s rd rm f = .next (s.fail .modulus)) ∨
    (¬badModulus (s.nat rm) ∧ ∃ e, f (s.nat rm) = .error e ∧ modularCommand s rd rm f = .next (s.fail e)) ∨
    (¬badModulus (s.nat rm) ∧ ∃ r, f (s.nat rm) = .ok r ∧
      modularCommand s rd rm f = .next (s.setNat rd r).succeed) := by
  unfold modularCommand checkModulus
  by_cases h : badModulus (s.nat rm)
  · exact .inl ⟨h, by simp only [if_pos h, State.finish_error]⟩
  · simp only [if_neg h]
    cases hf : f (s.nat rm) with
    | error e => exact .inr (.inl ⟨h, e, rfl, rfl⟩)
    | ok r => exact .inr (.inr ⟨h, r, rfl, rfl⟩)

/-- A pair check, passed or not. -/
theorem checkPair_cases {α : Type} (r : RegIdx) (k : Except ErrCode α) :
    (pairOk r = true ∧ checkPair r k = k) ∨ (pairOk r = false ∧ checkPair r k = .error .illegal) := by
  unfold checkPair
  cases h : pairOk r <;> simp

/-- A modulus check, passed or not. -/
theorem checkModulus_cases {α : Type} (m : Nat) (k : Except ErrCode α) :
    (¬badModulus m ∧ checkModulus m k = k) ∨ (badModulus m ∧ checkModulus m k = .error .modulus) := by
  unfold checkModulus
  by_cases h : badModulus m
  · exact .inr ⟨h, if_pos h⟩
  · exact .inl ⟨h, if_neg h⟩

/-- A range check, passed or not. -/
theorem checkRange_cases {α : Type} (p : Nat) (q : Point) (k : Except ErrCode α) :
    (q.x < p ∧ q.y < p ∧ checkRange p q k = k) ∨
    ((p ≤ q.x ∨ p ≤ q.y) ∧ checkRange p q k = .error .range) := by
  unfold checkRange
  by_cases h : q.x ≥ p ∨ q.y ≥ p
  · exact .inr ⟨h, if_pos h⟩
  · exact .inl ⟨by omega, by omega, if_neg h⟩

/-- The write of a point result: the pair written, or the error passed on. -/
theorem State.writePoint_cases (s : State) (rd : RegIdx) (r : Except ErrCode Point) :
    (∃ q, r = .ok q ∧ s.writePoint rd r = .ok (s.setPair rd q)) ∨
    (∃ e, r = .error e ∧ s.writePoint rd r = .error e) := by
  cases r with
  | ok q => exact .inl ⟨q, rfl, rfl⟩
  | error e => exact .inr ⟨e, rfl, rfl⟩

/-- The completion: the decoded command, or ILLEGAL (43_control.md R263). -/
theorem State.complete_cases (s : State) :
    (∃ i, decode s.cmd = .ok i ∧ s.complete = exec i s) ∨
    (∃ e, decode s.cmd = .error e ∧ s.complete = .next (s.fail .illegal)) := by
  unfold State.complete
  cases h : decode s.cmd with
  | ok i => exact .inl ⟨i, rfl, rfl⟩
  | error e => exact .inr ⟨e, rfl, rfl⟩

/-- The engine's turn: the completion while BUSY, nothing while IDLE. -/
theorem State.engineTurn_cases (s : State) :
    (s.status.busy = true ∧ s.engineTurn = s.complete) ∨ (s.status.busy = false ∧ s.engineTurn = .next s) := by
  unfold State.engineTurn
  cases h : s.status.busy <;> simp

/-- One step: a turn of the engine, a host transaction, or the reset input (43_control.md R260). -/
theorem step_cases (s : State) :
    (s.inputs = [] ∧ step s = s.engineTurn) ∨
    (∃ rest, s.inputs = .engine :: rest ∧ step s = (s.taken rest).engineTurn) ∨
    (∃ t rest, s.inputs = .host t :: rest ∧ step s = .next ((s.taken rest).transact t)) ∨
    (∃ rest, s.inputs = .reset :: rest ∧ step s = .next (s.taken rest).doReset) := by
  unfold step
  cases h : s.inputs with
  | nil => exact .inl ⟨rfl, rfl⟩
  | cons e rest =>
    cases e with
    | engine => exact .inr (.inl ⟨rest, rfl, rfl⟩)
    | host t => exact .inr (.inr (.inl ⟨t, rest, rfl, rfl⟩))
    | reset => exact .inr (.inr (.inr ⟨rest, rfl, rfl⟩))

/-- A host transaction: answered without effect, a read, or a write (20_memory.md R61 to R64). -/
theorem State.transact_cases (s : State) (t : Transaction) :
    (∃ r, s.transact t = { s with resp := some r } ∧ (r = .notDecoded ∨ r = .busError)) ∨
    (∃ off, accessOk off .w32 = true ∧ t = .read (.window off) .w32 ∧ s.transact t = s.hostRead off) ∨
    (∃ off w, accessOk off .w32 = true ∧ t = .write (.window off) .w32 w ∧ s.transact t = s.hostWrite off w) := by
  cases t with
  | read a width =>
    cases a with
    | outside a => exact .inl ⟨_, rfl, .inl rfl⟩
    | window off =>
      by_cases h : accessOk off width = true
      · have hw : width = .w32 := by cases width <;> simp [accessOk] at h ⊢
        subst hw
        exact .inr (.inl ⟨off, h, rfl, by simp [State.transact, h]⟩)
      · exact .inl ⟨.busError, by simp [State.transact, h], .inr rfl⟩
  | write a width w =>
    cases a with
    | outside a => exact .inl ⟨_, rfl, .inl rfl⟩
    | window off =>
      by_cases h : accessOk off width = true
      · have hw : width = .w32 := by cases width <;> simp [accessOk] at h ⊢
        subst hw
        exact .inr (.inr ⟨off, w, h, rfl, by simp [State.transact, h]⟩)
      · exact .inl ⟨.busError, by simp [State.transact, h], .inr rfl⟩

/-- A host read changes only the model's answer and draw counter (20_memory.md R73). -/
theorem State.hostRead_frame (s : State) (off : BitVec 12) :
    ∃ r d, s.hostRead off = { s with resp := r, draws := d } := by
  simp only [State.hostRead]
  split
  · exact ⟨_, _, rfl⟩
  · exact ⟨_, s.draws, rfl⟩

/-- A host write: CTRL, STATUS, dropped with OVR, or its effect in phase IDLE (43_control.md R273). -/
theorem State.writeWord_cases (s : State) (off : BitVec 12) (w : Word) :
    (regionOf off = .ctrl ∧ s.writeWord off w = s.writeCtrl w) ∨
    (regionOf off = .status ∧ s.writeWord off w = { s with status := s.status.w1c w }) ∨
    (regionOf off ≠ .ctrl ∧ regionOf off ≠ .status ∧ s.status.busy = true ∧
      s.writeWord off w = { s with status := s.status.overrun }) ∨
    (regionOf off ≠ .ctrl ∧ regionOf off ≠ .status ∧ s.status.busy = false ∧
      s.writeWord off w = s.writeIdle w (regionOf off)) := by
  unfold State.writeWord
  cases regionOf off <;> cases s.status.busy <;> simp

end Sys2Proof.Machine
end

