-- ==== Sys2Proof/Tests/Slice0.lean ====
section
/-! SUPPORT. The model's own tests. Expected words and results come from spec/95_test_vectors.md unless
a comment says otherwise; after them, a witness for the hypotheses of every statement that has some. -/

namespace Sys2Proof.Tests

-- one theorem after another: in parallel their threads' stacks reach the memory limit
set_option Elab.async false

open Sys2Proof.Machine Sys2Proof.Safety

/-! ## Helpers -/

/-- The reset state with some operand registers written. -/
def regs (l : List (RegIdx × Nat)) : State := l.foldl (fun s c => s.setNat c.1 c.2) State.reset

/-- The same state with IBUF[0..] and ILEN. -/
def withIbuf (s : State) (bs : List Nat) : State :=
  { s with
    mem := Memory.setBytes [] ibufBase (bs.map (BitVec.ofNat 8))
    ilen := BitVec.ofNat 16 bs.length }

/-- The same state on another curve. -/
def onCurve (p a b : Nat) (s : State) : State :=
  { s with curve := { s.curve with p := BitVec.ofNat 256 p, a := BitVec.ofNat 256 a, b := BitVec.ofNat 256 b } }

/-- The toy curve of 95_test_vectors.md section 5. -/
def toy (s : State) : State := onCurve 17 2 2 s

/-- The same state with the events to come. -/
def coming (s : State) (es : List Event) : State := { s with inputs := es }

/-- The same state with a command in flight. -/
def inFlight (w : Word) (s : State) : State := s.issue w

/-- The next state of an outcome; of a stop, the reset state. -/
def nextOf : Result → State
  | .next t => t
  | .fault _ => State.reset
  | .refused _ => State.reset

/-- The state after a command. -/
def after (i : Instr) (s : State) : State := nextOf (exec i s)

/-- What a command answers is a next state. -/
theorem exec_after (i : Instr) (s : State) : exec i s = .next (after i s) := by
  rcases exec_cases i s with ⟨t, h⟩ | ⟨e, h⟩ <;> simp [after, nextOf, h]

/-- The first bytes of OBUF, as numbers. -/
def outBytes (s : State) : List Nat := (List.range s.olen.toNat).map fun j => (s.obuf j).toNat

/-- The ASCII codes of a text. -/
def ascii (t : String) : List Nat := t.toList.map Char.toNat

/-- The STATUS word. -/
def statusOf (s : State) : Nat := s.status.word.toNat

/-! ## Well-formed commands: each pair field refuses an odd number (30_encoding.md R96) -/

theorem test_wf_pdbl_rd : (Instr.pdbl 3#4 0#4).wf = false := by decide
theorem test_wf_pdbl_rs1 : (Instr.pdbl 0#4 3#4).wf = false := by decide
theorem test_wf_padd_rd : (Instr.padd 1#4 0#4 2#4).wf = false := by decide
theorem test_wf_padd_rs1 : (Instr.padd 0#4 1#4 2#4).wf = false := by decide
theorem test_wf_padd_rs2 : (Instr.padd 0#4 2#4 15#4).wf = false := by decide
theorem test_wf_pmul_rd : (Instr.pmul 5#4 0#4 1#4).wf = false := by decide
theorem test_wf_pmul_rs1 : (Instr.pmul 0#4 5#4 1#4).wf = false := by decide
theorem test_wf_pval_rs1 : (Instr.pval 1#4).wf = false := by decide
theorem test_wf_pdecomp_rd : (Instr.pdecomp 7#4 0#4 true).wf = false := by decide
theorem test_wf_ploadg_rd : (Instr.ploadg 1#4).wf = false := by decide
theorem test_wf_sec1dec_rd : (Instr.sec1dec 9#4).wf = false := by decide
theorem test_wf_sec1enc_rs1 : (Instr.sec1enc 11#4 false).wf = false := by decide
/-- The scalar's register of PMUL and the register of x of PDECOMP may be odd. -/
theorem test_wf_single : (Instr.pmul 0#4 2#4 5#4).wf = true ∧ (Instr.pdecomp 0#4 5#4 true).wf = true := by
  decide

/-! ## Decoding: the words of 95_test_vectors.md section 8.1 -/

theorem test_decode_nop : decode 0x00000000#32 = .ok .nop := by decide
theorem test_decode_modadd : decode 0x00321010#32 = .ok (.modadd 0#4 1#4 2#4 3#4) := by decide
theorem test_decode_modsub : decode 0x00321011#32 = .ok (.modsub 0#4 1#4 2#4 3#4) := by decide
theorem test_decode_modmul : decode 0x00211312#32 = .ok (.modmul 3#4 1#4 1#4 2#4) := by decide
theorem test_decode_modred : decode 0x00301013#32 = .ok (.modred 0#4 1#4 3#4) := by decide
theorem test_decode_modexp : decode 0x00321014#32 = .ok (.modexp 0#4 1#4 2#4 3#4) := by decide
theorem test_decode_modinv : decode 0x00204515#32 = .ok (.modinv 5#4 4#4 2#4) := by decide
theorem test_decode_modsqrt : decode 0x00200116#32 = .ok (.modsqrt 1#4 0#4 2#4) := by decide
theorem test_decode_pdbl : decode 0x00008A20#32 = .ok (.pdbl 10#4 8#4) := by decide
theorem test_decode_padd : decode 0x00088A21#32 = .ok (.padd 10#4 8#4 8#4) := by decide
theorem test_decode_pmul : decode 0x000C8A22#32 = .ok (.pmul 10#4 8#4 12#4) := by decide
theorem test_decode_pval : decode 0x00002023#32 = .ok (.pval 2#4) := by decide
theorem test_decode_pdecomp : decode 0x01006824#32 = .ok (.pdecomp 8#4 6#4 true) := by decide
theorem test_decode_ploadg : decode 0x00000025#32 = .ok (.ploadg 0#4) := by decide
theorem test_decode_secpload : decode 0x00000026#32 = .ok .secpload := by decide
theorem test_decode_sec1dec : decode 0x00000028#32 = .ok (.sec1dec 0#4) := by decide
theorem test_decode_sec1enc : decode 0x01002029#32 = .ok (.sec1enc 2#4 true) := by decide
theorem test_decode_sec1enc_uncomp : decode 0x00000029#32 = .ok (.sec1enc 0#4 false) := by decide
theorem test_decode_b58enc : decode 0x00000030#32 = .ok .b58enc := by decide
theorem test_decode_b58dec : decode 0x00000031#32 = .ok .b58dec := by decide
theorem test_decode_bech32enc : decode 0x00000032#32 = .ok .bech32enc := by decide
theorem test_decode_bchmod : decode 0x00000533#32 = .ok (.bchmod 5#4) := by decide
theorem test_illegal_odd_pair : decode 0x00000320#32 = .error .oddPair := by decide
theorem test_illegal_op : decode 0x00000027#32 = .error (.unassignedOp 0x27#8) := by decide
theorem test_illegal_flag : decode 0x02000029#32 = .error .reservedFlag := by decide
theorem test_illegal_rs2 : decode 0x00010013#32 = .error .nonzeroField := by decide
theorem test_illegal_rd : decode 0x00000130#32 = .error .nonzeroField := by decide

/-! ## One command each -/

theorem test_nop : statusOf (after .nop State.reset) = 2 := by decide +kernel
theorem test_modadd :
    (after (.modadd 0#4 1#4 2#4 3#4) (regs [(1, 50), (2, 60), (3, 97)])).nat 0#4 = 13 := by decide +kernel
/-- Operand aliasing, section 3: V0 = 50, V1 = 97 gives V0 = 3. -/
theorem test_modadd_alias :
    (after (.modadd 0#4 0#4 0#4 1#4) (regs [(0, 50), (1, 97)])).nat 0#4 = 3 := by decide +kernel
theorem test_modsub :
    (after (.modsub 0#4 1#4 2#4 3#4) (regs [(1, 3), (2, 5), (3, 97)])).nat 0#4 = 95 := by decide +kernel
theorem test_modsub_borrow :
    (after (.modsub 0#4 1#4 2#4 3#4) (regs [(2, 1), (3, 2 ^ 256 - 1)])).nat 0#4 = 2 ^ 256 - 2 := by
  decide +kernel
theorem test_modmul :
    (after (.modmul 0#4 1#4 2#4 3#4) (regs [(1, 50), (2, 60), (3, 97)])).nat 0#4 = 90 := by decide +kernel
theorem test_modmul_even :
    statusOf (after (.modmul 0#4 1#4 2#4 3#4) (regs [(1, 50), (2, 60), (3, 96)])) = 0x504 := by
  decide +kernel
theorem test_modred :
    (after (.modred 0#4 1#4 3#4) (regs [(1, 1000), (3, 97)])).nat 0#4 = 30 := by decide +kernel
theorem test_modexp :
    (after (.modexp 0#4 1#4 2#4 3#4) (regs [(1, 3), (2, 200), (3, 97)])).nat 0#4 = 62 := by decide +kernel
theorem test_modexp_zero :
    (after (.modexp 0#4 1#4 2#4 3#4) (regs [(3, 97)])).nat 0#4 = 1 := by decide +kernel
theorem test_modinv_composite :
    (after (.modinv 0#4 1#4 2#4) (regs [(1, 7), (2, 15)])).nat 0#4 = 13 := by decide +kernel
theorem test_modinv_none :
    statusOf (after (.modinv 0#4 1#4 2#4) (regs [(1, 97), (2, 97)])) = 0x404 := by decide +kernel
theorem test_modsqrt_tonelli :
    (after (.modsqrt 1#4 0#4 2#4) (regs [(0, 5), (2, 41)])).nat 1#4 = 28 := by decide +kernel
theorem test_modsqrt_composite :
    statusOf (after (.modsqrt 1#4 0#4 2#4) (regs [(0, 4), (2, 15)])) = 0x604 := by decide +kernel
theorem test_pdbl :
    (after (.pdbl 10#4 8#4) (regs [(8, secpGx.toNat), (9, secpGy.toNat)])).pair 10#4 =
      ⟨0xC6047F9441ED7D6D3045406E95C07CD85C778E4B8CEF3CA7ABAC09B95C709EE5,
       0x1AE168FEA63DC339A3C58419466CEAEEF7F632653266D0E1236431A950CFE52A⟩ := by decide +kernel
theorem test_pdbl_vertical :
    statusOf (after (.pdbl 10#4 8#4) (toy (regs [(8, 3)]))) = 0x404 := by decide +kernel
theorem test_padd :
    (after (.padd 4#4 0#4 2#4) (toy (regs [(0, 6), (1, 3), (2, 5), (3, 1)]))).pair 4#4 = ⟨10, 6⟩ := by
  decide +kernel
theorem test_padd_negative :
    statusOf (after (.padd 4#4 0#4 2#4) (toy (regs [(0, 5), (1, 1), (2, 5), (3, 16)]))) = 0x404 := by
  decide +kernel
theorem test_pmul :
    (after (.pmul 2#4 0#4 4#4) (toy (regs [(0, 5), (1, 1), (4, 18)]))).pair 2#4 = ⟨5, 16⟩ := by
  decide +kernel
theorem test_pmul_order :
    statusOf (after (.pmul 2#4 0#4 4#4) (toy (regs [(0, 5), (1, 1), (4, 19)]))) = 0x404 := by
  decide +kernel
theorem test_pval :
    statusOf (after (.pval 0#4) (toy (regs [(0, 5), (1, 1)]))) = 0x12 := by decide +kernel
/-- A coordinate out of range, x = 22 ≡ 5 (mod 17), is no point (41_ecc.md R186). -/
theorem test_pval_range :
    statusOf (after (.pval 0#4) (toy (regs [(0, 22), (1, 1)]))) = 2 := by decide +kernel
theorem test_pdecomp_odd :
    (after (.pdecomp 2#4 0#4 true) (toy (regs [(0, 3)]))).pair 2#4 = ⟨3, 1⟩ := by decide +kernel
theorem test_pdecomp_zero :
    (after (.pdecomp 2#4 0#4 true) (onCurve 17 0 16 (regs [(0, 1)]))).pair 2#4 = ⟨1, 0⟩ := by
  decide +kernel
theorem test_ploadg : (after (.ploadg 0#4) State.reset).nat 1#4 = secpGy.toNat := by decide +kernel
theorem test_secpload : (after .secpload (toy State.reset)).curve.p.toNat = 2 ^ 256 - 2 ^ 32 - 977 := by
  decide +kernel
/-- Key K2 of section 1.1. -/
theorem test_sec1dec :
    (after (.sec1dec 0#4) (withIbuf State.reset
      [0x03, 0x2e, 0xfa, 0x8e, 0x58, 0xec, 0x3d, 0x1e, 0x78, 0xcd, 0xa6, 0xd2, 0xe1, 0x9e, 0x0e, 0xbc, 0x44,
       0x0d, 0xe5, 0x13, 0x11, 0xf6, 0x00, 0x23, 0xc0, 0x4f, 0x2a, 0xad, 0x34, 0x1e, 0xe8, 0xc1, 0xfa])).nat
      1#4 = 0x624BB646C586A7D7CE7E3EE3D283B9C029729503EAF3120793A25C019329C2D5 := by decide +kernel
/-- A bad tag is FORMAT whatever the length (41_ecc.md R197). -/
theorem test_sec1dec_tag :
    statusOf (after (.sec1dec 0#4) (withIbuf State.reset [0x05, 0x00])) = 0x304 := by decide +kernel
theorem test_sec1enc :
    outBytes (after (.sec1enc 0#4 true) (regs [(0, secpGx.toNat), (1, secpGy.toNat)])) =
      [0x02, 0x79, 0xBE, 0x66, 0x7E, 0xF9, 0xDC, 0xBB, 0xAC, 0x55, 0xA0, 0x62, 0x95, 0xCE, 0x87, 0x0B, 0x07,
       0x02, 0x9B, 0xFC, 0xDB, 0x2D, 0xCE, 0x28, 0xD9, 0x59, 0xF2, 0x81, 0x5B, 0x16, 0xF8, 0x17, 0x98] := by
  decide +kernel
theorem test_sec1enc_uncomp :
    (outBytes (after (.sec1enc 0#4 false) (regs [(0, 1), (1, 2)]))).getLast? = some 2 := by decide +kernel
theorem test_b58enc :
    outBytes (after .b58enc (withIbuf State.reset (ascii "Hello World!"))) = ascii "2NEpo7TZRRrLZSi2U" := by
  decide +kernel
theorem test_b58enc_zeros :
    outBytes (after .b58enc (withIbuf State.reset [0, 0, 1, 2])) = ascii "115T" := by decide +kernel
theorem test_b58dec :
    outBytes (after .b58dec (withIbuf State.reset (ascii "1z1"))) = [0x00, 0x0C, 0xEA] := by decide +kernel
theorem test_b58dec_format :
    statusOf (after .b58dec (withIbuf State.reset (ascii "abc0"))) = 0x304 := by decide +kernel
theorem test_bech32enc :
    outBytes (after .bech32enc { withIbuf State.reset (ascii "bc" ++ [0x00]) with hlen := 2#16, ilen := 1#16 }) =
      ascii "bc1qqsa7s0f" := by decide +kernel
theorem test_bech32enc_length :
    statusOf (after .bech32enc { State.reset with hlen := 0xFFFF#16, ilen := 1#16 }) = 0x204 := by
  decide +kernel
theorem test_bchmod :
    (after (.bchmod 5#4) (withIbuf State.reset [31, 31, 31, 31, 31, 31, 31])).nat 5#4 = 0x34E587D2 := by
  decide +kernel
theorem test_bchmod_format :
    statusOf (after (.bchmod 5#4) (withIbuf State.reset [3, 0, 0x20])) = 0x304 := by decide +kernel

/-! ## The bus and the steps (95_test_vectors.md section 8.2) -/

theorem test_step_runs_the_word :
    statusOf (nextOf (step (State.reset.withFetchWord 32 0x00000025))) = 2 ∧
    (nextOf (step (State.reset.withFetchWord 32 0x00000025))).nat 0#4 = secpGx.toNat := by decide +kernel
theorem test_step_illegal_word :
    statusOf (nextOf (step (State.reset.withFetchWord 32 0x00000320))) = 0x104 := by decide +kernel
theorem test_decodeTableWord : decodeTableWord 32 0x00321010 = some (.modadd 0#4 1#4 2#4 3#4) := by decide
theorem test_read_id :
    (nextOf (step (coming State.reset [busRead 0x000#12]))).resp = some (.data 0x42570001#32) := by
  decide +kernel
theorem test_read_curve_p :
    (nextOf (step (coming State.reset [busRead 0x040#12]))).resp = some (.data 0xFFFFFC2F#32) := by
  decide +kernel
theorem test_misaligned :
    (nextOf (step (coming State.reset [busRead 0x402#12]))).resp = some .busError := by decide +kernel
theorem test_ibuf_lanes :
    (List.range 4).map (fun j =>
      ((nextOf (step (coming State.reset [busWrite 0x400#12 0x02010000#32]))).ibuf j).toNat) = [0, 0, 1, 2] := by
  decide +kernel
theorem test_busy_write_sets_ovr :
    statusOf (nextOf (step (coming (inFlight 0#32 State.reset) [busWrite 0x100#12 5#32]))) = 9 := by
  decide +kernel
theorem test_busy_reset :
    statusOf (nextOf (step (coming (inFlight 0x26#32 State.reset) [busWrite 0x004#12 3#32]))) = 0 ∧
    (nextOf (step (coming (inFlight 0x26#32 State.reset) [busWrite 0x004#12 3#32]))).ie = false := by
  decide +kernel

/-! ## Witnesses: the hypotheses of each statement, met together -/

theorem witness_DecodeOfEncodeIsIdentity : (Instr.padd 10#4 8#4 2#4).wf = true := by decide +kernel

theorem witness_EncodeOfDecodeIsIdentity : decode 0x01006824#32 = .ok (.pdecomp 8#4 6#4 true) := by decide +kernel

theorem witness_DecodeFollowsMatchAndMask :
    0x01006824#32 &&& (matchMask .pdecomp).2 = (matchMask .pdecomp).1 := by decide +kernel

theorem witness_StepRunsTheDecodedCommand :
    let s := inFlight 0x00000025#32 State.reset
    s.status.busy = true ∧ decode s.cmd = .ok (.ploadg 0#4) ∧ s.inputs = [] ∧
      (coming s [.engine]).inputs = .engine :: [] := by decide +kernel

theorem witness_WritesOfCmdIlenHlenWhileIdle :
    ∀ off, (coming State.reset [busWrite off 0x10005#32]).inputs = busWrite off 0x10005#32 :: [] ∧
      (coming State.reset [busWrite off 0x10005#32]).status.busy = false := fun _ => ⟨rfl, rfl⟩

theorem witness_IllegalWordCompletesWithIllegal :
    let s := coming State.reset [busWrite 0x00C#12 0x320#32, .engine]
    s.status.busy = false ∧ decode 0x320#32 = .error .oddPair ∧
      s.inputs = busWrite 0x00C#12 0x320#32 :: .engine :: [] := by decide +kernel

/-- A CTRL write that keeps SRST 0 meets the last hypothesis at its boundary. -/
theorem witness_TransactionsWhileBusyKeepTheSnapshot :
    let s := coming (inFlight 0#32 State.reset) [busWrite 0x004#12 1#32]
    s.status.busy = true ∧ s.inputs = .host (.write (.window 0x004#12) .w32 1#32) :: [] ∧
      ∀ w, Transaction.write (.window 0x004#12) .w32 1#32 = .write (.window 0x004#12) .w32 w →
        w.getLsbD 1 = false := by
  refine ⟨by decide, by decide +kernel, ?_⟩
  intro w h
  cases h
  decide

theorem witness_WriteWhileBusyIsDropped :
    (∀ o ∈ [0x000, 0x00C, 0x01C, 0xFFC],
      let off := BitVec.ofNat 12 o
      off.toNat % 4 = 0 ∧ off ≠ 0x004#12 ∧ off ≠ 0x008#12) ∧
    ∀ off, (coming (inFlight 0#32 State.reset) [busWrite off 1#32]).inputs = busWrite off 1#32 :: [] ∧
      (coming (inFlight 0#32 State.reset) [busWrite off 1#32]).status.busy = true :=
  ⟨by decide, fun _ => ⟨rfl, rfl⟩⟩

theorem witness_inv_inFlight (w : Word) (es : List Event) : Inv (coming (inFlight w State.reset) es) := by
  constructor <;> simp [coming, inFlight, State.issue, Status.issued, State.reset, Memory.wf]

theorem witness_StatusWriteOnlyClears :
    let s := coming (inFlight 0#32 State.reset) [busWrite 0x008#12 14#32]
    s.inputs = busWrite 0x008#12 14#32 :: [] ∧ Inv s ∧ s.status.busy = true :=
  ⟨by decide +kernel, witness_inv_inFlight _ _, by decide⟩

theorem witness_BothResetsGiveTheResetState :
    (coming State.reset [.reset]).inputs = .reset :: [] ∧
    (coming State.reset [busWrite 0x004#12 3#32]).inputs = busWrite 0x004#12 3#32 :: [] ∧
      (3#32).getLsbD 1 = true ∧
    (coming State.reset [busWrite 0x004#12 1#32]).inputs = busWrite 0x004#12 1#32 :: [] ∧
      (1#32).getLsbD 1 = false := by decide +kernel

theorem witness_EveryStepKeepsTheInvariant :
    ∃ s t, Inv s ∧ step s = .next t ∧ s.status.busy = true := by
  refine ⟨coming (inFlight 0x25#32 State.reset) [.engine], _, witness_inv_inFlight _ _, rfl, by decide⟩

theorem witness_BusErrorChangesNothing :
    ((0x402#12).toNat % 4 ≠ 0 ∧ (0xFFF#12).toNat % 4 ≠ 0 ∧ Width.w64 ≠ .w32) ∧
    (coming State.reset [.host (.read (.window 0x402#12) .w32)]).inputs =
      .host (.read (.window 0x402#12) .w32) :: [] ∧
    (coming State.reset [.host (.write (.window 0x400#12) .w64 1#32)]).inputs =
      .host (.write (.window 0x400#12) .w64 1#32) :: [] := ⟨by decide, rfl, rfl⟩

/-- The ends of each reserved range, and of the read-only registers. -/
theorem witness_ReservedAndReadOnlyOffsets :
    (∀ o ∈ [0x01C, 0x03C, 0x300, 0x3FC, 0x500, 0x7FC, 0xA00, 0xFFC], let off := BitVec.ofNat 12 o;
      off.toNat % 4 = 0 ∧
      ((0x01C ≤ off.toNat ∧ off.toNat < 0x040) ∨ (0x300 ≤ off.toNat ∧ off.toNat < 0x400) ∨
        (0x500 ≤ off.toNat ∧ off.toNat < 0x800) ∨ 0xA00 ≤ off.toNat)) ∧
    (∀ o ∈ [0x000, 0x018, 0x800, 0x9FC], let off := BitVec.ofNat 12 o;
      off.toNat % 4 = 0 ∧
      (off.toNat = 0x000 ∨ off.toNat = 0x018 ∨ (0x800 ≤ off.toNat ∧ off.toNat < 0xA00))) ∧
    (∀ off, (coming State.reset [busRead off]).inputs = busRead off :: []) ∧
    (∀ off, (coming State.reset [busWrite off 5#32]).inputs = busWrite off 5#32 :: [] ∧
      (coming State.reset [busWrite off 5#32]).status.busy = false) :=
  ⟨by decide, by decide, fun _ => rfl, fun _ => ⟨rfl, rfl⟩⟩

/-- The first and last word of V0, V15, CURVE.P and CURVE.GY. -/
theorem witness_WordsOf256BitRegisters :
    (∀ c ∈ [(0x100, 0#4, (0 : Fin 8)), (0x11C, 0#4, 7), (0x2E0, 15#4, 0), (0x2FC, 15#4, 7)],
      (BitVec.ofNat 12 c.1).toNat = 0x100 + 32 * c.2.1.toNat + 4 * c.2.2.val) ∧
    (∀ c ∈ [(0x040, CurveReg.p, (0 : Fin 8)), (0x0FC, .gy, 7)],
      (BitVec.ofNat 12 c.1).toNat = curveBase c.2.1 + 4 * c.2.2.val) ∧
    (∀ off, (coming State.reset [busRead off]).inputs = busRead off :: [] ∧
      (coming State.reset [busRead off]).status.busy = false) ∧
    (∀ off, (coming State.reset [busWrite off 1#32]).inputs = busWrite off 1#32 :: [] ∧
      (coming State.reset [busWrite off 1#32]).status.busy = false) :=
  ⟨by decide, by decide, fun _ => ⟨rfl, rfl⟩, fun _ => ⟨rfl, rfl⟩⟩

theorem witness_reset_mem_wf : State.reset.mem.wf := by simp [State.reset, Memory.wf]

/-- The first and last word of each buffer. -/
theorem witness_ByteLanesOfTheBuffers :
    (∀ c ∈ [(0x400, 0), (0x4FC, 63)], c.2 < 64 ∧ (BitVec.ofNat 12 c.1).toNat = 0x400 + 4 * c.2) ∧
    (∀ c ∈ [(0x800, 0), (0x9FC, 127)], c.2 < 128 ∧ (BitVec.ofNat 12 c.1).toNat = 0x800 + 4 * c.2) ∧
    (∀ off, (coming State.reset [busRead off]).inputs = busRead off :: []) ∧
    (∀ off, (coming State.reset [busWrite off 1#32]).inputs = busWrite off 1#32 :: []) ∧
    State.reset.mem.wf ∧ State.reset.status.busy = false :=
  ⟨by decide, by decide, fun _ => rfl, fun _ => rfl, witness_reset_mem_wf, rfl⟩

theorem witness_ReadsInBothPhases :
    (∀ o ∈ [0x000, 0x004, 0x008, 0x00C, 0x010, 0x014, 0x018, 0x040, 0x2FC, 0x400, 0x4FC, 0x800, 0x9FC],
      let off := BitVec.ofNat 12 o; off.toNat % 4 = 0) ∧
    (∀ o ∈ [0x040, 0x2FC, 0x400, 0x4FC, 0x800, 0x9FC], let off := BitVec.ofNat 12 o;
      (0x040 ≤ off.toNat ∧ off.toNat < 0x300) ∨ (0x400 ≤ off.toNat ∧ off.toNat < 0x500) ∨
        (0x800 ≤ off.toNat ∧ off.toNat < 0xA00)) ∧
    ∀ off, ((coming (inFlight 0#32 State.reset) [busRead off]).inputs = busRead off :: [] ∧
        (coming (inFlight 0#32 State.reset) [busRead off]).status.busy = true) ∧
      ((coming State.reset [busRead off]).inputs = busRead off :: [] ∧
        (coming State.reset [busRead off]).status.busy = false) :=
  ⟨by decide, by decide, fun _ => ⟨⟨rfl, rfl⟩, rfl, rfl⟩⟩

theorem witness_InterruptFollowsItsFlags :
    let done := after .nop { State.reset with ie := true }
    (done.status.done = true ∧ done.irq = true) ∧
    ((coming done [busWrite 0x004#12 1#32]).inputs = busWrite 0x004#12 1#32 :: [] ∧
      (1#32).getLsbD 0 = true ∧ (1#32).getLsbD 1 = false) ∧
    ((coming done [busWrite 0x008#12 6#32]).inputs = busWrite 0x008#12 6#32 :: [] ∧
      (6#32).getLsbD 1 = true ∧ (6#32).getLsbD 2 = true) ∧
    (done.status.busy = false ∧
      (coming done [busWrite 0x00C#12 0#32]).inputs = busWrite 0x00C#12 0#32 :: []) ∧
    ((coming done [busWrite 0x004#12 0#32]).inputs = busWrite 0x004#12 0#32 :: [] ∧
      (0#32).getLsbD 0 = false) ∧
    (coming done [.reset]).inputs = .reset :: [] := by decide +kernel

theorem witness_OddPairsRaiseIllegal : (Instr.padd 0#4 2#4 15#4).wf = false := by decide +kernel

/-- An error from a state with DONE and ERR clear. -/
theorem witness_ErrorWritesNothing :
    ∃ i s t, s.status.done = false ∧ s.status.err = false ∧ exec i s = .next t ∧ t.status.err = true :=
  ⟨.modinv 0#4 1#4 2#4, regs [(2, 97)], _, by decide +kernel, by decide +kernel, exec_after _ _, by decide +kernel⟩

theorem witness_CompletionSetsExactlyOneFlag :
    ∃ i s t, s.status.done = false ∧ s.status.err = false ∧ exec i s = .next t ∧ t.status.done = true :=
  ⟨.ploadg 0#4, State.reset, _, by decide, by decide, exec_after _ _, by decide +kernel⟩

theorem witness_CommandsWriteOnlyTheirDestinations :
    ∃ i s t, exec i s = .next t ∧ i ≠ .secpload ∧ producesBytes i = false ∧ (∀ r, i ≠ .pval r) ∧
      (4#4 : RegIdx) ∉ destRegs i ∧ t.status.done = true :=
  ⟨.ploadg 2#4, State.reset, _, exec_after _ _, by decide, by decide, by decide, by decide, by decide +kernel⟩

theorem witness_CommandsWriteOnlyObufBelowOlen :
    ∃ s t, s.mem.wf ∧ exec (.sec1enc 0#4 true) s = .next t ∧ t.olen = 33#16 :=
  ⟨State.reset, _, witness_reset_mem_wf, exec_after _ _, by decide +kernel⟩

/-- Two states that agree on the operands and differ elsewhere: OLEN, PRED and IE the same or not. -/
theorem witness_ResultDependsOnlyOnTheSnapshot :
    (∃ (i : Instr) (s s' t : State), s.v = s'.v ∧ s.curve = s'.curve ∧ s.ilen = s'.ilen ∧ s.hlen = s'.hlen ∧
      s.mem = s'.mem ∧ s.epoch = s'.epoch ∧ exec i s = .next t ∧ s.olen = s'.olen ∧
      s.status.pred = s'.status.pred ∧ s.ie ≠ s'.ie) ∧
    (∃ (i : Instr) (s s' t : State), s.v = s'.v ∧ s.curve = s'.curve ∧ s.ilen = s'.ilen ∧ s.hlen = s'.hlen ∧
      s.mem = s'.mem ∧ s.epoch = s'.epoch ∧ exec i s = .next t ∧ t.status.errcode = 0#4 ∧
      producesBytes i = true ∧ s.olen ≠ s'.olen) ∧
    (∃ (i : Instr) (s s' t : State), s.v = s'.v ∧ s.curve = s'.curve ∧ s.ilen = s'.ilen ∧ s.hlen = s'.hlen ∧
      s.mem = s'.mem ∧ s.epoch = s'.epoch ∧ exec i s = .next t ∧ t.status.errcode = 0#4 ∧
      (∃ r, i = .pval r) ∧ s.status.pred ≠ s'.status.pred) :=
  ⟨⟨.ploadg 2#4, State.reset, { State.reset with ie := true }, _, rfl, rfl, rfl, rfl, rfl, rfl,
      exec_after _ _, rfl, rfl, by decide⟩,
    ⟨.sec1enc 2#4 true, State.reset, { State.reset with olen := 9#16 }, _, rfl, rfl, rfl, rfl, rfl, rfl,
      exec_after _ _, by decide +kernel, rfl, by decide⟩,
    ⟨.pval 2#4, State.reset, { State.reset with status := { State.reset.status with pred := true } }, _,
      rfl, rfl, rfl, rfl, rfl, rfl, exec_after _ _, by decide +kernel, ⟨_, rfl⟩, by decide⟩⟩

/-- The smallest modulus the unit takes, 3. -/
theorem witness_ModularResultsAreExactResidues :
    3 ≤ (regs [(3, 3)]).nat 3#4 ∧ (regs [(3, 3)]).nat 3#4 % 2 = 1 := by decide +kernel

/-- The moduli 2 and 96. -/
theorem witness_ModularUnitChecksItsModulus :
    (regs [(3, 2)]).nat 3#4 < 3 ∧ (regs [(3, 96)]).nat 3#4 % 2 = 0 := by decide +kernel

theorem witness_ModexpIsTheExactPower :
    3 ≤ (regs [(3, 97)]).nat 3#4 ∧ (regs [(3, 97)]).nat 3#4 % 2 = 1 := by decide +kernel

theorem witness_ModinvWritesTheInverse :
    let s := regs [(0, 7), (1, 5), (2, 15)]
    3 ≤ s.nat 2#4 ∧ s.nat 2#4 % 2 = 1 ∧ Nat.gcd (s.nat 0#4) (s.nat 2#4) = 1 ∧
      Nat.gcd (s.nat 1#4) (s.nat 2#4) ≠ 1 := by decide +kernel

theorem witness_ModsqrtResultSquaresBack :
    ∃ s t, s.status.done = false ∧ exec (.modsqrt 1#4 0#4 2#4) s = .next t ∧ t.status.done = true :=
  ⟨regs [(0, 5), (2, 41)], _, by decide +kernel, exec_after _ _, by decide +kernel⟩

/-- A residue without a root among 0..m-1 has none at all. -/
theorem no_root (m a : Nat) (hm : 0 < m) (h : ∀ r < m, r * r % m ≠ a) : ¬∃ x : Nat, x * x % m = a := by
  rintro ⟨x, hx⟩
  exact h (x % m) (Nat.mod_lt _ hm) (by rw [← Nat.mul_mod, hx])

/-- 17 ≡ 1 (mod 4), with the non-residue 3. -/
theorem hasRootFinder_17 : HasRootFinder 17 :=
  ⟨by norm_num, .inr ⟨rfl, 3, by decide, by decide, by decide, no_root 17 3 (by decide) (by decide)⟩⟩

/-- m = 11, with the square 5 and the non-square 2. -/
theorem witness_ModsqrtClosedFormBranch :
    let s := regs [(0, 5), (1, 2), (2, 11)]
    Nat.Prime (s.nat 2#4) ∧ s.nat 2#4 % 4 = 3 ∧ (∃ x : Nat, x * x % s.nat 2#4 = s.nat 0#4 % s.nat 2#4) ∧
      ¬∃ x : Nat, x * x % s.nat 2#4 = s.nat 1#4 % s.nat 2#4 := by
  have h : (regs [(0, 5), (1, 2), (2, 11)]).nat 2#4 = 11 := by decide +kernel
  have h0 : (regs [(0, 5), (1, 2), (2, 11)]).nat 0#4 = 5 := by decide +kernel
  have h1 : (regs [(0, 5), (1, 2), (2, 11)]).nat 1#4 = 2 := by decide +kernel
  simp only [h, h0, h1]
  exact ⟨by norm_num, by decide, ⟨4, rfl⟩, no_root 11 2 (by decide) (by decide)⟩

/-- m = 41, with the square 5 and the non-square 3, and 3 the non-residue. -/
theorem witness_ModsqrtTonelliShanksBranch :
    let s := regs [(0, 5), (1, 3), (2, 41)]
    Nat.Prime (s.nat 2#4) ∧ s.nat 2#4 % 4 = 1 ∧
      (∃ z : Nat, 2 ≤ z ∧ z < s.nat 2#4 ∧ z < 65536 ∧ ¬∃ x : Nat, x * x % s.nat 2#4 = z) ∧
      (∃ x : Nat, x * x % s.nat 2#4 = s.nat 0#4 % s.nat 2#4) ∧
      ¬∃ x : Nat, x * x % s.nat 2#4 = s.nat 1#4 % s.nat 2#4 := by
  have h : (regs [(0, 5), (1, 3), (2, 41)]).nat 2#4 = 41 := by decide +kernel
  have h0 : (regs [(0, 5), (1, 3), (2, 41)]).nat 0#4 = 5 := by decide +kernel
  have h1 : (regs [(0, 5), (1, 3), (2, 41)]).nat 1#4 = 3 := by decide +kernel
  simp only [h, h0, h1]
  have n3 : ¬∃ x : Nat, x * x % 41 = 3 := no_root 41 3 (by decide) (by decide)
  exact ⟨by norm_num, by decide, ⟨3, by decide, by decide, by decide, n3⟩, ⟨28, rfl⟩, n3⟩

/-- (5, 1) doubles; y = 0 does not. -/
theorem witness_PdblWritesTheTangentPoint :
    let s := toy (regs [(0, 5), (1, 1), (2, 5)])
    pairOk 4#4 = true ∧ pairOk 0#4 = true ∧ pairOk 2#4 = true ∧ 3 ≤ s.curve.p.toNat ∧ s.curve.p.toNat % 2 = 1 ∧
      (s.nat 0#4 < s.curve.p.toNat ∧ s.nat (0#4 + 1#4) < s.curve.p.toNat ∧
        Nat.gcd (2 * s.nat (0#4 + 1#4)) s.curve.p.toNat = 1) ∧
      (s.nat 2#4 < s.curve.p.toNat ∧ s.nat (2#4 + 1#4) < s.curve.p.toNat ∧
        Nat.gcd (2 * s.nat (2#4 + 1#4)) s.curve.p.toNat ≠ 1) := by decide +kernel

/-- VP0 = VP2 = (5, 1), VP4 = (6, 3), VP6 = (5, 16), each clause's pair with VP0; the bound p - 1 = 16. -/
theorem witness_PaddWritesTheChordPoint :
    let s := toy (regs [(0, 5), (1, 1), (2, 5), (3, 1), (4, 6), (5, 3), (6, 5), (7, 16)])
    pairOk 0#4 = true ∧ pairOk 2#4 = true ∧ pairOk 4#4 = true ∧ pairOk 6#4 = true ∧
      3 ≤ s.curve.p.toNat ∧ s.curve.p.toNat % 2 = 1 ∧
      (∀ r ∈ [0#4, 2#4, 4#4, 6#4], (s.pair r).x < s.curve.p.toNat ∧ (s.pair r).y < s.curve.p.toNat) ∧
      s.pair 0#4 = s.pair 2#4 ∧
      (s.pair 0#4 ≠ s.pair 4#4 ∧ Int.gcd (((s.pair 0#4).x : Int) - (s.pair 4#4).x) s.curve.p.toNat = 1) ∧
      (s.pair 0#4 ≠ s.pair 6#4 ∧ Int.gcd (((s.pair 0#4).x : Int) - (s.pair 6#4).x) s.curve.p.toNat ≠ 1) := by
  decide +kernel

theorem witness_DegeneratePointsRaiseNoinv :
    let s := toy (regs [(0, 5), (1, 1), (2, 5), (3, 16), (4, 3)])
    pairOk 0#4 = true ∧ pairOk 2#4 = true ∧ pairOk 4#4 = true ∧ 3 ≤ s.curve.p.toNat ∧ s.curve.p.toNat % 2 = 1 ∧
      ((s.pair 4#4).x < s.curve.p.toNat ∧ (s.pair 4#4).y < s.curve.p.toNat ∧ (s.pair 4#4).y = 0) ∧
      ((s.pair 0#4).x < s.curve.p.toNat ∧ (s.pair 0#4).y < s.curve.p.toNat ∧ (s.pair 0#4).y ≠ 0 ∧
        (s.pair 2#4).x = (s.pair 0#4).x ∧
        (s.pair 2#4).y = (s.curve.p.toNat - (s.pair 0#4).y) % s.curve.p.toNat) := by decide +kernel

/-- A prime of 16, with a key of each shape in IBUF; and the prime 17 with the coordinate 17. -/
theorem witness_PointCommandsCheckPrimeAndRange :
    pairOk 0#4 = true ∧ pairOk 2#4 = true ∧ (onCurve 16 2 2 State.reset).curve.p.toNat % 2 = 0 ∧
      (let s := onCurve 16 2 2 (withIbuf State.reset (0x04 :: List.replicate 64 0))
       s.curve.p.toNat % 2 = 0 ∧ s.ilen = 65#16 ∧ s.ibuf 0 = 0x04#8) ∧
      (let s := onCurve 2 2 2 (withIbuf State.reset (0x03 :: List.replicate 32 0))
       s.curve.p.toNat < 3 ∧ s.ilen = 33#16 ∧ s.ibuf 0 = 0x03#8) ∧
      (let s := toy (regs [(0, 17), (1, 1)])
       3 ≤ s.curve.p.toNat ∧ s.curve.p.toNat % 2 = 1 ∧ s.curve.p.toNat ≤ (s.pair 0#4).x) := by
  decide +kernel

/-- On the toy curve 2·(5, 1) = (6, 3): λ = (3·25 + 2)·(2·1)⁻¹ = 9·9 = 13. -/
theorem witness_tangent : Doubles 17 2 ⟨5, 1⟩ ⟨6, 3⟩ :=
  ⟨by decide, by decide, by decide, 13, by decide, by decide, by decide⟩

/-- Double-and-add starts from k = 1. -/
theorem multiplies_pos {p a k : Nat} {q r : Point} (h : Multiplies p a q k r) : 1 ≤ k := by
  induction h <;> omega

/-- It gives the point itself for k = 1. -/
theorem multiplies_one {p a k : Nat} {q r : Point} (h : Multiplies p a q k r) (hk : k = 1) : r = q := by
  cases h with
  | one => rfl
  | even h' _ => omega
  | odd h' _ _ => have := multiplies_pos h'; omega

/-- A point that does not double has no multiple for k = 2. -/
theorem not_double {p a k : Nat} {q r : Point} (hq : Nat.gcd (2 * q.y) p ≠ 1) (h : Multiplies p a q k r)
    (hk : k = 2) : False := by
  cases h with
  | one => omega
  | even h' d => exact hq (multiplies_one h' (by omega) ▸ d.1)
  | odd _ _ _ => omega

/-- A multiple that exists (k = 2), one that does not (k = 2 for y = 0), k = 0 and k = 1. -/
theorem witness_PmulComputesTheMultiple :
    let s := toy (regs [(0, 5), (1, 1), (2, 3), (6, 2), (7, 1)])
    (pairOk 4#4 = true ∧ pairOk 0#4 = true ∧ pairOk 2#4 = true ∧ 3 ≤ s.curve.p.toNat ∧
      s.curve.p.toNat % 2 = 1 ∧
      ∀ r ∈ [0#4, 2#4], (s.pair r).x < s.curve.p.toNat ∧ (s.pair r).y < s.curve.p.toNat) ∧
    Multiplies s.curve.p.toNat s.curve.a.toNat (s.pair 0#4) (s.nat 6#4) ⟨6, 3⟩ ∧
    (1 ≤ s.nat 6#4 ∧
      ¬∃ r : Point, Multiplies s.curve.p.toNat s.curve.a.toNat (s.pair 2#4) (s.nat 6#4) r) ∧
    s.nat 8#4 = 0 ∧ s.nat 7#4 = 1 := by
  have h2 : (toy (regs [(0, 5), (1, 1), (2, 3), (6, 2), (7, 1)])).pair 0#4 = ⟨5, 1⟩ := by decide +kernel
  have h3 : (toy (regs [(0, 5), (1, 1), (2, 3), (6, 2), (7, 1)])).pair 2#4 = ⟨3, 0⟩ := by decide +kernel
  have hk : (toy (regs [(0, 5), (1, 1), (2, 3), (6, 2), (7, 1)])).nat 6#4 = 2 := by decide +kernel
  have hp : (toy (regs [(0, 5), (1, 1), (2, 3), (6, 2), (7, 1)])).curve.p.toNat = 17 := by decide +kernel
  have ha : (toy (regs [(0, 5), (1, 1), (2, 3), (6, 2), (7, 1)])).curve.a.toNat = 2 := by decide +kernel
  refine ⟨by decide +kernel, ?_, ⟨by decide +kernel, ?_⟩, by decide +kernel, by decide +kernel⟩
  · simp only [h2, hk, hp, ha]
    exact .even (k := 1) .one witness_tangent
  · simp only [h3, hk, hp, ha]
    rintro ⟨r, h⟩
    exact not_double (by decide) h rfl

/-- (5, 1) lies on the toy curve. -/
theorem witness_toy_point (s : State) (h : s.curve.p.toNat = 17) (ha : s.curve.a.toNat = 2)
    (hb : s.curve.b.toNat = 2) : OnCurve s.curve ⟨5, 1⟩ := by
  simp [OnCurve, h, ha, hb]

theorem witness_PmulStaysOnTheCurve :
    ∃ s t, pairOk 2#4 = true ∧ pairOk 0#4 = true ∧ s.status.done = false ∧ OnCurve s.curve (s.pair 0#4) ∧
      exec (.pmul 2#4 0#4 4#4) s = .next t ∧ t.status.done = true := by
  refine ⟨toy (regs [(0, 5), (1, 1), (4, 18)]), _, by decide, by decide, by decide +kernel, ?_, exec_after _ _,
    by decide +kernel⟩
  have h : (toy (regs [(0, 5), (1, 1), (4, 18)])).pair 0#4 = ⟨5, 1⟩ := by decide +kernel
  exact h ▸ witness_toy_point _ (by decide +kernel) (by decide +kernel) (by decide +kernel)

theorem witness_PvalReportsMembership :
    pairOk 0#4 = true ∧ 3 ≤ (toy State.reset).curve.p.toNat ∧ (toy State.reset).curve.p.toNat % 2 = 1 := by
  decide +kernel

theorem witness_PdecompNeverLeavesTheCurve :
    ∃ s t, pairOk 2#4 = true ∧ s.status.done = false ∧ exec (.pdecomp 2#4 0#4 true) s = .next t ∧
      t.status.done = true :=
  ⟨toy (regs [(0, 3)]), _, by decide, by decide +kernel, exec_after _ _, by decide +kernel⟩

/-- y² = x³ + 2x + 2 mod 11: x = 1 has the root 4 of 5, x = 0 has no root of 2, x = 11 is out of range. -/
theorem witness_PdecompFindsThePoint :
    let s := onCurve 11 2 2 (regs [(0, 1), (2, 11)])
    pairOk 4#4 = true ∧ HasRootFinder s.curve.p.toNat ∧
      (∃ y : Nat, OnCurve s.curve ⟨s.nat 0#4, y⟩) ∧
      (s.nat 1#4 < s.curve.p.toNat ∧ ¬∃ y : Nat, OnCurve s.curve ⟨s.nat 1#4, y⟩) ∧
      s.curve.p.toNat ≤ s.nat 2#4 := by
  have hp : (onCurve 11 2 2 (regs [(0, 1), (2, 11)])).curve.p.toNat = 11 := by decide +kernel
  have ha : (onCurve 11 2 2 (regs [(0, 1), (2, 11)])).curve.a.toNat = 2 := by decide +kernel
  have hb : (onCurve 11 2 2 (regs [(0, 1), (2, 11)])).curve.b.toNat = 2 := by decide +kernel
  have h0 : (onCurve 11 2 2 (regs [(0, 1), (2, 11)])).nat 0#4 = 1 := by decide +kernel
  have h1 : (onCurve 11 2 2 (regs [(0, 1), (2, 11)])).nat 1#4 = 0 := by decide +kernel
  have h2 : (onCurve 11 2 2 (regs [(0, 1), (2, 11)])).nat 2#4 = 11 := by decide +kernel
  simp only [OnCurve, hp, ha, hb, h0, h1, h2]
  refine ⟨by decide, ⟨by norm_num, .inl rfl⟩, ⟨4, by decide, by decide, by decide⟩, ⟨by decide, ?_⟩, le_refl _⟩
  rintro ⟨y, -, -, h⟩
  exact no_root 11 2 (by decide) (by decide) ⟨y, h⟩

/-- The other branch: 17 ≡ 1 (mod 4), with the non-residue 3. On the toy curve x = 3 has the root 1 of 1,
x = 1 has no root of 5, x = 17 is out of range. -/
theorem witness_PdecompFindsThePoint_tonelli :
    let s := toy (regs [(0, 3), (1, 1), (2, 17)])
    pairOk 4#4 = true ∧ HasRootFinder s.curve.p.toNat ∧
      (∃ y : Nat, OnCurve s.curve ⟨s.nat 0#4, y⟩) ∧
      (s.nat 1#4 < s.curve.p.toNat ∧ ¬∃ y : Nat, OnCurve s.curve ⟨s.nat 1#4, y⟩) ∧
      s.curve.p.toNat ≤ s.nat 2#4 := by
  have hp : (toy (regs [(0, 3), (1, 1), (2, 17)])).curve.p.toNat = 17 := by decide +kernel
  have ha : (toy (regs [(0, 3), (1, 1), (2, 17)])).curve.a.toNat = 2 := by decide +kernel
  have hb : (toy (regs [(0, 3), (1, 1), (2, 17)])).curve.b.toNat = 2 := by decide +kernel
  have h0 : (toy (regs [(0, 3), (1, 1), (2, 17)])).nat 0#4 = 3 := by decide +kernel
  have h1 : (toy (regs [(0, 3), (1, 1), (2, 17)])).nat 1#4 = 1 := by decide +kernel
  have h2 : (toy (regs [(0, 3), (1, 1), (2, 17)])).nat 2#4 = 17 := by decide +kernel
  simp only [OnCurve, hp, ha, hb, h0, h1, h2]
  refine ⟨by decide, hasRootFinder_17, ⟨1, by decide, by decide, by decide⟩, ⟨by decide, ?_⟩, le_refl _⟩
  rintro ⟨y, -, -, h⟩
  exact no_root 17 5 (by decide) (by decide) ⟨y, h⟩

theorem witness_GeneratorAndCurveLoads : pairOk 14#4 = true := by decide +kernel

/-- The uncompressed key of (5, 1), and of (17, 1), on the toy curve. -/
def toyKey (x : Nat) : State :=
  toy (withIbuf State.reset (0x04 :: (List.replicate 31 0 ++ [x] ++ List.replicate 31 0 ++ [1])))

theorem witness_Sec1decOfAnUncompressedKey :
    (∀ x ∈ [5, 17], (toyKey x).ilen = 65#16 ∧ (toyKey x).ibuf 0 = 0x04#8 ∧ 3 ≤ (toyKey x).curve.p.toNat ∧
      (toyKey x).curve.p.toNat % 2 = 1) ∧ pairOk 0#4 = true ∧
    (beValue (fun i => (toyKey 5).ibuf (1 + i)) 32 < (toyKey 5).curve.p.toNat ∧
      beValue (fun i => (toyKey 5).ibuf (33 + i)) 32 < (toyKey 5).curve.p.toNat) ∧
    (toyKey 17).curve.p.toNat ≤ beValue (fun i => (toyKey 17).ibuf (1 + i)) 32 := by
  simp only [beValue]
  decide +kernel

/-- The compressed keys of x = 3, which a register holds, and of x = 1 (no root) and x = 17 (out of
range), odd, on the toy curve. -/
theorem witness_Sec1decOfACompressedKeyIsPdecomp :
    (∀ x ∈ [3, 1, 17],
      let s := toy (withIbuf (regs [(5, 3)]) (0x03 :: (List.replicate 31 0 ++ [x])))
      s.ilen = 33#16 ∧ s.ibuf 0 = 0x03#8) ∧
    (let s := toy (withIbuf (regs [(5, 3)]) (0x03 :: (List.replicate 31 0 ++ [3])))
     s.nat 5#4 = beValue (fun i => s.ibuf (1 + i)) 32) := by
  simp only [beValue]
  decide +kernel

/-- A length of 0 and of 257; a bad tag; a tag 0x04 with 33 bytes; a tag 0x02 with 65. -/
theorem witness_Sec1decChecksItsKeyInOrder :
    pairOk 0#4 = true ∧ State.reset.ilen.toNat = 0 ∧
    256 < ({ State.reset with ilen := 257#16 } : State).ilen.toNat ∧
    (let s := withIbuf State.reset (List.replicate 256 0x05)
     1 ≤ s.ilen.toNat ∧ s.ilen.toNat ≤ 256 ∧ s.ibuf 0 ≠ 0x02#8 ∧ s.ibuf 0 ≠ 0x03#8 ∧ s.ibuf 0 ≠ 0x04#8) ∧
    (let s := withIbuf State.reset [0x04]
     1 ≤ s.ilen.toNat ∧ s.ilen.toNat ≤ 256 ∧ s.ibuf 0 = 0x04#8 ∧ s.ilen.toNat ≠ 65) ∧
    (let s := withIbuf State.reset [0x02]
     1 ≤ s.ilen.toNat ∧ s.ilen.toNat ≤ 256 ∧ s.ibuf 0 = 0x02#8 ∧ s.ilen.toNat ≠ 33) := by
  decide +kernel

theorem witness_Sec1encWritesTheKey : pairOk 14#4 = true ∧ State.reset.mem.wf :=
  ⟨by decide, witness_reset_mem_wf⟩

/-- The key of (5, 1) on the curve y² = x³ + 2x + 9 mod 19, uncompressed and compressed: 125 + 10 + 9 =
144 = 12², so the point is (5, 12). -/
theorem witness_Sec1KeyRoundTrip (compressed : Bool) :
    ∃ s t u : State, pairOk 2#4 = true ∧ pairOk 0#4 = true ∧ s.mem.wf ∧
      exec (.sec1enc 0#4 compressed) s = .next t ∧ u.curve = s.curve ∧ u.ilen = t.olen ∧
      (∀ j < t.olen.toNat, u.ibuf j = t.obuf j) ∧
      ((compressed = false ∧ 3 ≤ s.curve.p.toNat ∧ s.curve.p.toNat % 2 = 1 ∧
          (s.pair 0#4).x < s.curve.p.toNat ∧ (s.pair 0#4).y < s.curve.p.toNat) ∨
        (compressed = true ∧ HasRootFinder s.curve.p.toNat ∧ OnCurve s.curve (s.pair 0#4))) := by
  have hp : (onCurve 19 2 9 (regs [(0, 5), (1, 12)])).curve.p.toNat = 19 := by decide +kernel
  have ha : (onCurve 19 2 9 (regs [(0, 5), (1, 12)])).curve.a.toNat = 2 := by decide +kernel
  have hb : (onCurve 19 2 9 (regs [(0, 5), (1, 12)])).curve.b.toNat = 9 := by decide +kernel
  have hq : (onCurve 19 2 9 (regs [(0, 5), (1, 12)])).pair 0#4 = ⟨5, 12⟩ := by decide +kernel
  have hm : (onCurve 19 2 9 (regs [(0, 5), (1, 12)])).mem.wf := by decide +kernel
  refine ⟨onCurve 19 2 9 (regs [(0, 5), (1, 12)]), _,
    onCurve 19 2 9 (withIbuf State.reset
      (outBytes (after (.sec1enc 0#4 compressed) (onCurve 19 2 9 (regs [(0, 5), (1, 12)]))))),
    by decide, by decide, hm, exec_after _ _, rfl, ?_, ?_, ?_⟩
  · cases compressed <;> decide +kernel
  · cases compressed <;> decide +kernel
  · simp only [OnCurve, hp, ha, hb, hq]
    cases compressed
    · exact .inl ⟨rfl, by decide, by decide, by decide, by decide⟩
    · exact .inr ⟨rfl, ⟨by norm_num, .inl rfl⟩, by decide, by decide, by decide⟩

/-- The compressed key of (5, 1) on the toy curve, whose prime is ≡ 1 (mod 4). -/
theorem witness_Sec1KeyRoundTrip_tonelli :
    ∃ s t u : State, pairOk 2#4 = true ∧ pairOk 0#4 = true ∧ s.mem.wf ∧
      exec (.sec1enc 0#4 true) s = .next t ∧ u.curve = s.curve ∧ u.ilen = t.olen ∧
      (∀ j < t.olen.toNat, u.ibuf j = t.obuf j) ∧ HasRootFinder s.curve.p.toNat ∧
      OnCurve s.curve (s.pair 0#4) := by
  have hp : (toy (regs [(0, 5), (1, 1)])).curve.p.toNat = 17 := by decide +kernel
  have hq : (toy (regs [(0, 5), (1, 1)])).pair 0#4 = ⟨5, 1⟩ := by decide +kernel
  exact ⟨toy (regs [(0, 5), (1, 1)]), _,
    toy (withIbuf State.reset (outBytes (after (.sec1enc 0#4 true) (toy (regs [(0, 5), (1, 1)]))))),
    by decide, by decide, by decide +kernel, exec_after _ _, rfl, by decide +kernel, by decide +kernel,
    hp ▸ hasRootFinder_17, hq ▸ witness_toy_point _ hp (by decide +kernel) (by decide +kernel)⟩

theorem witness_CodecsCheckTheirLengths :
    256 < ({ State.reset with ilen := 257#16 } : State).ilen.toNat ∧ pairOk 0#4 = true ∧
    (let s : State := { State.reset with hlen := 0xFFFF#16, ilen := 1#16 }
     256 < s.hlen.toNat + s.ilen.toNat) := by decide +kernel

theorem witness_B58encWritesTheDigits :
    let s : State := { State.reset with ilen := 256#16 }
    s.mem.wf ∧ s.ilen.toNat ≤ 256 := ⟨witness_reset_mem_wf, by decide⟩

/-- The text "1z1", and the text "1 ". -/
theorem witness_B58decWritesTheBytes :
    (let s := withIbuf State.reset (ascii "1z1")
     s.mem.wf ∧ s.ilen.toNat ≤ 256 ∧
       ∀ j < s.ilen.toNat, [0, 57, 0].getD j 0 < 58 ∧ b58Char ([0, 57, 0].getD j 0) = s.ibuf j) ∧
    (let s := withIbuf State.reset (ascii "1 ")
     s.mem.wf ∧ s.ilen.toNat ≤ 256 ∧ 1 < s.ilen.toNat ∧ ∀ i < 58, b58Char i ≠ s.ibuf 1) := by
  decide +kernel

theorem witness_Base58RoundTrip :
    (∃ s t u : State, s.mem.wf ∧ u.mem.wf ∧ s.ilen.toNat ≤ 256 ∧ exec .b58enc s = .next t ∧
      t.olen.toNat ≤ 256 ∧ u.ilen = t.olen ∧ (∀ j < t.olen.toNat, u.ibuf j = t.obuf j) ∧ 0 < s.ilen.toNat) ∧
    (∃ s t u : State, s.mem.wf ∧ u.mem.wf ∧ s.status.done = false ∧ exec .b58dec s = .next t ∧
      t.status.done = true ∧ u.ilen = t.olen ∧ (∀ j < t.olen.toNat, u.ibuf j = t.obuf j) ∧ 0 < s.ilen.toNat) :=
  ⟨⟨withIbuf State.reset [0, 0, 1, 2], _, withIbuf State.reset (ascii "115T"), by decide +kernel,
      by decide +kernel, by decide +kernel, exec_after _ _, by decide +kernel, by decide +kernel,
      by decide +kernel, by decide +kernel⟩,
    ⟨withIbuf State.reset (ascii "115T"), _, withIbuf State.reset [0, 0, 1, 2], by decide +kernel,
      by decide +kernel, by decide +kernel, exec_after _ _, by decide +kernel, by decide +kernel,
      by decide +kernel, by decide +kernel⟩⟩

theorem witness_Bech32encOutputVerifies :
    let s : State := { State.reset with hlen := 1#16, ilen := 255#16 }
    s.mem.wf ∧ s.hlen.toNat + s.ilen.toNat ≤ 256 := ⟨witness_reset_mem_wf, by decide⟩

/-- Symbols all below 32, the last at the bound 31; and a byte at the bound 32. -/
theorem witness_BchmodRunsTheRegister :
    (let s := withIbuf State.reset [3, 0, 31]
     s.ilen.toNat ≤ 256 ∧ ∀ j < s.ilen.toNat, (s.ibuf j).toNat < 32) ∧
    (let s := withIbuf State.reset [3, 0, 32]
     s.ilen.toNat ≤ 256 ∧ 2 < s.ilen.toNat ∧ 32 ≤ (s.ibuf 2).toNat) := by decide +kernel

end Sys2Proof.Tests
end

section
/-! SUPPORT. The bus layer: what a host transaction does in phase IDLE, where the address map puts the
words of the registers and of the buffers, and what a word write leaves of what it falls into
(20_memory.md sections 2 and 3). -/

namespace Sys2Proof.Machine

open Sys2Proof.Safety

/-! One access in phase IDLE (43_control.md R273) -/

/-- A 32-bit access is taken exactly at the multiples of 4 (20_memory.md R62, R63). -/
theorem accessOk_w32_iff (off : BitVec 12) : accessOk off .w32 = true ↔ off.toNat % 4 = 0 := by
  have hlow : off.extractLsb' 0 2 = 0#2 ↔ off.toNat % 4 = 0 := by
    rw [← BitVec.toNat_inj, BitVec.extractLsb'_toNat]
    simp
  simpa [accessOk] using hlow

/-- No location's word depends on the events still to come. -/
@[simp] theorem State.readRegion_taken (s : State) (rest : List Event) (r : Region) :
    (s.taken rest).readRegion r = s.readRegion r := by
  cases r <;> rfl

/-- A read while IDLE answers the location's word and changes nothing else (20_memory.md R73). -/
theorem step_busRead_of_idle {s : State} {off : BitVec 12} {rest : List Event} (hidle : s.status.busy = false)
    (halign : off.toNat % 4 = 0) (hin : s.inputs = busRead off :: rest) :
    step s = .next { s with inputs := rest, resp := some (.data (s.readRegion (regionOf off))) } := by
  have hread : (s.taken rest).hostRead off =
      { s.taken rest with resp := some (.data (s.readRegion (regionOf off))) } := by
    simp [State.hostRead, hidle]
  simp only [step, hin, busRead, State.transact, (accessOk_w32_iff off).2 halign, if_true, hread]
  rfl

/-- A write while IDLE, but to CTRL or STATUS, has its location's effect and answers success
(20_memory.md R65). -/
theorem step_busWrite_of_idle {s : State} {off : BitVec 12} {w : Word} {rest : List Event}
    (hidle : s.status.busy = false) (halign : off.toNat % 4 = 0) (hctrl : regionOf off ≠ .ctrl)
    (hstatus : regionOf off ≠ .status) (hin : s.inputs = busWrite off w :: rest) :
    step s = .next { (s.taken rest).writeIdle w (regionOf off) with resp := some .ok } := by
  have hwrite : (s.taken rest).writeWord off w = (s.taken rest).writeIdle w (regionOf off) := by
    rcases (s.taken rest).writeWord_cases off w with ⟨h, -⟩ | ⟨h, -⟩ | ⟨-, -, hbusy, -⟩ | ⟨-, -, -, h⟩
    · exact absurd h hctrl
    · exact absurd h hstatus
    · simp [hidle] at hbusy
    · exact h
  simp only [step, hin, busWrite, State.transact, (accessOk_w32_iff off).2 halign, if_true, State.hostWrite, hwrite]

/-! The address map (20_memory.md R66), read from a location to its offset -/

/-- What the map finds at the offsets of the curve bank, V, IBUF and OBUF. -/
theorem regionOf_dataPlane (off : BitVec 12) :
    (0x040 ≤ off.toNat → off.toNat < 0x100 →
      regionOf off = .curve (curveRegAt ((off.toNat - 0x040) / 32)) (Fin.ofNat 8 (off.toNat / 4))) ∧
    (0x100 ≤ off.toNat → off.toNat < 0x300 →
      regionOf off = .v (BitVec.ofNat 4 ((off.toNat - 0x100) / 32)) (Fin.ofNat 8 (off.toNat / 4))) ∧
    (0x400 ≤ off.toNat → off.toNat < 0x500 → regionOf off = .ibuf (off.toNat - 0x400)) ∧
    (0x800 ≤ off.toNat → off.toNat < 0xA00 → regionOf off = .obuf (off.toNat - 0x800)) := by
  unfold regionOf
  dsimp only
  refine ⟨fun hlo hhi => ?_, fun hlo hhi => ?_, fun hlo hhi => ?_, fun hlo hhi => ?_⟩ <;>
  · repeat rw [if_neg (by omega)]
    rw [if_pos hhi]

/-- The word number the map takes from an offset, when the register's base is a multiple of 32. -/
theorem wordIndex_eq {o : Nat} {k : Fin 8} (h : o % 32 = 4 * k.val) : Fin.ofNat 8 (o / 4) = k := by
  apply Fin.ext
  have := k.isLt
  simp only [Fin.ofNat]
  omega

/-- Word k of V[i] stands at 0x100 + 32i + 4k. -/
theorem regionOf_v {off : BitVec 12} {i : RegIdx} {k : Fin 8} (h : off.toNat = 0x100 + 32 * i.toNat + 4 * k.val) :
    regionOf off = .v i k := by
  have hi := i.isLt
  have hk := k.isLt
  obtain ⟨-, hmap, -, -⟩ := regionOf_dataPlane off
  have hreg : (off.toNat - 0x100) / 32 = i.toNat := by omega
  rw [hmap (by omega) (by omega), hreg, BitVec.ofNat_toNat, BitVec.setWidth_eq, wordIndex_eq (k := k) (by omega)]

/-- The registers of the curve bank stand 32 bytes apart, in the order of the map. -/
theorem exists_curveBase_eq (r : CurveReg) : ∃ n < 6, curveBase r = 0x040 + 32 * n ∧ curveRegAt n = r := by
  cases r
  case p => exact ⟨0, by decide, rfl, rfl⟩
  case a => exact ⟨1, by decide, rfl, rfl⟩
  case b => exact ⟨2, by decide, rfl, rfl⟩
  case n => exact ⟨3, by decide, rfl, rfl⟩
  case gx => exact ⟨4, by decide, rfl, rfl⟩
  case gy => exact ⟨5, by decide, rfl, rfl⟩

/-- Word k of a curve-bank register stands at its base + 4k. -/
theorem regionOf_curve {off : BitVec 12} {r : CurveReg} {k : Fin 8} (h : off.toNat = curveBase r + 4 * k.val) :
    regionOf off = .curve r k := by
  obtain ⟨n, hn, hbase, hr⟩ := exists_curveBase_eq r
  have hk := k.isLt
  obtain ⟨hmap, -, -, -⟩ := regionOf_dataPlane off
  have hreg : (off.toNat - 0x040) / 32 = n := by omega
  rw [hmap (by omega) (by omega), hreg, hr, wordIndex_eq (k := k) (by omega)]

/-- IBUF[4q] to IBUF[4q + 3] stand at 0x400 + 4q. -/
theorem regionOf_ibuf {off : BitVec 12} {q : Nat} (hq : q < 64) (h : off.toNat = 0x400 + 4 * q) :
    regionOf off = .ibuf (4 * q) := by
  obtain ⟨-, -, hmap, -⟩ := regionOf_dataPlane off
  rw [hmap (by omega) (by omega), h, Nat.add_sub_cancel_left]

/-- OBUF[4q] to OBUF[4q + 3] stand at 0x800 + 4q. -/
theorem regionOf_obuf {off : BitVec 12} {q : Nat} (hq : q < 128) (h : off.toNat = 0x800 + 4 * q) :
    regionOf off = .obuf (4 * q) := by
  obtain ⟨-, -, -, hmap⟩ := regionOf_dataPlane off
  rw [hmap (by omega) (by omega), h, Nat.add_sub_cancel_left]

/-! Words of a 256-bit register, bit by bit (20_memory.md R67) -/

/-- A write of one word leaves every bit outside that word alone. -/
theorem getLsbD_withWord_of_outside (x : U256) (k : Fin 8) (w : Word) {b : Nat}
    (hb : ¬(32 * k.val ≤ b ∧ b < 32 * k.val + 32)) : (withWord x k w).getLsbD b = x.getLsbD b := by
  by_cases hlt : b < 256
  · have hne : (⟨b / 32, by omega⟩ : Fin 8) ≠ k := fun e => by
      have : b / 32 = k.val := congrArg Fin.val e
      omega
    have hsplit : 32 * (b / 32) + b % 32 = b := Nat.div_add_mod b 32
    have hlane : b % 32 < 32 := Nat.mod_lt b (by decide)
    have hword := congrArg (BitVec.getLsbD · (b % 32)) (wordOf_withWord_of_ne x _ k w hne)
    simpa [wordOf, hsplit, hlane] using hword
  · rw [BitVec.getLsbD_of_ge _ _ (by omega), BitVec.getLsbD_of_ge _ _ (by omega)]

/-! Registers of the curve bank -/

/-- Reading after a write of one curve-bank register: the value written there, as before elsewhere. -/
theorem Curve.get_set (c : Curve) (x : U256) (r q : CurveReg) :
    (c.set x r).get q = if q = r then x else c.get q := by
  cases r <;> cases q <;> rfl

/-! Byte lanes of a buffer word (20_memory.md R68) -/

/-- Byte lane i of a word put together from bytes is byte i: the lower bytes are appended last. -/
theorem wordOfBytes_lane (b0 b1 b2 b3 : Byte) {i : Nat} (hi : i < 4) :
    (wordOfBytes b0 b1 b2 b3).extractLsb' (8 * i) 8 = [b0, b1, b2, b3][i] := by
  unfold wordOfBytes
  interval_cases i
  · exact BitVec.extractLsb'_append_eq_right
  · exact (BitVec.extractLsb'_append_eq_of_le (by decide)).trans BitVec.extractLsb'_append_eq_right
  · exact (BitVec.extractLsb'_append_eq_of_le (by decide)).trans
      ((BitVec.extractLsb'_append_eq_of_le (by decide)).trans BitVec.extractLsb'_append_eq_right)
  · exact (BitVec.extractLsb'_append_eq_of_le (by decide)).trans
      ((BitVec.extractLsb'_append_eq_of_le (by decide)).trans BitVec.extractLsb'_append_eq_left)

/-- Byte lane i of a buffer word is the byte i places above the word's offset. -/
theorem State.bufferWord_lane (s : State) (a : Nat) {i : Nat} (hi : i < 4) :
    (s.bufferWord a).extractLsb' (8 * i) 8 = s.byteAt (a + i) := by
  rw [State.bufferWord, wordOfBytes_lane _ _ _ _ hi]
  interval_cases i <;> rfl

/-- Byte i of a word, least significant first, is its byte lane i. -/
theorem bytesOfWord_getElem (w : Word) {i : Nat} (hi : i < (bytesOfWord w).length) :
    (bytesOfWord w)[i] = w.extractLsb' (8 * i) 8 := by
  have : i < 4 := hi
  interval_cases i <;> rfl

/-- Reading after listing a byte string: its bytes inside, as before outside. -/
theorem State.byteAt_setBytes (s : State) (bs : List Byte) (a b : Nat) (h : s.mem.Pairwise (fun c d => c.1 < d.1)) :
    ({ s with mem := s.mem.setBytes a bs } : State).byteAt b =
      if hb : a ≤ b ∧ b < a + bs.length then bs[b - a]'(by omega) else s.byteAt b := by
  simp only [State.byteAt, Memory.get?_setBytes bs _ _ b h]
  by_cases hb : a ≤ b ∧ b < a + bs.length
  · rw [if_pos hb, dif_pos hb, List.getElem?_eq_getElem (by omega)]
  · rw [if_neg hb, dif_neg hb]

/-- After a word is listed, byte lane i of the word stands i places above its offset. -/
theorem State.byteAt_setWord_inside (s : State) (w : Word) (a : Nat) {i : Nat} (hi : i < 4)
    (h : s.mem.Pairwise (fun c d => c.1 < d.1)) :
    ({ s with mem := s.mem.setBytes a (bytesOfWord w) } : State).byteAt (a + i) = w.extractLsb' (8 * i) 8 := by
  have hin : a ≤ a + i ∧ a + i < a + (bytesOfWord w).length := ⟨by omega, Nat.add_lt_add_left hi a⟩
  rw [State.byteAt_setBytes s _ a _ h, dif_pos hin, bytesOfWord_getElem]
  simp

/-- Listing a word changes no byte outside its four offsets. -/
theorem State.byteAt_setWord_outside (s : State) (w : Word) (a b : Nat) (hb : ¬(a ≤ b ∧ b < a + 4))
    (h : s.mem.Pairwise (fun c d => c.1 < d.1)) :
    ({ s with mem := s.mem.setBytes a (bytesOfWord w) } : State).byteAt b = s.byteAt b := by
  rw [State.byteAt_setBytes s _ a b h, dif_neg (show ¬(a ≤ b ∧ b < a + (bytesOfWord w).length) from hb)]

end Sys2Proof.Machine
end

section
/-! The statements of 20_memory.md section 3: the words of the 256-bit registers and the byte lanes of
the buffers. -/

namespace Sys2Proof.Machine

open Sys2Proof.Safety

/-- Settles O18: the offset is word k of the register by the address map, and what the write does to
that word and to the other bits are the laws of `withWord`. -/
theorem wordsOf256BitRegisters : Obligations.WordsOf256BitRegisters := by
  intro s off k w rest hidle
  refine ⟨fun i hoff => ?_, fun r hoff => ?_⟩
  · have hreg : regionOf off = .v i k := regionOf_v hoff
    have halign : off.toNat % 4 = 0 := by omega
    refine ⟨fun hin => ?_, fun hin => ⟨withWord (s.getV i) k w, ?_, wordOf_withWord_self _ k w,
      fun b => getLsbD_withWord_of_outside _ k w⟩⟩
    · rw [step_busRead_of_idle hidle halign hin, hreg]
      rfl
    · rw [step_busWrite_of_idle hidle halign (by simp [hreg]) (by simp [hreg]) hin, hreg]
      rfl
  · have hreg : regionOf off = .curve r k := regionOf_curve hoff
    have halign : off.toNat % 4 = 0 := by
      obtain ⟨n, -, hbase, -⟩ := exists_curveBase_eq r
      omega
    refine ⟨fun hin => ?_, fun hin => ⟨s.curve.set (withWord (s.curve.get r) k w) r, ?_, ?_, fun b hb => ?_,
      fun r' hne => ?_⟩⟩
    · rw [step_busRead_of_idle hidle halign hin, hreg]
      rfl
    · rw [step_busWrite_of_idle hidle halign (by simp [hreg]) (by simp [hreg]) hin, hreg]
      rfl
    · rw [Curve.get_set, if_pos rfl]
      exact wordOf_withWord_self _ k w
    · rw [Curve.get_set, if_pos rfl, getLsbD_withWord_of_outside _ k w hb]
    · rw [Curve.get_set, if_neg hne]

/-- Settles O19: a read's word is the buffer word, whose lanes are its bytes, and a write lists the
word's four lanes in the memory. -/
theorem byteLanesOfTheBuffers : Obligations.ByteLanesOfTheBuffers := by
  intro s off q w rest ⟨hrising, _⟩ hidle
  refine ⟨fun hq hoff => ?_, fun hq hoff hin => ?_⟩
  · have hreg : regionOf off = .ibuf (4 * q) := regionOf_ibuf hq hoff
    have halign : off.toNat % 4 = 0 := by omega
    refine ⟨fun hin => ⟨s.bufferWord (ibufBase + 4 * q), ?_, fun i hi => ?_⟩,
      fun hin => ⟨s.mem.setBytes (ibufBase + 4 * q) (bytesOfWord w), ?_, fun i hi => ?_, fun a ha => ?_⟩⟩
    · rw [step_busRead_of_idle hidle halign hin, hreg]
      rfl
    · rw [State.bufferWord_lane s _ hi, State.ibuf, Nat.add_assoc]
    · rw [step_busWrite_of_idle hidle halign (by simp [hreg]) (by simp [hreg]) hin, hreg]
      rfl
    · rw [State.ibuf, ← Nat.add_assoc, State.byteAt_setWord_inside s w _ hi hrising]
    · exact State.byteAt_setWord_outside s w _ a ha hrising
  · have hreg : regionOf off = .obuf (4 * q) := regionOf_obuf hq hoff
    refine ⟨s.bufferWord (obufBase + 4 * q), ?_, fun i hi => ?_⟩
    · rw [step_busRead_of_idle hidle (by omega) hin, hreg]
      rfl
    · rw [State.bufferWord_lane s _ hi, State.obuf, Nat.add_assoc]

end Sys2Proof.Machine
end

section
/-! The statements of 30_encoding.md: an illegal word written to CMD is issued like any other, and the
engine's next turn ends it with ILLEGAL. -/

namespace Sys2Proof.Machine

open Sys2Proof.Safety

/-- A run of one step more goes on from the state its first step answers. -/
theorem run_succ_of_step_next {s t : State} (k : Nat) (h : step s = .next t) :
    core.run (k + 1) s = core.run k t := by
  have hcore : core.step s = .next t := h
  simp only [Host.Core.run, hcore]

/-- A write to CMD while IDLE issues its word, whatever the word is (43_control.md R261). -/
theorem step_cmdWrite_of_idle {s : State} {w : Word} {rest : List Event} (hidle : s.status.busy = false)
    (hin : s.inputs = busWrite 0x00C#12 w :: rest) :
    step s = .next { (s.taken rest).issue w with resp := some .ok } := by
  have hreg : regionOf 0x00C#12 = .cmd := rfl
  rw [step_busWrite_of_idle hidle (by decide) (by simp [hreg]) (by simp [hreg]) hin, hreg]
  rfl

/-- The engine's turn ends a word in flight that is no command with ILLEGAL (30_encoding.md R99). -/
theorem step_engine_of_illegal {s : State} {e : Illegal} {rest : List Event} (hbusy : s.status.busy = true)
    (hin : s.inputs = .engine :: rest) (hword : decode s.cmd = .error e) :
    step s = .next ((s.taken rest).fail .illegal) := by
  simp only [step, hin, State.engineTurn, State.taken_status, hbusy, if_true, State.complete, State.taken_cmd,
    hword, State.finish]

/-- Settles O7: the host's write issues the word, which leaves DONE and ERRCODE clear, and the
engine's turn on it is ILLEGAL's entry, which touches STATUS alone. -/
theorem illegalWordCompletesWithIllegal : Obligations.IllegalWordCompletesWithIllegal := by
  intro s w e rest hidle hword hin
  have hissue := step_cmdWrite_of_idle hidle hin
  have hend := step_engine_of_illegal (s := { (s.taken (.engine :: rest)).issue w with resp := some .ok }) rfl rfl hword
  rw [run_succ_of_step_next 1 hissue, run_succ_of_step_next 0 hend]
  rfl

end Sys2Proof.Machine
end

section
/-! The modular unit, said once: how a command of it ends, by its modulus and by what it computes
(40_modarith.md R120, R121, R124). -/

namespace Sys2Proof.Machine

open Sys2Proof.Safety

variable {s : State} {rd rm : RegIdx} {f : Nat → Except ErrCode Nat}

/-- A bad modulus ends a command with MODULUS, whatever it computes. -/
theorem modularCommand_of_badModulus (hm : badModulus (s.nat rm)) :
    modularCommand s rd rm f = .next (ended s 5#4) := by
  rcases modularCommand_cases s rd rm f with ⟨-, h⟩ | ⟨hok, -⟩ | ⟨hok, -⟩
  · exact h
  · exact absurd hm hok
  · exact absurd hm hok

/-- With a good modulus, the computation's error ends the command and nothing is written. -/
theorem modularCommand_of_error {e : ErrCode} (hm : ¬badModulus (s.nat rm)) (hf : f (s.nat rm) = .error e) :
    modularCommand s rd rm f = .next (ended s e.code) := by
  rcases modularCommand_cases s rd rm f with ⟨hbad, -⟩ | ⟨-, e', he', h⟩ | ⟨-, r, hr, -⟩
  · exact absurd hbad hm
  · obtain rfl : e = e' := Except.error.inj (hf.symm.trans he')
    exact h
  · exact absurd (hf.symm.trans hr) (by simp)

/-- With a good modulus, the number computed is written to V[rd] and the command completes. -/
theorem modularCommand_of_ok {r : Nat} (hm : ¬badModulus (s.nat rm)) (hf : f (s.nat rm) = .ok r) :
    modularCommand s rd rm f =
      .next { s with v := s.v.set rd.toNat (BitVec.ofNat 256 r), status := doneStatus s.status } := by
  rcases modularCommand_cases s rd rm f with ⟨hbad, -⟩ | ⟨-, e, he, -⟩ | ⟨-, r', hr', h⟩
  · exact absurd hbad hm
  · exact absurd (hf.symm.trans he) (by simp)
  · obtain rfl : r = r' := Except.ok.inj (hf.symm.trans hr')
    exact h

/-! Each of the seven commands as a command of the unit, with what it computes (43_control.md R274) -/

theorem exec_modadd (rd rs1 rs2 rm : RegIdx) (s : State) :
    exec (.modadd rd rs1 rs2 rm) s = modularCommand s rd rm fun m => .ok ((s.nat rs1 + s.nat rs2) % m) := rfl

theorem exec_modsub (rd rs1 rs2 rm : RegIdx) (s : State) :
    exec (.modsub rd rs1 rs2 rm) s =
      modularCommand s rd rm fun m => .ok (imod ((s.nat rs1 : Int) - (s.nat rs2 : Int)) m) := rfl

theorem exec_modmul (rd rs1 rs2 rm : RegIdx) (s : State) :
    exec (.modmul rd rs1 rs2 rm) s = modularCommand s rd rm fun m => .ok (s.nat rs1 * s.nat rs2 % m) := rfl

theorem exec_modred (rd rs1 rm : RegIdx) (s : State) :
    exec (.modred rd rs1 rm) s = modularCommand s rd rm fun m => .ok (s.nat rs1 % m) := rfl

theorem exec_modexp (rd rs1 rs2 rm : RegIdx) (s : State) :
    exec (.modexp rd rs1 rs2 rm) s = modularCommand s rd rm fun m => .ok (modPow (s.nat rs1) (s.nat rs2) m) := rfl

theorem exec_modinv (rd rs1 rm : RegIdx) (s : State) :
    exec (.modinv rd rs1 rm) s = modularCommand s rd rm (modInv (s.nat rs1)) := rfl

theorem exec_modsqrt (rd rs1 rm : RegIdx) (s : State) :
    exec (.modsqrt rd rs1 rm) s = modularCommand s rd rm (sqrtMod (s.nat rs1)) := rfl

end Sys2Proof.Machine
end

section
/-! The statements of 40_modarith.md: the modulus check and MODINV. -/

namespace Sys2Proof.Machine

open Sys2Proof.Safety

/-- A number has at most one inverse mod m below m, whether m is prime or not (40_modarith.md R137,
R139). -/
theorem modInverse_unique {a m x y : Nat} (hco : Nat.gcd a m = 1) (hx : x < m) (hy : y < m)
    (hax : a * x % m = 1) (hay : a * y % m = 1) : y = x := by
  have hmul : a * y ≡ a * x [MOD m] := hay.trans hax.symm
  have hmod : y ≡ x [MOD m] := Nat.ModEq.cancel_left_of_coprime (Nat.gcd_comm a m ▸ hco) hmul
  exact hmod.eq_of_lt_of_lt hy hx

/-- Settles O33: `modInv_spec` says when MODINV has an inverse to write; it is not 0, whose product
is 0, and coprimality makes it the only one. -/
theorem modinvWritesTheInverse : Obligations.ModinvWritesTheInverse := by
  intro rd rs1 rm s hm3 hodd
  have hm : ¬badModulus (s.nat rm) := by unfold badModulus; omega
  rw [exec_modinv]
  rcases modInv_spec (s.nat rs1) (s.nat rm) (by omega) with ⟨hco, x, hinv, hlt, hax⟩ | ⟨hnot, hinv⟩
  · have hpos : 1 ≤ x := Nat.one_le_iff_ne_zero.2 (by rintro rfl; simp at hax)
    exact ⟨fun _ => ⟨x, hpos, hlt, hax, fun y _ hy hay => modInverse_unique hco hlt hy hax hay,
      modularCommand_of_ok hm hinv⟩, fun hnot => absurd hco hnot⟩
  · exact ⟨fun hco => absurd hco hnot, fun _ => modularCommand_of_error hm hinv⟩

/-- Settles O31: each of the seven commands is a command of the unit, and so checks its modulus
before it computes. -/
theorem modularUnitChecksItsModulus : Obligations.ModularUnitChecksItsModulus := by
  intro rd rs1 rs2 rm s hm
  have hstop (f : Nat → Except ErrCode Nat) : modularCommand s rd rm f = .next (ended s 5#4) :=
    modularCommand_of_badModulus hm
  simp only [exec_modadd, exec_modsub, exec_modmul, exec_modred, exec_modexp, exec_modinv, exec_modsqrt, hstop,
    and_self]

end Sys2Proof.Machine
end

section
/-! The curve equation with the coefficients the point engine uses (41_ecc.md R160, R185, R186). -/

namespace Sys2Proof.Machine

open Sys2Proof.Safety

/-- The point engine reduces the coefficients mod p before it evaluates the curve's right side; that
changes nothing (10_state.md R43). -/
theorem curveRhs_mod_coeffs (p a b x : Nat) : curveRhs p (a % p) (b % p) x = (x * x * x + a * x + b) % p := by
  have hax : a % p * x ≡ a * x [MOD p] := (Nat.mod_modEq a p).mul_right x
  exact (hax.add_left (x * x * x)).add (Nat.mod_modEq b p)

/-- The engine's test of a pair is membership in the curve, coordinates out of range included. -/
theorem State.onCurve_iff (s : State) (q : Point) : s.onCurve q = true ↔ OnCurve s.curve q := by
  have hrhs : curveRhs s.primeP s.coeffA s.coeffB q.x =
      (q.x * q.x * q.x + s.curve.a.toNat * q.x + s.curve.b.toNat) % s.curve.p.toNat :=
    curveRhs_mod_coeffs _ _ _ _
  simp only [State.onCurve, hrhs, Bool.and_eq_true, decide_eq_true_eq, beq_iff_eq, and_assoc]
  rfl

/-- PVAL of an even field, with a good curve prime, completes and writes its test's answer to PRED. -/
theorem exec_pval_of_ok {rs1 : RegIdx} {s : State} (hpair : pairOk rs1 = true) (hp : ¬badModulus s.primeP) :
    exec (.pval rs1) s =
      .next { s with status := { doneStatus s.status with pred := s.onCurve (s.pair rs1) } } := by
  change execPval rs1 s = _
  rw [execPval, checkPair_of _ _ hpair, checkModulus_of _ _ hp, State.finish_ok]
  rfl

/-- Settles O44: PRED is the engine's test of the pair, and the test is membership. -/
theorem pvalReportsMembership : Obligations.PvalReportsMembership := by
  intro rs1 s hpair hp3 hodd
  have hp : ¬badModulus s.primeP := by unfold badModulus State.primeP; omega
  exact ⟨s.onCurve (s.pair rs1), s.onCurve_iff (s.pair rs1), exec_pval_of_ok hpair hp⟩

end Sys2Proof.Machine
end

section
/-! The length check of the codec commands and of SEC1DEC, said once and then per command
(42_codec.md R222). -/

namespace Sys2Proof.Machine

open Sys2Proof.Safety

variable {s : State} {n : Nat} {rd : RegIdx}

/-- A length above IBUF's size ends a command with LENGTH and writes nothing, whatever stands behind
the check (42_codec.md R222, 43_control.md R264). -/
theorem finish_lengthCheck_of_tooLong (k : Except ErrCode State) (h : ibufSize < n) :
    s.finish (if n > ibufSize then .error .length else k) = .next (ended s 2#4) := by
  rw [if_pos h, State.finish_error]
  rfl

theorem exec_b58enc_of_tooLong (h : ibufSize < s.ilen.toNat) : exec .b58enc s = .next (ended s 2#4) :=
  finish_lengthCheck_of_tooLong _ h

theorem exec_b58dec_of_tooLong (h : ibufSize < s.ilen.toNat) : exec .b58dec s = .next (ended s 2#4) :=
  finish_lengthCheck_of_tooLong _ h

/-- The two lengths are added as integers, so the sum does not wrap at 2^16 (42_codec.md R222). -/
theorem exec_bech32enc_of_tooLong (h : ibufSize < s.hlen.toNat + s.ilen.toNat) :
    exec .bech32enc s = .next (ended s 2#4) :=
  finish_lengthCheck_of_tooLong _ h

theorem exec_bchmod_of_tooLong (h : ibufSize < s.ilen.toNat) : exec (.bchmod rd) s = .next (ended s 2#4) :=
  finish_lengthCheck_of_tooLong _ h

/-- Only ILLEGAL comes before the length check of SEC1DEC (41_ecc.md R197). -/
theorem exec_sec1dec_of_tooLong (hpair : pairOk rd = true) (h : ibufSize < s.ilen.toNat) :
    exec (.sec1dec rd) s = .next (ended s 2#4) := by
  change execSec1dec rd s = _
  rw [execSec1dec, checkPair_of _ _ hpair]
  exact finish_lengthCheck_of_tooLong _ h

end Sys2Proof.Machine
end

section
/-! The statement of 42_codec.md section 1 about lengths. -/

namespace Sys2Proof.Machine

open Sys2Proof.Safety

/-- Settles O54: each of the five commands makes the one length check before it reads the buffer. -/
theorem codecsCheckTheirLengths : Obligations.CodecsCheckTheirLengths := by
  intro rd s
  refine ⟨fun hlong => ⟨?_, ?_, ?_, fun hpair => ?_⟩, fun hlong => ?_⟩
  · exact exec_b58enc_of_tooLong hlong
  · exact exec_b58dec_of_tooLong hlong
  · exact exec_bchmod_of_tooLong hlong
  · exact exec_sec1dec_of_tooLong hpair hlong
  · exact exec_bech32enc_of_tooLong hlong

end Sys2Proof.Machine
end

section
/-! The statement of 70_reset_and_hazards.md section 3 about writes: while BUSY one outside CTRL and
STATUS is dropped, and OVR is the trace of it (R331). -/

namespace Sys2Proof.Machine

open Sys2Proof.Safety

/-- CTRL stands at 0x004 and nowhere else: no other row of the map gives it (20_memory.md R66). -/
theorem regionOf_eq_ctrl_iff (off : BitVec 12) : regionOf off = .ctrl ↔ off = 0x004#12 := by
  simp only [regionOf, ite_eq_iff, reduceCtorEq, and_false, and_true, or_false, false_or]
  bv_omega

/-- STATUS stands at 0x008 and nowhere else (20_memory.md R66). -/
theorem regionOf_eq_status_iff (off : BitVec 12) : regionOf off = .status ↔ off = 0x008#12 := by
  simp only [regionOf, ite_eq_iff, reduceCtorEq, and_false, and_true, or_false, false_or]
  bv_omega

/-- A word written while BUSY, but to CTRL or STATUS, is dropped: it only sets OVR. -/
theorem State.writeWord_of_busy {s : State} {off : BitVec 12} (w : Word) (hbusy : s.status.busy = true)
    (hctrl : off ≠ 0x004#12) (hstatus : off ≠ 0x008#12) :
    s.writeWord off w = { s with status := s.status.overrun } := by
  rcases s.writeWord_cases off w with ⟨h, -⟩ | ⟨h, -⟩ | ⟨-, -, -, h⟩ | ⟨-, -, hidle, -⟩
  · exact absurd ((regionOf_eq_ctrl_iff off).1 h) hctrl
  · exact absurd ((regionOf_eq_status_iff off).1 h) hstatus
  · exact h
  · simp [hbusy] at hidle

/-- A 32-bit aligned write is taken as the next event in any phase, and answers success (20_memory.md
R65). -/
theorem step_busWrite {s : State} {off : BitVec 12} {w : Word} {rest : List Event}
    (halign : off.toNat % 4 = 0) (hin : s.inputs = busWrite off w :: rest) :
    step s = .next { (s.taken rest).writeWord off w with resp := some .ok } := by
  simp only [step, hin, busWrite, State.transact, (accessOk_w32_iff off).2 halign, if_true, State.hostWrite]

/-- Settles O9: the bus takes and answers the write in any phase, and while BUSY the word is dropped. -/
theorem writeWhileBusyIsDropped : Obligations.WriteWhileBusyIsDropped := by
  intro s off w rest hbusy halign hctrl hstatus hin
  have hdropped : (s.taken rest).writeWord off w = { s.taken rest with status := s.status.overrun } :=
    State.writeWord_of_busy w hbusy hctrl hstatus
  rw [step_busWrite halign hin, hdropped]
  rfl

end Sys2Proof.Machine
end

section
/-! SUPPORT. The decoder and the encoder, said once: what a class lets through, as the mask of its row
(30_encoding.md R93 to R98). -/

namespace Sys2Proof

/-- What a class's use of a register field fixes: the bits that must be 0 (30_encoding.md R95). -/
def FieldUse.mask : FieldUse → RegIdx
  | .zero => 15#4
  | .reg => 0#4
  | .pair => 1#4

/-- What a class fixes of a word, field by field: all of OP, and the bits that must be 0. -/
def ClassRow.mask (k : ClassRow) : Fields :=
  ⟨255#8, k.rd.mask, k.rs1.mask, k.rs2.mask, k.rm.mask, if k.flag then 254#8 else 255#8⟩

/-- The bits two field layouts share. -/
def Fields.and (f g : Fields) : Fields :=
  ⟨f.op &&& g.op, f.rd &&& g.rd, f.rs1 &&& g.rs1, f.rs2 &&& g.rs2, f.rm &&& g.rm, f.fl &&& g.fl⟩

theorem Fields.toWord_and (f g : Fields) : (f.and g).toWord = f.toWord &&& g.toWord := by
  apply BitVec.eq_of_getLsbD_eq
  intro i _
  simp only [Fields.getLsbD_toWord, Fields.and, BitVec.getLsbD_and]
  split_ifs <;> rfl

theorem Fields.toWord_inj {f g : Fields} : f.toWord = g.toWord ↔ f = g :=
  ⟨fun h => by rw [← Fields.ofWord_toWord f, h, Fields.ofWord_toWord], fun h => by rw [h]⟩

/-- The opcode's row of the match and mask table is its byte and its class's mask (30_encoding.md R95). -/
theorem matchMask_eq (o : Opcode) :
    Safety.matchMask o = (Fields.toWord ⟨o.byte, 0, 0, 0, 0, 0⟩, o.cls.row.mask.toWord) := by
  cases o <;> rfl

/-- A register field passes its class exactly when the bits its mask names are 0. -/
theorem FieldUse.and_mask_eq_zero_iff (u : FieldUse) (f : RegIdx) :
    f &&& u.mask = 0 ↔ u.zeroBroken f = false ∧ u.pairBroken f = false := by
  cases u <;> revert f <;> decide

/-- FL passes its class exactly when the bits its mask names are 0. -/
theorem ClassRow.and_flagMask_eq_zero_iff (k : ClassRow) (fl : BitVec 8) :
    fl &&& (if k.flag then 254#8 else 255#8) = 0 ↔ k.flagBroken fl = false := by
  unfold ClassRow.flagBroken
  cases k.flag <;> revert fl <;> decide

/-- The class's checks pass exactly when no field is broken. -/
theorem ClassRow.check_eq_none_iff (k : ClassRow) (f : Fields) :
    k.check f = none ↔
      (f.rd &&& k.rd.mask = 0 ∧ f.rs1 &&& k.rs1.mask = 0 ∧ f.rs2 &&& k.rs2.mask = 0 ∧
        f.rm &&& k.rm.mask = 0) ∧
      f.fl &&& (if k.flag then 254#8 else 255#8) = 0 := by
  simp only [FieldUse.and_mask_eq_zero_iff, ClassRow.and_flagMask_eq_zero_iff, ClassRow.check, ite_eq_iff,
    reduceCtorEq, and_false, and_true, false_or, Bool.or_eq_true, not_or, Bool.not_eq_true]
  tauto

/-- The class's checks pass, on the opcode's byte, exactly when the fields under the mask are the match. -/
theorem Opcode.byte_and_check_iff (o : Opcode) (f : Fields) :
    f.op = o.byte ∧ o.cls.row.check f = none ↔ f.and o.cls.row.mask = ⟨o.byte, 0, 0, 0, 0, 0⟩ := by
  have hop : f.op &&& 255#8 = f.op := BitVec.and_allOnes
  simp only [ClassRow.check_eq_none_iff, Fields.and, ClassRow.mask, Fields.mk.injEq, hop, and_assoc]

theorem Opcode.ofByte_eq_some_iff (b : BitVec 8) (o : Opcode) : Opcode.ofByte b = some o ↔ b = o.byte :=
  ⟨fun h => (Opcode.byte_of_ofByte b o h).symm, fun h => by rw [h, Opcode.ofByte_byte]⟩

theorem Opcode.opcode_instr (o : Opcode) (f : Fields) : (o.instr f).opcode = o := by
  cases o <;> rfl

/-- The decoder, said once: the byte names an opcode whose class lets the fields through. -/
theorem decode_eq_ok_iff (c : Word) (i : Instr) :
    decode c = .ok i ↔ ∃ o : Opcode, (Fields.ofWord c).op = o.byte ∧
      o.cls.row.check (Fields.ofWord c) = none ∧ o.instr (Fields.ofWord c) = i := by
  simp only [decode, ← Opcode.ofByte_eq_some_iff]
  cases hop : Opcode.ofByte (Fields.ofWord c).op with
  | none => simp
  | some o => cases hchk : o.cls.row.check (Fields.ofWord c) <;> simp [hchk]

/-- A command of an opcode is read from a word exactly when the opcode's row matches it. -/
theorem exists_decode_iff_match (c : Word) (o : Opcode) :
    (∃ i, decode c = .ok i ∧ i.opcode = o) ↔ c &&& (Safety.matchMask o).2 = (Safety.matchMask o).1 := by
  have hrow : (∃ i, decode c = .ok i ∧ i.opcode = o) ↔
      (Fields.ofWord c).op = o.byte ∧ o.cls.row.check (Fields.ofWord c) = none := by
    simp only [decode_eq_ok_iff]
    constructor
    · rintro ⟨_, ⟨o', hop, hchk, rfl⟩, rfl⟩
      rw [Opcode.opcode_instr]
      exact ⟨hop, hchk⟩
    · rintro ⟨hop, hchk⟩
      exact ⟨_, ⟨o, hop, hchk, rfl⟩, Opcode.opcode_instr o _⟩
  have hword : c &&& (Safety.matchMask o).2 = ((Fields.ofWord c).and o.cls.row.mask).toWord := by
    rw [Fields.toWord_and, Fields.toWord_ofWord, matchMask_eq]
  rw [hrow, Opcode.byte_and_check_iff, hword, matchMask_eq, Fields.toWord_inj]

/-- Every command's own fields meet the per-instruction law of its class. -/
theorem classAccepts (i : Instr) : i.opcode.cls.row.check i.fields = none ↔ i.wf = true := by
  cases i with
  | nop => exact Laws.ClassAccepts.nop
  | modadd rd rs1 rs2 rm => exact Laws.ClassAccepts.modadd rd rs1 rs2 rm
  | modsub rd rs1 rs2 rm => exact Laws.ClassAccepts.modsub rd rs1 rs2 rm
  | modmul rd rs1 rs2 rm => exact Laws.ClassAccepts.modmul rd rs1 rs2 rm
  | modred rd rs1 rm => exact Laws.ClassAccepts.modred rd rs1 rm
  | modexp rd rs1 rs2 rm => exact Laws.ClassAccepts.modexp rd rs1 rs2 rm
  | modinv rd rs1 rm => exact Laws.ClassAccepts.modinv rd rs1 rm
  | modsqrt rd rs1 rm => exact Laws.ClassAccepts.modsqrt rd rs1 rm
  | pdbl rd rs1 => exact Laws.ClassAccepts.pdbl rd rs1
  | padd rd rs1 rs2 => exact Laws.ClassAccepts.padd rd rs1 rs2
  | pmul rd rs1 rs2 => exact Laws.ClassAccepts.pmul rd rs1 rs2
  | pval rs1 => exact Laws.ClassAccepts.pval rs1
  | pdecomp rd rs1 isOdd => exact Laws.ClassAccepts.pdecomp rd rs1 isOdd
  | ploadg rd => exact Laws.ClassAccepts.ploadg rd
  | secpload => exact Laws.ClassAccepts.secpload
  | sec1dec rd => exact Laws.ClassAccepts.sec1dec rd
  | sec1enc rs1 compressed => exact Laws.ClassAccepts.sec1enc rs1 compressed
  | b58enc => exact Laws.ClassAccepts.b58enc
  | b58dec => exact Laws.ClassAccepts.b58dec
  | bech32enc => exact Laws.ClassAccepts.bech32enc
  | bchmod rd => exact Laws.ClassAccepts.bchmod rd

theorem flagByte_getElem (b : Bool) : (flagByte b)[0] = b := flagByte_getLsbD b

/-- The opcode's reading of a command's own fields is the command. -/
theorem Instr.instr_fields (i : Instr) : i.opcode.instr i.fields = i := by
  cases i <;> simp [Instr.opcode, Instr.fields, Opcode.instr, flagByte_getElem]

/-- FL[7:1] = 0 leaves of the flag byte its flag. -/
theorem flagByte_of_and_eq_zero (fl : BitVec 8) (h : fl &&& 254#8 = 0) : flagByte fl[0] = fl := by
  revert fl
  decide

/-- Fields that their class lets through are all in the command read from them: no bit is dropped. -/
theorem Opcode.fields_instr (o : Opcode) (f : Fields) (hop : f.op = o.byte)
    (hchk : o.cls.row.check f = none) : (o.instr f).fields = f := by
  obtain ⟨⟨hrd, hrs1, hrs2, hrm⟩, hfl⟩ := (ClassRow.check_eq_none_iff _ _).1 hchk
  have hall (x : RegIdx) : x &&& 15#4 = x := BitVec.and_allOnes
  have hallFl (x : BitVec 8) : x &&& 255#8 = x := BitVec.and_allOnes
  obtain ⟨op, rd, rs1, rs2, rm, fl⟩ := f
  cases o <;>
    simp_all [Opcode.cls, FormatClass.row, FieldUse.mask, Opcode.instr, Instr.fields, Instr.opcode,
      flagByte_of_and_eq_zero]

end Sys2Proof
end

section
/-! The statements of 30_encoding.md: the round trips, the match and mask table, the examples. -/

namespace Sys2Proof

/-- Settles O1: the layout reads back what it wrote, the byte names the opcode, the class lets the
fields of a well-formed command through, and the opcode reads the command from them. -/
theorem decodeOfEncodeIsIdentity : Obligations.DecodeOfEncodeIsIdentity := by
  intro i hwf
  have hfields : Fields.ofWord (encode i) = i.fields := Fields.ofWord_toWord i.fields
  rw [decode_eq_ok_iff, hfields]
  exact ⟨i.opcode, i.fields_op, (classAccepts i).2 hwf, i.instr_fields⟩

/-- Settles O2: the command's fields are the word's, and since their class let them through the
command is well formed. -/
theorem encodeOfDecodeIsIdentity : Obligations.EncodeOfDecodeIsIdentity := by
  intro c i hdec
  obtain ⟨o, hop, hchk, rfl⟩ := (decode_eq_ok_iff c i).1 hdec
  have hfields := o.fields_instr _ hop hchk
  refine ⟨?_, ?_⟩
  · rw [encode, hfields, Fields.toWord_ofWord]
  · rw [← classAccepts, Opcode.opcode_instr, hfields]
    exact hchk

/-- Settles O3: a row matches exactly the words of its opcode, and a word has one OP byte. -/
theorem decodeFollowsMatchAndMask : Obligations.DecodeFollowsMatchAndMask := by
  refine ⟨exists_decode_iff_match, fun c o o' hrow hrow' => ?_, fun c => ⟨?_, fun hnone => ?_⟩⟩
  · obtain ⟨i, hdec, rfl⟩ := (exists_decode_iff_match c o).2 hrow
    obtain ⟨i', hdec', rfl⟩ := (exists_decode_iff_match c o').2 hrow'
    rw [Except.ok.inj (hdec.symm.trans hdec')]
  · rintro ⟨e, herr⟩ o hrow
    obtain ⟨i, hdec, -⟩ := (exists_decode_iff_match c o).2 hrow
    exact absurd (herr.symm.trans hdec) (by simp)
  · cases hdec : decode c with
    | error e => exact ⟨e, rfl⟩
    | ok i => exact absurd ((exists_decode_iff_match c i.opcode).1 ⟨i, hdec, rfl⟩) (hnone i.opcode)

/-- Settles O4: five examples are well-formed commands, so O1 reads them back; the sixth has an odd
pair. -/
theorem encodingExamplesHold : Obligations.EncodingExamplesHold := by
  have roundTrip (i : Instr) (w : Word) (hwf : i.wf = true) (hw : encode i = w) :
      encode i = w ∧ decode w = .ok i := ⟨hw, hw ▸ decodeOfEncodeIsIdentity i hwf⟩
  exact ⟨roundTrip _ _ rfl rfl, roundTrip _ _ rfl rfl, roundTrip _ _ rfl rfl, roundTrip _ _ rfl rfl,
    roundTrip _ _ rfl rfl, rfl, by decide⟩

end Sys2Proof
end

section
/-! SUPPORT. Digit strings, most significant digit first: leading zeros and a value name each string
once, in every base. Base58 text and byte strings are two such strings (42_codec.md sections 1, 2). -/

namespace Sys2Proof.Machine

/-- The number of leading zero digits. -/
def leadingZeros (ds : List Nat) : Nat := (ds.takeWhile (· == 0)).length

/-- The digit string with z leading zeros and the value v. -/
def numeral (b z v : Nat) : List Nat := List.replicate z 0 ++ digits b v

/-- The digit string in base b with the leading zeros and the value of a string in base a. -/
def transcode (a b : Nat) (ds : List Nat) : List Nat :=
  numeral b (leadingZeros ds) (Nat.ofDigits a ds.reverse)

theorem leadingZeros_le_length (ds : List Nat) : leadingZeros ds ≤ ds.length :=
  (List.takeWhile_sublist _).length_le

/-- A digit string is its leading zeros and a rest that begins with no zero. -/
theorem exists_eq_replicate_append (ds : List Nat) :
    ∃ rest, ds = List.replicate (leadingZeros ds) 0 ++ rest ∧ rest.head? ≠ some 0 := by
  induction ds with
  | nil => exact ⟨[], rfl, by simp⟩
  | cons d ds ih =>
    by_cases hd : d = 0
    · obtain ⟨rest, hrest, hhead⟩ := ih
      refine ⟨rest, ?_, hhead⟩
      simpa [leadingZeros, hd, List.replicate_succ] using hrest
    · exact ⟨d :: ds, by simp [leadingZeros, hd], by simpa using hd⟩

theorem leadingZeros_replicate_append (z : Nat) {rest : List Nat} (h : rest.head? ≠ some 0) :
    leadingZeros (List.replicate z 0 ++ rest) = z := by
  induction z with
  | zero =>
    cases rest with
    | nil => rfl
    | cons d rest =>
      have hd : d ≠ 0 := by simpa using h
      simp [leadingZeros, hd]
  | succ z ih => simpa [leadingZeros, List.replicate_succ] using ih

/-- Leading zeros add nothing to a value. -/
theorem ofDigits_replicate_append (b z : Nat) (rest : List Nat) :
    Nat.ofDigits b (List.replicate z 0 ++ rest).reverse = Nat.ofDigits b rest.reverse := by
  rw [List.reverse_append, List.reverse_replicate, Nat.ofDigits_append_replicate_zero]

theorem ofDigits_digits_reverse {b : Nat} (v : Nat) (hb : 2 ≤ b) :
    Nat.ofDigits b (digits b v).reverse = v := by
  rw [digits_eq b v hb, List.reverse_reverse, Nat.ofDigits_digits]

/-- The digits of a number have no leading zero. -/
theorem head?_digits_ne_zero {b : Nat} (v : Nat) (hb : 2 ≤ b) : (digits b v).head? ≠ some 0 := by
  rw [digits_eq b v hb, List.head?_reverse]
  by_cases hv : v = 0
  · simp [hv]
  · rw [List.getLast?_eq_some_getLast (Nat.digits_ne_nil_iff_ne_zero.2 hv)]
    exact fun h => Nat.getLast_digit_ne_zero b hv (Option.some.inj h)

theorem lt_of_mem_digits {b v d : Nat} (hb : 2 ≤ b) (hd : d ∈ digits b v) : d < b := by
  rw [digits_eq b v hb, List.mem_reverse] at hd
  exact Nat.digits_lt_base hb hd

/-- A string that begins with no zero is the digits of its value. -/
theorem digits_ofDigits_reverse {b : Nat} {rest : List Nat} (hb : 2 ≤ b) (hlt : ∀ d ∈ rest, d < b)
    (hhead : rest.head? ≠ some 0) : digits b (Nat.ofDigits b rest.reverse) = rest := by
  rw [digits_eq b _ hb, Nat.digits_ofDigits b hb, List.reverse_reverse]
  · simpa using hlt
  · intro hne hlast
    exact hhead (by rw [← List.getLast?_reverse, List.getLast?_eq_some_getLast hne, hlast])

theorem leadingZeros_numeral {b : Nat} (z v : Nat) (hb : 2 ≤ b) : leadingZeros (numeral b z v) = z :=
  leadingZeros_replicate_append z (head?_digits_ne_zero v hb)

theorem ofDigits_numeral {b : Nat} (z v : Nat) (hb : 2 ≤ b) : Nat.ofDigits b (numeral b z v).reverse = v := by
  rw [numeral, ofDigits_replicate_append, ofDigits_digits_reverse v hb]

theorem lt_of_mem_numeral {b z v d : Nat} (hb : 2 ≤ b) (hd : d ∈ numeral b z v) : d < b := by
  rcases List.mem_append.1 hd with hz | hv
  · have : d = 0 := List.eq_of_mem_replicate hz
    omega
  · exact lt_of_mem_digits hb hv

/-- A string of digits is the numeral of its leading zeros and its value. -/
theorem numeral_leadingZeros_ofDigits {b : Nat} {ds : List Nat} (hb : 2 ≤ b) (hlt : ∀ d ∈ ds, d < b) :
    numeral b (leadingZeros ds) (Nat.ofDigits b ds.reverse) = ds := by
  obtain ⟨rest, hds, hhead⟩ := exists_eq_replicate_append ds
  have hmem : ∀ d ∈ rest, d < b := fun d hd => hlt d (hds ▸ List.mem_append_right _ hd)
  have hval : Nat.ofDigits b ds.reverse = Nat.ofDigits b rest.reverse := by
    conv_lhs => rw [hds]
    exact ofDigits_replicate_append _ _ _
  rw [hval, numeral, digits_ofDigits_reverse hb hmem hhead, ← hds]

/-- Transcoding back gives the digit string again. -/
theorem transcode_transcode {a b : Nat} {ds : List Nat} (ha : 2 ≤ a) (hb : 2 ≤ b) (hlt : ∀ d ∈ ds, d < a) :
    transcode b a (transcode a b ds) = ds := by
  rw [transcode, transcode, leadingZeros_numeral _ _ hb, ofDigits_numeral _ _ hb,
    numeral_leadingZeros_ofDigits ha hlt]

/-- The length of a transcoded string, when the new base's L digits hold what the old base's do. -/
theorem length_transcode_le {a b L : Nat} {ds : List Nat} (ha : 2 ≤ a) (hb : 2 ≤ b) (hlt : ∀ d ∈ ds, d < a)
    (hL : ∀ z ≤ ds.length, z ≤ L ∧ a ^ (ds.length - z) ≤ b ^ (L - z)) : (transcode a b ds).length ≤ L := by
  obtain ⟨hz, hpow⟩ := hL _ (leadingZeros_le_length ds)
  obtain ⟨rest, hds, -⟩ := exists_eq_replicate_append ds
  have hlen : ds.length = leadingZeros ds + rest.length := by
    conv_lhs => rw [hds]
    simp
  have hval : Nat.ofDigits a ds.reverse = Nat.ofDigits a rest.reverse := by
    conv_lhs => rw [hds]
    exact ofDigits_replicate_append _ _ _
  have hlt' : Nat.ofDigits a rest.reverse < a ^ rest.reverse.length :=
    Nat.ofDigits_lt_base_pow_length ha
      fun d hd => hlt d (hds ▸ List.mem_append_right _ (List.mem_reverse.1 hd))
  have hdig : (digits b (Nat.ofDigits a ds.reverse)).length ≤ L - leadingZeros ds := by
    rw [digits_eq b _ hb, List.length_reverse, Nat.digits_length_le_iff hb, hval]
    refine lt_of_lt_of_le hlt' ?_
    rwa [List.length_reverse, show rest.length = ds.length - leadingZeros ds by omega]
  simp only [transcode, numeral, List.length_append, List.length_replicate]
  omega

/-- The sum that gives the value of n digits, most significant first. -/
theorem sum_eq_ofDigits (b : Nat) (g : Nat → Nat) (n : Nat) :
    ∑ i ∈ Finset.range n, g i * b ^ (n - 1 - i) = Nat.ofDigits b ((List.range n).map g).reverse := by
  induction n with
  | zero => rfl
  | succ n ih =>
    have hterm : ∀ i ∈ Finset.range n, g i * b ^ (n + 1 - 1 - i) = b * (g i * b ^ (n - 1 - i)) := by
      intro i hi
      have hlt : i < n := Finset.mem_range.1 hi
      rw [show n + 1 - 1 - i = (n - 1 - i) + 1 by omega, pow_succ]
      ring
    rw [Finset.sum_range_succ, Finset.sum_congr rfl hterm, ← Finset.mul_sum, ih, List.range_succ,
      List.map_append, List.reverse_append, List.map_singleton, List.reverse_singleton,
      List.singleton_append, Nat.ofDigits_cons]
    simp
    ring

/-! Byte strings as digit strings in base 256 -/

theorem beInt_eq_ofDigits (bs : List Byte) : beInt bs = Nat.ofDigits 256 (bs.map BitVec.toNat).reverse := by
  induction bs using List.reverseRecOn with
  | nil => rfl
  | append_singleton bs b ih =>
    rw [beInt_append, ih, List.map_append, List.reverse_append, List.map_singleton, List.reverse_singleton,
      List.singleton_append, Nat.ofDigits_cons]
    ring

/-- The big-endian value of buffer bytes is the spec's sum (00_scope.md R14). -/
theorem beValue_eq_beInt (f : Nat → Byte) (n : Nat) : Safety.beValue f n = beInt ((List.range n).map f) := by
  rw [Safety.beValue, sum_eq_ofDigits 256 (fun i => (f i).toNat), beInt_eq_ofDigits, List.map_map]
  rfl

theorem map_ofNat_map_toNat (bs : List Byte) : (bs.map BitVec.toNat).map (BitVec.ofNat 8) = bs := by
  rw [List.map_map]
  exact List.map_id'' (fun b => by simp) bs

theorem map_toNat_map_ofNat {ds : List Nat} (h : ∀ d ∈ ds, d < 256) :
    (ds.map (BitVec.ofNat 8)).map BitVec.toNat = ds := by
  rw [List.map_map]
  refine (List.map_congr_left fun d hd => ?_).trans (List.map_id ds)
  simpa using h d hd

theorem lt_of_mem_map_toNat {bs : List Byte} {d : Nat} (h : d ∈ bs.map BitVec.toNat) : d < 256 := by
  obtain ⟨b, -, rfl⟩ := List.mem_map.1 h
  exact b.isLt

/-! Base58 texts as digit strings in base 58 -/

/-- The leading bytes that stand for the digit 0 are the leading zeros. -/
theorem leading_map {f : Nat → Byte} {ds : List Nat} (h : ∀ d ∈ ds, f d = f 0 → d = 0) :
    leading (f 0) (ds.map f) = leadingZeros ds := by
  induction ds with
  | nil => rfl
  | cons d ds ih =>
    have ih := ih fun x hx => h x (List.mem_cons_of_mem _ hx)
    simp only [leading, leadingZeros] at ih ⊢
    by_cases hd : d = 0
    · simp [hd, ih]
    · have hne : f d ≠ f 0 := fun e => hd (h d List.mem_cons_self e)
      simp [hd, hne]

/-- No two indices below 58 share a character (42_codec.md R226). -/
theorem b58Char_inj {i j : Nat} (hi : i < 58) (hj : j < 58) (h : b58Char i = b58Char j) : i = j := by
  have hidx := b58Index_b58Char i hi
  rw [h, b58Index_b58Char j hj] at hidx
  exact (Option.some.inj hidx).symm

theorem leading_zero_byte (bs : List Byte) : leading 0x00#8 bs = leadingZeros (bs.map BitVec.toNat) := by
  have h := leading_map (f := BitVec.ofNat 8) (ds := bs.map BitVec.toNat) fun d hd he => by
    have hlt := lt_of_mem_map_toNat hd
    have hmod := congrArg BitVec.toNat he
    simpa [Nat.mod_eq_of_lt hlt] using hmod
  rwa [map_ofNat_map_toNat] at h

theorem leading_one_char {ds : List Nat} (h : ∀ d ∈ ds, d < 58) :
    leading 0x31#8 (ds.map b58Char) = leadingZeros ds :=
  leading_map (f := b58Char) fun d hd he => b58Char_inj (h d hd) (by decide) he

/-- The text of a byte string is its digit string, carried from base 256 to base 58. -/
theorem b58Encode_eq (bs : List Byte) :
    b58Encode bs = (transcode 256 58 (bs.map BitVec.toNat)).map b58Char := by
  rw [b58Encode, leading_zero_byte, beInt_eq_ofDigits, transcode, numeral, List.map_append,
    List.map_replicate]
  rfl

/-- The value read from a text is that of its characters' indices in base 58. -/
theorem b58Fold_map {ds : List Nat} (h : ∀ d ∈ ds, d < 58) (v : Nat) :
    b58Fold (ds.map b58Char) v = some (v * 58 ^ ds.length + Nat.ofDigits 58 ds.reverse) := by
  induction ds generalizing v with
  | nil => simp [b58Fold]
  | cons d ds ih =>
    have hd : b58Index (b58Char d) = some d := b58Index_b58Char d (h d List.mem_cons_self)
    simp only [List.map_cons, b58Fold, hd]
    rw [ih (fun x hx => h x (List.mem_cons_of_mem _ hx)), Nat.ofDigits_reverse_cons, List.length_cons]
    ring_nf

/-- The byte string of a text is its digit string, carried from base 58 to base 256. -/
theorem b58Decode_map {ds : List Nat} (h : ∀ d ∈ ds, d < 58) :
    b58Decode (ds.map b58Char) = some ((transcode 58 256 ds).map (BitVec.ofNat 8)) := by
  simp only [b58Decode, b58Fold_map h, leading_one_char h, transcode, numeral, List.map_append,
    List.map_replicate, minimalBe, Nat.zero_mul, Nat.zero_add]

/-- One byte outside the alphabet, anywhere, and a text has no value (42_codec.md R230). -/
theorem b58Fold_eq_none {c : Byte} {s : List Byte} (hc : c ∈ s) (hidx : b58Index c = none) (v : Nat) :
    b58Fold s v = none := by
  induction s generalizing v with
  | nil => simp at hc
  | cons d s ih =>
    rcases List.mem_cons.1 hc with rfl | hmem
    · simp [b58Fold, hidx]
    · cases hd : b58Index d with
      | none => simp [b58Fold, hd]
      | some i => simp only [b58Fold, hd]; exact ih hmem _

/-- A text of alphabet characters, or one with a byte outside the alphabet. -/
theorem b58_text_cases (s : List Byte) :
    (∃ ds : List Nat, (∀ d ∈ ds, d < 58) ∧ s = ds.map b58Char) ∨ ∃ c ∈ s, b58Index c = none := by
  induction s with
  | nil => exact .inl ⟨[], by simp, rfl⟩
  | cons c s ih =>
    cases hc : b58Index c with
    | none => exact .inr ⟨c, List.mem_cons_self, hc⟩
    | some i =>
      obtain ⟨hi, hchar⟩ := b58Char_of_b58Index c i hc
      rcases ih with ⟨ds, hds, rfl⟩ | ⟨c', hmem, hnone⟩
      · exact .inl ⟨i :: ds, by simpa using ⟨hi, hds⟩, by simp [hchar]⟩
      · exact .inr ⟨c', List.mem_cons_of_mem _ hmem, hnone⟩

theorem b58Decode_eq_none {c : Byte} {s : List Byte} (hc : c ∈ s) (hidx : b58Index c = none) :
    b58Decode s = none := by
  simp only [b58Decode, b58Fold_eq_none hc hidx]

/-- 256 bytes fill at most 350 base-58 digits, and each leading zero byte is one of them (42_codec.md
R223). -/
theorem length_b58Encode_le {bs : List Byte} (h : bs.length ≤ 256) : (b58Encode bs).length ≤ 350 := by
  rw [b58Encode_eq, List.length_map]
  refine length_transcode_le (by decide) (by decide) (fun d hd => lt_of_mem_map_toNat hd) fun z hz => ?_
  rw [List.length_map] at hz ⊢
  refine ⟨by omega, ?_⟩
  have hhalf : 256 ^ 128 ≤ 58 ^ 175 := by norm_num
  have hfull : 256 ^ 256 ≤ 58 ^ 350 := by
    rw [pow_mul 256 128 2, pow_mul 58 175 2]
    exact Nat.pow_le_pow_left hhalf 2
  have hmul : 256 ^ (bs.length - z) * 256 ^ z ≤ 58 ^ (350 - z) * 256 ^ z :=
    calc 256 ^ (bs.length - z) * 256 ^ z ≤ 256 ^ 256 := by
          rw [← pow_add]; exact Nat.pow_le_pow_right (by decide) (by omega)
      _ ≤ 58 ^ 350 := hfull
      _ = 58 ^ (350 - z) * 58 ^ z := by rw [← pow_add]; congr 1; omega
      _ ≤ 58 ^ (350 - z) * 256 ^ z := Nat.mul_le_mul_left _ (Nat.pow_le_pow_left (by decide) z)
  exact Nat.le_of_mul_le_mul_right hmul (by positivity)

/-- The byte string of a text is no longer than the text (42_codec.md R223). -/
theorem length_transcode_58_256_le {ds : List Nat} (h : ∀ d ∈ ds, d < 58) :
    (transcode 58 256 ds).length ≤ ds.length :=
  length_transcode_le (by decide) (by decide) h fun _ hz => ⟨hz, Nat.pow_le_pow_left (by decide) _⟩

theorem length_b58Decode_le {s out : List Byte} (h : b58Decode s = some out) : out.length ≤ s.length := by
  rcases b58_text_cases s with ⟨ds, hds, rfl⟩ | ⟨c, hc, hnone⟩
  · rw [b58Decode_map hds] at h
    obtain rfl := Option.some.inj h
    simpa using length_transcode_58_256_le hds
  · simp [b58Decode_eq_none hc hnone] at h

end Sys2Proof.Machine
end

section
/-! SUPPORT. Bech32: the groups of five bits as digits in base 32, and the checksum register
(42_codec.md section 3). -/

namespace Sys2Proof.Machine

/-! The groups of five (42_codec.md R236) -/

/-- The value of a string of 5-bit symbols, the first most significant. -/
def symValue (ss : List Sym) : Nat := Nat.ofDigits 32 (ss.map BitVec.toNat).reverse

theorem symValue_cons (v : Sym) (ss : List Sym) :
    symValue (v :: ss) = v.toNat * 32 ^ ss.length + symValue ss := by
  simp only [symValue, List.map_cons, Nat.ofDigits_reverse_cons, List.length_map]
  ring

theorem symValue_append (ss ss' : List Sym) :
    symValue (ss ++ ss') = symValue ss * 32 ^ ss'.length + symValue ss' := by
  induction ss with
  | nil => simp [symValue]
  | cons v ss ih =>
    rw [List.cons_append, symValue_cons, ih, symValue_cons, List.length_append, pow_add]
    ring

theorem beInt_nil : beInt [] = 0 := rfl

theorem beInt_cons (b : Byte) (bs : List Byte) : beInt (b :: bs) = b.toNat * 256 ^ bs.length + beInt bs := by
  simp only [beInt_eq_ofDigits, List.map_cons, Nat.ofDigits_reverse_cons, List.length_map]
  ring

/-- What `drain` leaves, how many groups it puts out, and their value: the accumulator but for the bits
left. -/
theorem drain_eq (acc bits : Nat) :
    (drain acc bits).2 = bits % 5 ∧ (drain acc bits).1.length = bits / 5 ∧
      symValue (drain acc bits).1 = acc / 2 ^ (bits % 5) % 32 ^ (bits / 5) := by
  induction bits using Nat.strong_induction_on with
  | _ bits ih =>
    rcases Nat.lt_or_ge bits 5 with hlt | hge
    · have hstop : drain acc bits = ([], bits) := by interval_cases bits <;> rfl
      simp [hstop, symValue, Nat.mod_eq_of_lt hlt, Nat.div_eq_of_lt hlt, Nat.mod_one]
    · obtain ⟨n, rfl⟩ : ∃ n, bits = n + 5 := ⟨bits - 5, by omega⟩
      obtain ⟨hleft, hlen, hval⟩ := ih n (by omega)
      have hmod : (n + 5) % 5 = n % 5 := by omega
      have hdiv : (n + 5) / 5 = n / 5 + 1 := by omega
      have hshift : acc >>> n = acc / 2 ^ (n % 5) / 32 ^ (n / 5) := by
        rw [Nat.shiftRight_eq_div_pow, Nat.div_div_eq_div_mul, show (32 : Nat) = 2 ^ 5 by rfl, ← pow_mul,
          ← pow_add, Nat.mod_add_div]
      rw [drain]
      refine ⟨hleft.trans hmod.symm, by simp [hlen, hdiv], ?_⟩
      rw [symValue_cons, hlen, hval, hmod, hdiv, BitVec.toNat_ofNat, hshift,
        Nat.mod_pow_succ (b := 32), Nat.add_comm, Nat.mul_comm]

/-- The loop over the bytes: how many groups, and their value: what the accumulator holds, then the
bytes, then the zeros that fill the last group. -/
theorem groupsLoop_eq (xs : List Byte) : ∀ acc bits : Nat, acc < 2 ^ bits → bits < 5 →
    (groupsLoop acc bits xs).length = (bits + 8 * xs.length + 4) / 5 ∧
      symValue (groupsLoop acc bits xs) = (acc * 256 ^ xs.length + beInt xs) *
        2 ^ (5 * ((bits + 8 * xs.length + 4) / 5) - (bits + 8 * xs.length)) := by
  induction xs with
  | nil =>
    intro acc bits hacc hbits
    rcases Nat.eq_zero_or_pos bits with rfl | hpos
    · have : acc = 0 := by simpa using hacc
      simp [groupsLoop, this, symValue, beInt_nil]
    · have hfit : acc * 2 ^ (5 - bits) < 32 := by
        calc acc * 2 ^ (5 - bits) < 2 ^ bits * 2 ^ (5 - bits) :=
          Nat.mul_lt_mul_of_pos_right hacc (by positivity)
          _ = 32 := by rw [← pow_add, Nat.add_sub_cancel' hbits.le]; rfl
      have hlen : (bits + 4) / 5 = 1 := by omega
      simp [groupsLoop, hpos, hlen, symValue, Nat.shiftLeft_eq, Nat.mod_eq_of_lt hfit, beInt_nil]
  | cons x xs ih =>
    intro acc bits hacc hbits
    have hacc' : acc <<< 8 ||| x.toNat = acc * 256 + x.toNat := by
      rw [← Nat.shiftLeft_add_eq_or_of_lt x.isLt, Nat.shiftLeft_eq]
    have hlt : acc * 256 + x.toNat < 2 ^ (bits + 8) := by
      have := x.isLt
      rw [pow_add]
      omega
    obtain ⟨hleft, hlen, hval⟩ := drain_eq (acc * 256 + x.toNat) (bits + 8)
    set acc' := acc * 256 + x.toNat with hdef
    set left := (bits + 8) % 5 with hl
    have hfits : acc' / 2 ^ left < 32 ^ ((bits + 8) / 5) := by
      rw [Nat.div_lt_iff_lt_mul (by positivity), show (32 : Nat) = 2 ^ 5 by rfl, ← pow_mul, ← pow_add]
      rwa [show 5 * ((bits + 8) / 5) + left = bits + 8 by omega]
    rw [Nat.mod_eq_of_lt hfits] at hval
    obtain ⟨ihlen, ihval⟩ := ih (acc' % 2 ^ left) left (Nat.mod_lt _ (by positivity)) (by omega)
    have hstep : groupsLoop acc bits (x :: xs) =
        (drain acc' (bits + 8)).1 ++ groupsLoop (acc' % 2 ^ left) left xs := by
      simp only [groupsLoop, hacc', hleft, Nat.and_two_pow_sub_one_eq_mod]
    refine ⟨?_, ?_⟩
    · rw [hstep, List.length_append, hlen, ihlen, List.length_cons]
      omega
    · have hpad : 5 * ((bits + 8 * (x :: xs).length + 4) / 5) - (bits + 8 * (x :: xs).length) =
          5 * ((left + 8 * xs.length + 4) / 5) - (left + 8 * xs.length) := by
        rw [List.length_cons]
        omega
      have hroom : 32 ^ ((left + 8 * xs.length + 4) / 5) = 2 ^ left * 256 ^ xs.length *
          2 ^ (5 * ((left + 8 * xs.length + 4) / 5) - (left + 8 * xs.length)) := by
        rw [show (32 : Nat) = 2 ^ 5 by rfl, show (256 : Nat) = 2 ^ 8 by rfl, ← pow_mul, ← pow_mul,
          ← pow_add, ← pow_add]
        congr 1
        omega
      have hsplit : acc' / 2 ^ left * 2 ^ left + acc' % 2 ^ left = acc' := Nat.div_add_mod' _ _
      rw [hstep, symValue_append, hval, ihlen, ihval, hpad, hroom, beInt_cons, List.length_cons, pow_succ]
      set e := 2 ^ (5 * ((left + 8 * xs.length + 4) / 5) - (left + 8 * xs.length))
      calc acc' / 2 ^ left * (2 ^ left * 256 ^ xs.length * e) +
          (acc' % 2 ^ left * 256 ^ xs.length + beInt xs) * e
          = ((acc' / 2 ^ left * 2 ^ left + acc' % 2 ^ left) * 256 ^ xs.length + beInt xs) * e := by ring
        _ = _ := by rw [hsplit, hdef]; ring

theorem length_groups5 (bs : List Byte) : (groups5 bs).length = (8 * bs.length + 4) / 5 := by
  obtain ⟨hlen, -⟩ := groupsLoop_eq bs 0 0 (by decide) (by decide)
  simpa [groups5] using hlen

/-- The groups hold the bytes' value, padded with zeros to a whole group. -/
theorem symValue_groups5 (bs : List Byte) :
    symValue (groups5 bs) = beInt bs * 2 ^ (5 * (groups5 bs).length - 8 * bs.length) := by
  rw [length_groups5]
  obtain ⟨-, hval⟩ := groupsLoop_eq bs 0 0 (by decide) (by decide)
  simpa [groups5] using hval

theorem length_bech32Encode (h payload : List Byte) :
    (bech32Encode h payload).length = h.length + 1 + (8 * payload.length + 4) / 5 + 6 := by
  simp [bech32Encode, length_groups5, checksumSyms]
  omega

/-! The checksum register (42_codec.md R238, R239) -/

/-- A word whose top five bits are clear moves up by five bits in a step, and selects no generator. -/
theorem polyStep_xor_low (chk x : BitVec 30) (h : x.extractLsb' 25 5 = 0#5) :
    polyStep (chk ^^^ x) 0#5 = polyStep chk 0#5 ^^^ x <<< 5 := by
  have htop : (chk ^^^ x).extractLsb' 25 5 = chk.extractLsb' 25 5 := by
    have hx : (chk ^^^ x).extractLsb' 25 5 = chk.extractLsb' 25 5 ^^^ x.extractLsb' 25 5 := by
      apply BitVec.eq_of_getLsbD_eq
      intro i hi
      simp [hi]
    rw [hx, h, BitVec.xor_zero]
  have hlow : ((chk ^^^ x) &&& 0x1FFFFFF#30) <<< 5 = ((chk &&& 0x1FFFFFF#30) <<< 5) ^^^ x <<< 5 := by
    apply BitVec.eq_of_getLsbD_eq
    intro i hi
    interval_cases i <;> simp
  rw [polyStep, polyStep, htop, hlow]
  ac_rfl

/-- A string of at most six symbols as one word, the first most significant. -/
def packed (ss : List Sym) : BitVec 30 := ss.foldl (fun w v => w <<< 5 ^^^ v.setWidth 30) 0#30

theorem packed_append_singleton (ss : List Sym) (v : Sym) :
    packed (ss ++ [v]) = packed ss <<< 5 ^^^ v.setWidth 30 := by
  simp [packed]

/-- n symbols take the low 5n bits. -/
theorem packed_getLsbD_eq_false (ss : List Sym) : ∀ i, 5 * ss.length ≤ i → (packed ss).getLsbD i = false := by
  induction ss using List.reverseRecOn with
  | nil => intro i _; simp [packed]
  | append_singleton ss v ih =>
    intro i hi
    rw [List.length_append, List.length_singleton] at hi
    have hw : (packed ss).getLsbD (i - 5) = false := ih _ (by omega)
    have hv : v.getLsbD i = false := BitVec.getLsbD_of_ge _ _ (by omega)
    rw [packed_append_singleton]
    simp [hw, hv]

/-- Six symbols at most enter the register as the word they make, beside what the register does with
as many zeros: none of them is shifted out. -/
theorem foldl_polyStep_eq (x : BitVec 30) (ss : List Sym) (h : ss.length ≤ 6) :
    ss.foldl polyStep x = (List.replicate ss.length 0#5).foldl polyStep x ^^^ packed ss := by
  induction ss using List.reverseRecOn with
  | nil => simp [packed]
  | append_singleton ss v ih =>
    rw [List.length_append, List.length_singleton] at h
    have hclear : (packed ss).extractLsb' 25 5 = 0#5 := by
      apply BitVec.eq_of_getLsbD_eq
      intro i hi
      simp [hi, packed_getLsbD_eq_false ss (25 + i) (by omega)]
    rw [List.foldl_append, List.foldl_cons, List.foldl_nil, ih (by omega), polyStep_symbol,
      polyStep_xor_low _ _ hclear, packed_append_singleton, List.length_append, List.length_singleton,
      List.replicate_add, List.foldl_append, BitVec.xor_assoc]
    rfl

theorem packed_checksumSyms (c : BitVec 30) : packed (checksumSyms c) = c := by
  apply BitVec.eq_of_getLsbD_eq
  intro i hi
  simp only [packed, checksumSyms, List.foldl_cons, List.foldl_nil]
  interval_cases i <;> simp

/-- With its six checksum symbols the whole verifies (42_codec.md R239). -/
theorem polymod_checksum (h : List Byte) (d : List Sym) :
    polymod (hrpExpand h ++ d ++ checksumSyms (checksumWord h d)) = 1#30 := by
  have hzeros : polymod (hrpExpand h ++ d ++ List.replicate 6 0#5) = checksumWord h d ^^^ 1#30 := by
    rw [checksumWord, BitVec.xor_assoc, BitVec.xor_self, BitVec.xor_zero]
  rw [polymod_append, foldl_polyStep_eq _ _ (by simp [checksumSyms]), packed_checksumSyms]
  have hlen : (checksumSyms (checksumWord h d)).length = 6 := rfl
  rw [hlen, ← polymod_append, hzeros, BitVec.xor_assoc, BitVec.xor_comm 1#30, ← BitVec.xor_assoc,
    BitVec.xor_self, BitVec.zero_xor]

end Sys2Proof.Machine
end

section
/-! SUPPORT. What a command writes, as data: every meaning is a check of its operands and then one
write, or an error and none (43_control.md R263, R264). -/

namespace Sys2Proof.Machine

open Sys2Proof.Safety

/-- The write of a command that succeeds. -/
inductive Effect where
  | nothing
  | reg (rd : RegIdx) (x : U256)
  | pair (rd : RegIdx) (q : Point)
  | pred (b : Bool)
  | bank
  | bytes (out : List Byte)

/-- The state with the write done. -/
def Effect.apply (s : State) : Effect → State
  | .nothing => s
  | .reg rd x => s.setV rd x
  | .pair rd q => s.setPair rd q
  | .pred b => { s with status := { s.status with pred := b } }
  | .bank => { s with curve := secp256k1 }
  | .bytes out => s.output out

/-- A command of the modular unit, as what it writes. -/
def modularEffect (s : State) (rd rm : RegIdx) (f : Nat → Except ErrCode Nat) : Except ErrCode Effect :=
  checkModulus (s.nat rm) ((f (s.nat rm)).map fun r => .reg rd (BitVec.ofNat 256 r))

/-- SEC1DEC's checks of its key, then `k` (41_ecc.md R197). -/
def checkKey {α : Type} (s : State) (k : Except ErrCode α) : Except ErrCode α :=
  if s.ilen.toNat > ibufSize then .error .length
  else if s.ilen.toNat = 0 then .error .length
  else if ¬(s.ibuf 0 = 0x02#8 ∨ s.ibuf 0 = 0x03#8 ∨ s.ibuf 0 = 0x04#8) then .error .format
  else if s.ibuf 0 = 0x04#8 ∧ s.ilen.toNat ≠ 65 then .error .length
  else if (s.ibuf 0 = 0x02#8 ∨ s.ibuf 0 = 0x03#8) ∧ s.ilen.toNat ≠ 33 then .error .length
  else k

/-- A codec command's check of its length, then `k` (42_codec.md R222). -/
def checkLength {α : Type} (n : Nat) (k : Except ErrCode α) : Except ErrCode α :=
  if n > ibufSize then .error .length else k

/-- BCHMOD's check of its symbols, then `k` (42_codec.md R247). -/
def checkSymbols {α : Type} (bs : List Byte) (k : Except ErrCode α) : Except ErrCode α :=
  if bs.any (fun v => decide (32 ≤ v.toNat)) then .error .format else k

/-- B58DEC's result: FORMAT for a text that has no value (42_codec.md R230). -/
def decodeText (bs : List Byte) : Except ErrCode (List Byte) :=
  match b58Decode bs with
  | none => .error .format
  | some out => .ok out

/-- PMUL's result: SCALAR for k = 0 (41_ecc.md R179). -/
def checkScalar {α : Type} (k : Nat) (r : Except ErrCode α) : Except ErrCode α :=
  if k = 0 then .error .scalar else r

/-- What a command writes, or its error: the rule of each command (`exec_eq_finish` says so). -/
def effect (i : Instr) (s : State) : Except ErrCode Effect :=
  match i with
  | .nop => .ok .nothing
  | .modadd rd rs1 rs2 rm => modularEffect s rd rm fun m => .ok ((s.nat rs1 + s.nat rs2) % m)
  | .modsub rd rs1 rs2 rm => modularEffect s rd rm fun m =>
    .ok (imod ((s.nat rs1 : Int) - (s.nat rs2 : Int)) m)
  | .modmul rd rs1 rs2 rm => modularEffect s rd rm fun m => .ok (s.nat rs1 * s.nat rs2 % m)
  | .modred rd rs1 rm => modularEffect s rd rm fun m => .ok (s.nat rs1 % m)
  | .modexp rd rs1 rs2 rm => modularEffect s rd rm fun m => .ok (modPow (s.nat rs1) (s.nat rs2) m)
  | .modinv rd rs1 rm => modularEffect s rd rm (modInv (s.nat rs1))
  | .modsqrt rd rs1 rm => modularEffect s rd rm (sqrtMod (s.nat rs1))
  | .pdbl rd rs1 => checkPair rd <| checkPair rs1 <| checkModulus s.primeP <|
      checkRange s.primeP (s.pair rs1) <| (dblPoint s.primeP s.coeffA (s.pair rs1)).map (.pair rd)
  | .padd rd rs1 rs2 => checkPair rd <| checkPair rs1 <| checkPair rs2 <| checkModulus s.primeP <|
      checkRange s.primeP (s.pair rs1) <| checkRange s.primeP (s.pair rs2) <|
        (addPoint s.primeP s.coeffA (s.pair rs1) (s.pair rs2)).map (.pair rd)
  | .pmul rd rs1 rs2 => checkPair rd <| checkPair rs1 <| checkModulus s.primeP <|
      checkRange s.primeP (s.pair rs1) <| checkScalar (s.nat rs2) <|
        (mulPoint s.primeP s.coeffA (s.nat rs2) (s.pair rs1)).map (.pair rd)
  | .pval rs1 => checkPair rs1 <| checkModulus s.primeP <| .ok (.pred (s.onCurve (s.pair rs1)))
  | .pdecomp rd rs1 isOdd => checkPair rd <| checkModulus s.primeP <|
      (decompress s.primeP s.coeffA s.coeffB (s.nat rs1) isOdd).map (.pair rd)
  | .ploadg rd => checkPair rd <| .ok (.pair rd ⟨s.curve.gx.toNat, s.curve.gy.toNat⟩)
  | .secpload => .ok .bank
  | .sec1dec rd => checkPair rd <| checkKey s <| checkModulus s.primeP <|
      (s.keyPoint (s.ibuf 0)).map (.pair rd)
  | .sec1enc rs1 compressed => checkPair rs1 <| .ok (.bytes (sec1Bytes (s.pair rs1) compressed))
  | .b58enc => checkLength s.ilen.toNat <| .ok (.bytes (b58Encode (s.ibytes 0 s.ilen.toNat)))
  | .b58dec => checkLength s.ilen.toNat <| (decodeText (s.ibytes 0 s.ilen.toNat)).map .bytes
  | .bech32enc => checkLength (s.hlen.toNat + s.ilen.toNat) <|
      .ok (.bytes (bech32Encode (s.ibytes 0 s.hlen.toNat) (s.ibytes s.hlen.toNat s.ilen.toNat)))
  | .bchmod rd => checkLength s.ilen.toNat <| checkSymbols (s.ibytes 0 s.ilen.toNat) <|
      .ok (.reg rd ((polymod ((s.ibytes 0 s.ilen.toNat).map fun v => v.setWidth 5)).setWidth 256))

/-! A check commutes with what is done to the result behind it -/

variable {α β : Type}

theorem map_checkPair (f : α → β) (r : RegIdx) (k : Except ErrCode α) :
    (checkPair r k).map f = checkPair r (k.map f) := apply_ite _ _ _ _

theorem map_checkModulus (f : α → β) (m : Nat) (k : Except ErrCode α) :
    (checkModulus m k).map f = checkModulus m (k.map f) := apply_ite _ _ _ _

theorem map_checkRange (f : α → β) (p : Nat) (q : Point) (k : Except ErrCode α) :
    (checkRange p q k).map f = checkRange p q (k.map f) := apply_ite _ _ _ _

theorem map_checkLength (f : α → β) (n : Nat) (k : Except ErrCode α) :
    (checkLength n k).map f = checkLength n (k.map f) := apply_ite _ _ _ _

theorem map_checkSymbols (f : α → β) (bs : List Byte) (k : Except ErrCode α) :
    (checkSymbols bs k).map f = checkSymbols bs (k.map f) := apply_ite _ _ _ _

theorem map_checkScalar (f : α → β) (n : Nat) (k : Except ErrCode α) :
    (checkScalar n k).map f = checkScalar n (k.map f) := apply_ite _ _ _ _

theorem map_checkKey (f : α → β) (s : State) (k : Except ErrCode α) :
    (checkKey s k).map f = checkKey s (k.map f) := by
  unfold checkKey
  split_ifs <;> rfl

theorem State.writePoint_eq_map (s : State) (rd : RegIdx) (r : Except ErrCode Point) :
    s.writePoint rd r = (r.map (.pair rd)).map (Effect.apply s) := by
  cases r <;> rfl

theorem modularCommand_eq_finish (s : State) (rd rm : RegIdx) (f : Nat → Except ErrCode Nat) :
    modularCommand s rd rm f = s.finish ((modularEffect s rd rm f).map (Effect.apply s)) := by
  unfold modularCommand modularEffect
  rw [map_checkModulus]
  cases f (s.nat rm) <;> rfl

theorem execB58dec_eq_finish (s : State) :
    execB58dec s = s.finish ((effect .b58dec s).map (Effect.apply s)) := by
  simp only [execB58dec, effect, map_checkLength, decodeText]
  cases b58Decode (s.ibytes 0 s.ilen.toNat) <;> rfl

/-- Every meaning, said once: the command's write is done and it completes, or it ends with its error
and nothing is written. -/
theorem exec_eq_finish (i : Instr) (s : State) : exec i s = s.finish ((effect i s).map (Effect.apply s)) := by
  cases i with
  | nop => rfl
  | modadd rd rs1 rs2 rm => rw [exec_modadd, modularCommand_eq_finish, effect]
  | modsub rd rs1 rs2 rm => rw [exec_modsub, modularCommand_eq_finish, effect]
  | modmul rd rs1 rs2 rm => rw [exec_modmul, modularCommand_eq_finish, effect]
  | modred rd rs1 rm => rw [exec_modred, modularCommand_eq_finish, effect]
  | modexp rd rs1 rs2 rm => rw [exec_modexp, modularCommand_eq_finish, effect]
  | modinv rd rs1 rm => rw [exec_modinv, modularCommand_eq_finish, effect]
  | modsqrt rd rs1 rm => rw [exec_modsqrt, modularCommand_eq_finish, effect]
  | pdbl rd rs1 =>
    simp only [effect, map_checkPair, map_checkModulus, map_checkRange, ← State.writePoint_eq_map]
    rfl
  | padd rd rs1 rs2 =>
    simp only [effect, map_checkPair, map_checkModulus, map_checkRange, ← State.writePoint_eq_map]
    rfl
  | pmul rd rs1 rs2 =>
    simp only [effect, map_checkPair, map_checkModulus, map_checkRange, map_checkScalar,
      ← State.writePoint_eq_map]
    rfl
  | pval rs1 =>
    simp only [effect, map_checkPair, map_checkModulus]
    rfl
  | pdecomp rd rs1 isOdd =>
    simp only [effect, map_checkPair, map_checkModulus, ← State.writePoint_eq_map]
    rfl
  | ploadg rd =>
    simp only [effect, map_checkPair]
    rfl
  | secpload => rfl
  | sec1dec rd =>
    simp only [effect, map_checkPair, map_checkKey, map_checkModulus, ← State.writePoint_eq_map]
    rfl
  | sec1enc rs1 compressed =>
    simp only [effect, map_checkPair]
    rfl
  | b58enc =>
    simp only [effect, map_checkLength]
    rfl
  | b58dec => exact execB58dec_eq_finish s
  | bech32enc =>
    simp only [effect, map_checkLength]
    rfl
  | bchmod rd =>
    simp only [effect, map_checkLength, map_checkSymbols]
    rfl

/-! What a command answers, by its effect -/

section

variable {i : Instr} {s t : State}

theorem exec_of_effect_ok {w : Effect} (h : effect i s = .ok w) : exec i s = .next (w.apply s).succeed := by
  rw [exec_eq_finish, h]
  rfl

theorem exec_of_effect_error {e : ErrCode} (h : effect i s = .error e) :
    exec i s = .next (ended s e.code) := by
  rw [exec_eq_finish, h]
  rfl

/-- What a command answers, read back to its effect. -/
theorem exec_eq_next_cases (h : exec i s = .next t) :
    (∃ w, effect i s = .ok w ∧ t = (w.apply s).succeed) ∨
      ∃ e, effect i s = .error e ∧ t = ended s e.code := by
  cases he : effect i s with
  | ok w => exact .inl ⟨w, rfl, (Host.Outcome.next.inj ((exec_of_effect_ok he).symm.trans h)).symm⟩
  | error e => exact .inr ⟨e, rfl, (Host.Outcome.next.inj ((exec_of_effect_error he).symm.trans h)).symm⟩

/-- A command that ended with DONE, and found DONE clear, has done its write. -/
theorem effect_of_done (hclear : s.status.done = false) (h : exec i s = .next t)
    (hdone : t.status.done = true) :
    ∃ w, effect i s = .ok w ∧ t = (w.apply s).succeed := by
  rcases exec_eq_next_cases h with hok | ⟨e, -, rfl⟩
  · exact hok
  · exact absurd hdone (by simp [ended, errStatus, hclear])

end

/-! When a check lets a result through -/

section

variable {x : α} {k : Except ErrCode α}

theorem map_eq_ok_iff {f : α → β} {y : β} : k.map f = .ok y ↔ ∃ x, k = .ok x ∧ f x = y := by
  cases k <;> simp [Except.map]

theorem checkPair_eq_ok_iff {r : RegIdx} : checkPair r k = .ok x ↔ pairOk r = true ∧ k = .ok x := by
  rcases checkPair_cases r k with ⟨hr, h⟩ | ⟨hr, h⟩ <;> simp [hr, h]

theorem checkModulus_eq_ok_iff {m : Nat} : checkModulus m k = .ok x ↔ ¬badModulus m ∧ k = .ok x := by
  rcases checkModulus_cases m k with ⟨hm, h⟩ | ⟨hm, h⟩ <;> simp only [hm, h, reduceCtorEq] <;> tauto

theorem checkRange_eq_ok_iff {p : Nat} {q : Point} :
    checkRange p q k = .ok x ↔ (q.x < p ∧ q.y < p) ∧ k = .ok x := by
  rcases checkRange_cases p q k with ⟨hx, hy, h⟩ | ⟨hq, h⟩
  · simp [hx, hy, h]
  · have hnot : ¬(q.x < p ∧ q.y < p) := by omega
    simp [hnot, h]

theorem checkLength_eq_ok_iff {n : Nat} : checkLength n k = .ok x ↔ n ≤ ibufSize ∧ k = .ok x := by
  unfold checkLength
  split_ifs with hn
  · simp [Nat.not_le.2 hn]
  · simp [Nat.not_lt.1 hn]

theorem checkSymbols_eq_ok_iff {bs : List Byte} :
    checkSymbols bs k = .ok x ↔ (∀ v ∈ bs, v.toNat < 32) ∧ k = .ok x := by
  simp [checkSymbols, ite_eq_iff]

theorem checkScalar_eq_ok_iff {n : Nat} : checkScalar n k = .ok x ↔ n ≠ 0 ∧ k = .ok x := by
  simp [checkScalar, ite_eq_iff]

theorem checkKey_eq_ok {s : State} (h : checkKey s k = .ok x) : k = .ok x := by
  unfold checkKey at h
  split_ifs at h
  exact h

theorem modularEffect_eq_ok_iff {s : State} {rd rm : RegIdx} {f : Nat → Except ErrCode Nat} {w : Effect} :
    modularEffect s rd rm f = .ok w ↔
      ¬badModulus (s.nat rm) ∧ ∃ r, f (s.nat rm) = .ok r ∧ .reg rd (BitVec.ofNat 256 r) = w := by
  rw [modularEffect, checkModulus_eq_ok_iff, map_eq_ok_iff]

theorem decodeText_eq_ok_iff {bs out : List Byte} : decodeText bs = .ok out ↔ b58Decode bs = some out := by
  unfold decodeText
  cases b58Decode bs <;> simp

end

/-! The write that each command may do -/

/-- The writes that a command may do: to its destinations, and to what its rule names. -/
def Effect.Within (i : Instr) : Effect → Prop
  | .nothing => True
  | .reg rd _ => rd ∈ destRegs i
  | .pair rd _ => rd ∈ destRegs i ∧ rd + 1#4 ∈ destRegs i
  | .pred _ => ∃ r, i = .pval r
  | .bank => i = .secpload
  | .bytes out => producesBytes i = true ∧ out.length ≤ obufSize

theorem length_ibytes (s : State) (j n : Nat) : (s.ibytes j n).length = n := by simp [State.ibytes]

theorem length_sec1Bytes (q : Point) (compressed : Bool) :
    (sec1Bytes q compressed).length = if compressed then 33 else 65 := by
  cases compressed <;> simp [sec1Bytes, beBytes_length]

theorem length_b58Encode_ibytes_le {s : State} {n : Nat} (h : n ≤ ibufSize) :
    (b58Encode (s.ibytes 0 n)).length ≤ obufSize :=
  (length_b58Encode_le (by rwa [length_ibytes])).trans (by decide)

theorem length_bech32Encode_ibytes_le {s : State} {k n : Nat} (h : k + n ≤ ibufSize) :
    (bech32Encode (s.ibytes 0 k) (s.ibytes k n)).length ≤ obufSize := by
  rw [length_bech32Encode, length_ibytes, length_ibytes]
  unfold ibufSize at h
  unfold obufSize
  omega

/-- Every command writes within its destinations, and every output fits OBUF (42_codec.md R223). -/
theorem effect_within (i : Instr) (s : State) (w : Effect) (h : effect i s = .ok w) : w.Within i := by
  have modular {f : Nat → Except ErrCode Nat} {rd rm : RegIdx} (hrd : rd ∈ destRegs i)
      (h : modularEffect s rd rm f = .ok w) : w.Within i := by
    obtain ⟨-, r, -, rfl⟩ := modularEffect_eq_ok_iff.1 h
    exact hrd
  have point {r : Except ErrCode Point} {rd : RegIdx} (hrd : rd ∈ destRegs i ∧ rd + 1#4 ∈ destRegs i)
      (h : r.map (.pair rd) = .ok w) : w.Within i := by
    obtain ⟨q, -, rfl⟩ := map_eq_ok_iff.1 h
    exact hrd
  cases i with
  | nop => cases h; trivial
  | modadd rd rs1 rs2 rm => rw [effect] at h; exact modular (by simp [destRegs]) h
  | modsub rd rs1 rs2 rm => rw [effect] at h; exact modular (by simp [destRegs]) h
  | modmul rd rs1 rs2 rm => rw [effect] at h; exact modular (by simp [destRegs]) h
  | modred rd rs1 rm => rw [effect] at h; exact modular (by simp [destRegs]) h
  | modexp rd rs1 rs2 rm => rw [effect] at h; exact modular (by simp [destRegs]) h
  | modinv rd rs1 rm => rw [effect] at h; exact modular (by simp [destRegs]) h
  | modsqrt rd rs1 rm => rw [effect] at h; exact modular (by simp [destRegs]) h
  | pdbl rd rs1 =>
    simp only [effect, checkPair_eq_ok_iff, checkModulus_eq_ok_iff, checkRange_eq_ok_iff] at h
    obtain ⟨-, -, -, -, h⟩ := h
    exact point (by simp [destRegs]) h
  | padd rd rs1 rs2 =>
    simp only [effect, checkPair_eq_ok_iff, checkModulus_eq_ok_iff, checkRange_eq_ok_iff] at h
    obtain ⟨-, -, -, -, -, -, h⟩ := h
    exact point (by simp [destRegs]) h
  | pmul rd rs1 rs2 =>
    simp only [effect, checkPair_eq_ok_iff, checkModulus_eq_ok_iff, checkRange_eq_ok_iff,
      checkScalar_eq_ok_iff] at h
    obtain ⟨-, -, -, -, -, h⟩ := h
    exact point (by simp [destRegs]) h
  | pval rs1 =>
    simp only [effect, checkPair_eq_ok_iff, checkModulus_eq_ok_iff] at h
    obtain ⟨-, -, h⟩ := h
    cases h
    exact ⟨rs1, rfl⟩
  | pdecomp rd rs1 isOdd =>
    simp only [effect, checkPair_eq_ok_iff, checkModulus_eq_ok_iff] at h
    obtain ⟨-, -, h⟩ := h
    exact point (by simp [destRegs]) h
  | ploadg rd =>
    obtain ⟨-, h⟩ := checkPair_eq_ok_iff.1 h
    cases h
    simp [Effect.Within, destRegs]
  | secpload => cases h; rfl
  | sec1dec rd =>
    obtain ⟨-, h⟩ := checkPair_eq_ok_iff.1 h
    obtain ⟨-, h⟩ := checkModulus_eq_ok_iff.1 (checkKey_eq_ok h)
    exact point (by simp [destRegs]) h
  | sec1enc rs1 compressed =>
    obtain ⟨-, h⟩ := checkPair_eq_ok_iff.1 h
    cases h
    exact ⟨rfl, by rw [length_sec1Bytes]; cases compressed <;> decide⟩
  | b58enc =>
    obtain ⟨hn, h⟩ := checkLength_eq_ok_iff.1 h
    cases h
    exact ⟨rfl, length_b58Encode_ibytes_le hn⟩
  | b58dec =>
    simp only [effect, checkLength_eq_ok_iff, map_eq_ok_iff, decodeText_eq_ok_iff] at h
    obtain ⟨hn, out, hout, rfl⟩ := h
    have hlen := length_b58Decode_le hout
    rw [length_ibytes] at hlen
    exact ⟨rfl, hlen.trans (hn.trans (by decide))⟩
  | bech32enc =>
    obtain ⟨hn, h⟩ := checkLength_eq_ok_iff.1 h
    cases h
    exact ⟨rfl, length_bech32Encode_ibytes_le hn⟩
  | bchmod rd =>
    simp only [effect, checkLength_eq_ok_iff, checkSymbols_eq_ok_iff] at h
    obtain ⟨-, -, h⟩ := h
    cases h
    simp [Effect.Within, destRegs]

/-! What a write reads of the state -/

/-- The states agree on every operand a command may read: the snapshot (43_control.md R262, R265). -/
structure SameSnapshot (s s' : State) : Prop where
  v : s.v = s'.v
  curve : s.curve = s'.curve
  ilen : s.ilen = s'.ilen
  hlen : s.hlen = s'.hlen
  mem : s.mem = s'.mem
  epoch : s.epoch = s'.epoch

/-- What a command writes depends on nothing but the snapshot. -/
theorem effect_congr {s s' : State} (h : SameSnapshot s s') (i : Instr) : effect i s = effect i s' := by
  obtain ⟨v, ie, st, cmd, ilen, hlen, olen, curve, mem, inputs, resp, draws, epoch⟩ := s
  obtain ⟨v', ie', st', cmd', ilen', hlen', olen', curve', mem', inputs', resp', draws', epoch'⟩ := s'
  obtain ⟨rfl, rfl, rfl, rfl, rfl, rfl⟩ := h
  cases i <;> rfl

end Sys2Proof.Machine
end

section
/-! SUPPORT. What a command's write leaves alone, and what it does to the buffers. -/

namespace Sys2Proof.Machine

open Sys2Proof.Safety

section

variable (s : State) (w : Effect)

@[simp] theorem Effect.apply_ie : (w.apply s).ie = s.ie := by cases w <;> rfl
@[simp] theorem Effect.apply_cmd : (w.apply s).cmd = s.cmd := by cases w <;> rfl
@[simp] theorem Effect.apply_ilen : (w.apply s).ilen = s.ilen := by cases w <;> rfl
@[simp] theorem Effect.apply_hlen : (w.apply s).hlen = s.hlen := by cases w <;> rfl
@[simp] theorem Effect.apply_inputs : (w.apply s).inputs = s.inputs := by cases w <;> rfl
@[simp] theorem Effect.apply_resp : (w.apply s).resp = s.resp := by cases w <;> rfl
@[simp] theorem Effect.apply_draws : (w.apply s).draws = s.draws := by cases w <;> rfl
@[simp] theorem Effect.apply_epoch : (w.apply s).epoch = s.epoch := by cases w <;> rfl
@[simp] theorem Effect.apply_err : (w.apply s).status.err = s.status.err := by cases w <;> rfl
@[simp] theorem Effect.apply_ovr : (w.apply s).status.ovr = s.status.ovr := by cases w <;> rfl

end

variable {s : State} {w : Effect} {i : Instr}

theorem toNat_ne_toNat_add_one (r : RegIdx) : r.toNat ≠ (r + 1#4).toNat := by bv_omega

/-- A pair's write leaves every register outside the pair alone. -/
theorem State.getV_setPair_of_ne (s : State) {rd r : RegIdx} (q : Point) (h : r ≠ rd) (h' : r ≠ rd + 1#4) :
    (s.setPair rd q).getV r = s.getV r := by
  rw [State.setPair, State.setNat, State.getV_setV_of_ne _ _ _ _ h'.symm, State.setNat,
    State.getV_setV_of_ne _ _ _ _ h.symm]

/-- A write within a command's destinations leaves every other register alone. -/
theorem Effect.getV_apply (hw : w.Within i) {r : RegIdx} (hr : r ∉ destRegs i) :
    (w.apply s).getV r = s.getV r := by
  cases w with
  | reg rd x => exact s.getV_setV_of_ne rd r x fun e => hr (e ▸ hw)
  | pair rd q =>
    obtain ⟨hrd, hrd'⟩ := hw
    exact s.getV_setPair_of_ne q (fun e => hr (e ▸ hrd)) (fun e => hr (e ▸ hrd'))
  | nothing | pred _ | bank | bytes _ => rfl

theorem Effect.apply_curve (hw : w.Within i) (hi : i ≠ .secpload) : (w.apply s).curve = s.curve := by
  cases w with
  | bank => exact absurd hw hi
  | nothing | reg _ _ | pair _ _ | pred _ | bytes _ => rfl

theorem Effect.apply_mem_olen (hw : w.Within i) (hi : producesBytes i = false) :
    (w.apply s).mem = s.mem ∧ (w.apply s).olen = s.olen := by
  cases w with
  | bytes out =>
    obtain ⟨hp, -⟩ := hw
    exact absurd (hp.symm.trans hi) (by simp)
  | nothing | reg _ _ | pair _ _ | pred _ | bank => exact ⟨rfl, rfl⟩

theorem Effect.apply_pred (hw : w.Within i) (hi : ∀ r, i ≠ .pval r) :
    (w.apply s).status.pred = s.status.pred := by
  cases w with
  | pred b =>
    obtain ⟨r, hr⟩ := hw
    exact absurd hr (hi r)
  | nothing | reg _ _ | pair _ _ | bank | bytes _ => rfl

/-- An output that fits OBUF changes no byte but its own, and OLEN counts it. -/
theorem State.byteAt_output_of_outside (s : State) {out : List Byte} {a : Nat} (hwf : s.mem.wf)
    (hlen : out.length ≤ obufSize) (ha : ¬(0x800 ≤ a ∧ a < 0x800 + out.length)) :
    (s.output out).byteAt a = s.byteAt a := by
  obtain ⟨hrising, -⟩ := hwf
  exact (State.byteAt_output s out a hrising hlen).trans (dif_neg ha)

theorem State.output_olen_toNat (s : State) {out : List Byte} (hlen : out.length ≤ obufSize) :
    (s.output out).olen.toNat = out.length := by
  unfold obufSize at hlen
  rw [State.output_olen, BitVec.toNat_ofNat, Nat.mod_eq_of_lt (by omega)]

theorem State.succeed_byteAt (t : State) (a : Nat) : t.succeed.byteAt a = t.byteAt a := rfl

theorem Effect.byteAt_apply (hwf : s.mem.wf) (hw : w.Within i) {a : Nat}
    (ha : ¬(0x800 ≤ a ∧ a < 0x800 + (w.apply s).olen.toNat)) : (w.apply s).byteAt a = s.byteAt a := by
  cases w with
  | bytes out =>
    obtain ⟨-, hlen⟩ := hw
    rw [Effect.apply, State.output_olen_toNat s hlen] at ha
    exact s.byteAt_output_of_outside hwf hlen ha
  | nothing | reg _ _ | pair _ _ | pred _ | bank => rfl

/-- A write keeps the memory's form and OLEN within OBUF. -/
theorem Effect.wf_apply (hwf : s.mem.wf) (holen : s.olen.toNat ≤ obufSize) (hw : w.Within i) :
    (w.apply s).mem.wf ∧ (w.apply s).olen.toNat ≤ obufSize := by
  cases w with
  | bytes out =>
    obtain ⟨-, hlen⟩ := hw
    refine ⟨s.wf_output out hwf, ?_⟩
    rw [Effect.apply, State.output_olen_toNat s hlen]
    exact hlen
  | nothing | reg _ _ | pair _ _ | pred _ | bank => exact ⟨hwf, holen⟩

/-- Two states with the same snapshot have it still after the same write, and agree on what it wrote. -/
theorem Effect.apply_congr {s' : State} (h : SameSnapshot s s') (w : Effect) :
    (w.apply s').v = (w.apply s).v ∧ (w.apply s').curve = (w.apply s).curve ∧
      (w.apply s').mem = (w.apply s).mem := by
  cases w <;> simp [Effect.apply, h.v, h.curve, h.mem]

/-- OLEN after a write: the output's length, or what it was. -/
theorem Effect.olen_congr {s' : State} (w : Effect) (h : (∃ out, w = .bytes out) ∨ s.olen = s'.olen) :
    (w.apply s').olen = (w.apply s).olen := by
  cases w with
  | bytes out => rfl
  | nothing | reg _ _ | pair _ _ | pred _ | bank => simpa [Effect.apply, eq_comm] using h

/-- PRED after a write: PVAL's answer, or what it was. -/
theorem Effect.pred_congr {s' : State} (w : Effect)
    (h : (∃ b, w = .pred b) ∨ s.status.pred = s'.status.pred) :
    (w.apply s').status.pred = (w.apply s).status.pred := by
  cases w with
  | pred b => rfl
  | nothing | reg _ _ | pair _ _ | bank | bytes _ => simpa [Effect.apply, eq_comm] using h

/-- What a byte-producing command writes is its output. -/
theorem effect_of_producesBytes {w : Effect} (hi : producesBytes i = true) (h : effect i s = .ok w) :
    ∃ out, w = .bytes out := by
  cases i with
  | sec1enc rs1 compressed =>
    obtain ⟨-, h⟩ := checkPair_eq_ok_iff.1 h
    exact ⟨_, (Except.ok.inj h).symm⟩
  | b58enc =>
    obtain ⟨-, h⟩ := checkLength_eq_ok_iff.1 h
    exact ⟨_, (Except.ok.inj h).symm⟩
  | b58dec =>
    obtain ⟨-, h⟩ := checkLength_eq_ok_iff.1 h
    obtain ⟨out, -, rfl⟩ := map_eq_ok_iff.1 h
    exact ⟨out, rfl⟩
  | bech32enc =>
    obtain ⟨-, h⟩ := checkLength_eq_ok_iff.1 h
    exact ⟨_, (Except.ok.inj h).symm⟩
  | _ => simp [producesBytes] at hi

theorem effect_pval {rs1 : RegIdx} {w : Effect} (h : effect (.pval rs1) s = .ok w) : ∃ b, w = .pred b := by
  simp only [effect, checkPair_eq_ok_iff, checkModulus_eq_ok_iff] at h
  obtain ⟨-, -, h⟩ := h
  exact ⟨_, (Except.ok.inj h).symm⟩

/-- Two pair checks in a row are one check of both. -/
theorem checkPair_checkPair {α : Type} (r r' : RegIdx) (k : Except ErrCode α) :
    checkPair r (checkPair r' k) = if pairOk r && pairOk r' then k else .error .illegal := by
  unfold checkPair
  cases pairOk r <;> rfl

/-- An ill-formed command ends at its pair checks, which come first (30_encoding.md R96). -/
theorem effect_of_not_wf (i : Instr) (s : State) (h : i.wf = false) : effect i s = .error .illegal := by
  cases i with
  | pdbl rd rs1 | pmul rd rs1 rs2 =>
    simp only [Instr.wf] at h
    simp [effect, checkPair_checkPair, h]
  | padd rd rs1 rs2 =>
    simp only [Instr.wf, Bool.and_assoc] at h
    rw [effect, checkPair_checkPair, checkPair]
    cases hrd : pairOk rd <;> cases hrs1 : pairOk rs1 <;> simp_all
  | pval r | pdecomp r _ _ | ploadg r | sec1dec r | sec1enc r _ =>
    have hr : pairOk r = false := h
    simp [effect, checkPair, hr]
  | _ => simp [Instr.wf] at h

theorem ErrCode.one_le_code (e : ErrCode) : 1 ≤ e.code.toNat := by cases e <;> decide

theorem ErrCode.code_le_eight (e : ErrCode) : e.code.toNat ≤ 8 := by cases e <;> decide

theorem ErrCode.code_ne_zero (e : ErrCode) : e.code ≠ 0#4 := by cases e <;> decide

end Sys2Proof.Machine

namespace Sys2Proof

/-- An ill-formed command breaks no rule of its class but that its pairs be even. -/
theorem check_fields_of_not_wf (i : Instr) (h : i.wf = false) :
    i.opcode.cls.row.check i.fields = some .oddPair := by
  have hflag (b : Bool) : (flagByte b).extractLsb' 1 7 = 0#7 := by cases b <;> rfl
  have hsome : i.opcode.cls.row.check i.fields ≠ none := fun e => by simp [(classAccepts i).1 e] at h
  revert hsome
  cases i <;>
    simp [ClassRow.check, Instr.opcode, Opcode.cls, FormatClass.row, Instr.fields, FieldUse.zeroBroken,
      ClassRow.flagBroken, hflag]

end Sys2Proof
end

section
/-! The rules over every command. -/

namespace Sys2Proof.Machine

open Sys2Proof.Safety

/-- Settles O23: the class finds only the pair broken, and the command's first checks are its pairs'. -/
theorem oddPairsRaiseIllegal : Obligations.OddPairsRaiseIllegal := by
  intro i s hwf
  refine ⟨?_, exec_of_effect_error (effect_of_not_wf i s hwf)⟩
  have hfields : Fields.ofWord (encode i) = i.fields := Fields.ofWord_toWord i.fields
  simp only [decode, hfields, Instr.fields_op, Opcode.ofByte_byte, check_fields_of_not_wf i hwf]

/-- Settles O24: with ERR clear before, a command that did its write leaves ERR clear. -/
theorem errorWritesNothing : Obligations.ErrorWritesNothing := by
  intro i s t _ herr hexec hterr
  rcases exec_eq_next_cases hexec with ⟨w, -, rfl⟩ | ⟨e, -, rfl⟩
  · exact absurd hterr (by simp [herr])
  · exact ⟨e.code, e.code_ne_zero, rfl⟩

/-- Settles O25, by the two ends of a command. -/
theorem completionSetsExactlyOneFlag : Obligations.CompletionSetsExactlyOneFlag := by
  intro i s t hdone herr hexec
  rcases exec_eq_next_cases hexec with ⟨w, -, rfl⟩ | ⟨e, -, rfl⟩
  · exact ⟨rfl, by simp, .inl ⟨rfl, by simp [herr], rfl⟩⟩
  · exact ⟨rfl, rfl, .inr ⟨hdone, rfl, e.one_le_code, e.code_le_eight⟩⟩

/-- Settles O26: the write is within the command's destinations, and an error writes nothing. -/
theorem commandsWriteOnlyTheirDestinations : Obligations.CommandsWriteOnlyTheirDestinations := by
  intro i s t hexec
  rcases exec_eq_next_cases hexec with ⟨w, hw, rfl⟩ | ⟨e, -, rfl⟩
  · have hwithin := effect_within i s w hw
    refine ⟨by simp, by simp, by simp, by simp, by simp, by simp, by simp, by simp, by simp,
      fun r hr => ?_, fun hi => ?_, fun hi => ?_, fun hi => ?_⟩
    · exact Effect.getV_apply hwithin hr
    · exact Effect.apply_curve hwithin hi
    · exact Effect.apply_mem_olen hwithin hi
    · exact Effect.apply_pred hwithin hi
  · exact ⟨rfl, rfl, rfl, rfl, rfl, rfl, rfl, rfl, rfl, fun _ _ => rfl, fun _ => rfl, fun _ => ⟨rfl, rfl⟩,
      fun _ => rfl⟩

/-- Settles O27: an output's bytes are those below the new OLEN, and it fits OBUF. -/
theorem commandsWriteOnlyObufBelowOlen : Obligations.CommandsWriteOnlyObufBelowOlen := by
  intro i s t hwf hexec a ha
  rcases exec_eq_next_cases hexec with ⟨w, hw, rfl⟩ | ⟨e, -, rfl⟩
  · exact Effect.byteAt_apply hwf (effect_within i s w hw) ha
  · rfl

/-- Settles O28: what is written, or the error, is computed from the snapshot, and OLEN and PRED are
written with it or stay. -/
theorem resultDependsOnlyOnTheSnapshot : Obligations.ResultDependsOnlyOnTheSnapshot := by
  intro i s s' t hv hcurve hilen hhlen hmem hepoch hexec
  have hsame : SameSnapshot s s' := ⟨hv, hcurve, hilen, hhlen, hmem, hepoch⟩
  have heffect := effect_congr hsame i
  rcases exec_eq_next_cases hexec with ⟨w, hw, rfl⟩ | ⟨e, he, rfl⟩
  · obtain ⟨hv', hcurve', hmem'⟩ := Effect.apply_congr hsame w
    refine ⟨_, exec_of_effect_ok (heffect ▸ hw), rfl, hv', hcurve', hmem', fun _ hi => ?_,
      fun _ ⟨r, hi⟩ => ?_,
      fun h => Effect.olen_congr w (.inr h), fun h => Effect.pred_congr w (.inr h)⟩
    · exact Effect.olen_congr w (.inl (effect_of_producesBytes hi hw))
    · exact Effect.pred_congr w (.inl (effect_pval (hi ▸ hw)))
  · exact ⟨_, exec_of_effect_error (heffect ▸ he), rfl, hv.symm, hcurve.symm, hmem.symm,
      fun h => absurd h e.code_ne_zero, fun h => absurd h e.code_ne_zero, fun h => h.symm, fun h => h.symm⟩

/-- Settles O29: NOP's write is none. -/
theorem nopOnlyCompletes : Obligations.NopOnlyCompletes := fun _ => exec_of_effect_ok (i := .nop) rfl

end Sys2Proof.Machine
end

section
/-! SUPPORT. The lifecycle: what a transaction and a turn of the engine keep, and the rules of STATUS
(10_state.md section 4, 43_control.md sections 2 and 3). -/

namespace Sys2Proof.Machine

open Sys2Proof.Safety

variable {s t : State}

/-! What is outside the machine: the events to come -/

theorem State.writeIdle_inputs (s : State) (w : Word) (r : Region) : (s.writeIdle w r).inputs = s.inputs := by
  cases r <;> rfl

theorem State.writeCtrl_inputs (s : State) (w : Word) : (s.writeCtrl w).inputs = s.inputs := by
  unfold State.writeCtrl
  split_ifs <;> rfl

theorem State.writeWord_inputs (s : State) (off : BitVec 12) (w : Word) :
    (s.writeWord off w).inputs = s.inputs := by
  rcases s.writeWord_cases off w with ⟨-, h⟩ | ⟨-, h⟩ | ⟨-, -, -, h⟩ | ⟨-, -, -, h⟩
  · rw [h, State.writeCtrl_inputs]
  · rw [h]
  · rw [h]
  · rw [h, State.writeIdle_inputs]

theorem State.transact_inputs (s : State) (tr : Transaction) : (s.transact tr).inputs = s.inputs := by
  rcases s.transact_cases tr with ⟨r, h, -⟩ | ⟨off, -, -, h⟩ | ⟨off, w, -, -, h⟩
  · rw [h]
  · obtain ⟨r, d, hread⟩ := s.hostRead_frame off
    rw [h, hread]
  · rw [h]
    exact s.writeWord_inputs off w

/-- A command ends IDLE and takes no event. -/
theorem exec_next (i : Instr) (s : State) :
    ∃ t, exec i s = .next t ∧ t.status.busy = false ∧ t.inputs = s.inputs := by
  cases h : effect i s with
  | ok w => exact ⟨_, exec_of_effect_ok h, rfl, by simp⟩
  | error e => exact ⟨_, exec_of_effect_error h, rfl, rfl⟩

/-- A turn of the engine leaves it IDLE: the command in flight, if any, completes (43_control.md R267). -/
theorem State.engineTurn_next (s : State) :
    ∃ t, s.engineTurn = .next t ∧ t.status.busy = false ∧ t.inputs = s.inputs := by
  rcases s.engineTurn_cases with ⟨-, h⟩ | ⟨hidle, h⟩
  · rcases s.complete_cases with ⟨i, -, hc⟩ | ⟨e, -, hc⟩
    · rw [h, hc]
      exact exec_next i s
    · exact ⟨_, h.trans hc, rfl, rfl⟩
  · exact ⟨s, h, hidle, rfl⟩

/-- Every step has a next state and takes one event; with none to come it leaves the engine IDLE. -/
theorem step_next (s : State) :
    ∃ t, step s = .next t ∧ t.inputs = s.inputs.tail ∧ (s.inputs = [] → t.status.busy = false) := by
  rcases step_cases s with ⟨hin, h⟩ | ⟨rest, hin, h⟩ | ⟨tr, rest, hin, h⟩ | ⟨rest, hin, h⟩
  · obtain ⟨t, ht, hidle, htin⟩ := s.engineTurn_next
    exact ⟨t, h.trans ht, by rw [htin, hin]; rfl, fun _ => hidle⟩
  · obtain ⟨t, ht, -, htin⟩ := (s.taken rest).engineTurn_next
    exact ⟨t, h.trans ht, by rw [htin, hin]; rfl, by simp [hin]⟩
  · exact ⟨_, h, by rw [State.transact_inputs, hin]; rfl, by simp [hin]⟩
  · exact ⟨_, h, by rw [hin]; rfl, by simp [hin]⟩

/-! The rules of STATUS (10_state.md R32, R33; 60_exceptions.md R281) -/

/-- The part of the invariant that speaks of STATUS. -/
structure StatusRules (st : Status) : Prop where
  busy : st.busy = true → st.done = false ∧ st.err = false ∧ st.errcode = 0#4
  one : ¬(st.done = true ∧ st.err = true)
  done : st.done = true → st.errcode = 0#4
  err : st.err = true → st.errcode ≠ 0#4
  code : st.errcode.toNat ≤ 8

/-- The invariant is the memory's form, the rules of STATUS, and OLEN's bound. -/
theorem inv_iff (s : State) : Inv s ↔ s.mem.wf ∧ StatusRules s.status ∧ s.olen.toNat ≤ obufSize :=
  ⟨fun ⟨hmem, hbusy, hone, hdone, herr, hcode, holen⟩ => ⟨hmem, ⟨hbusy, hone, hdone, herr, hcode⟩, holen⟩,
    fun ⟨hmem, ⟨hbusy, hone, hdone, herr, hcode⟩, holen⟩ => ⟨hmem, hbusy, hone, hdone, herr, hcode, holen⟩⟩

section

variable {st : Status}

theorem StatusRules.issued (st : Status) : StatusRules st.issued := by
  constructor <;> simp

theorem StatusRules.completed (herr : st.err = false) : StatusRules st.completed := by
  constructor <;> simp [herr]

theorem StatusRules.failed (hdone : st.done = false) (e : ErrCode) : StatusRules (st.failed e) := by
  constructor <;> simp [hdone, e.code_ne_zero, e.code_le_eight]

theorem StatusRules.overrun (h : StatusRules st) : StatusRules st.overrun :=
  ⟨h.busy, h.one, h.done, h.err, h.code⟩

/-- A write to STATUS clears flags and sets none. -/
theorem StatusRules.w1c (h : StatusRules st) (w : Word) : StatusRules (st.w1c w) where
  busy hbusy := by
    obtain ⟨hdone, herr, hcode⟩ := h.busy hbusy
    simp [hdone, herr, hcode]
  one := fun ⟨hdone, herr⟩ => h.one ⟨Bool.and_elim_left hdone, Bool.and_elim_left herr⟩
  done hdone := h.done (Bool.and_elim_left hdone)
  err herr := h.err (Bool.and_elim_left herr)
  code := h.code

theorem StatusRules.reset : StatusRules State.reset.status := by
  constructor <;> decide

end

/-- The word of IBUF that an aligned offset names lies inside IBUF (20_memory.md R66, R68). -/
theorem inBuffer_of_regionOf_ibuf {off : BitVec 12} {j : Nat} (h : regionOf off = .ibuf j)
    (halign : off.toNat % 4 = 0) : ∀ i < 4, inBuffer (ibufBase + j + i) := by
  have hj : 0x400 ≤ off.toNat ∧ off.toNat < 0x500 ∧ off.toNat - 0x400 = j := by
    simp only [regionOf, ite_eq_iff, reduceCtorEq, and_false, or_false, false_or, Region.ibuf.injEq] at h
    omega
  intro i hi
  left
  unfold ibufBase ibufSize
  omega

/-- A write while IDLE issues a command, lists a word of IBUF, or touches nothing the invariant speaks of. -/
theorem inv_writeIdle {off : BitVec 12} (h : Inv s) (halign : off.toNat % 4 = 0) (w : Word) :
    Inv (s.writeIdle w (regionOf off)) := by
  obtain ⟨hmem, hst, holen⟩ := (inv_iff s).1 h
  cases hr : regionOf off with
  | cmd => exact (inv_iff _).2 ⟨hmem, StatusRules.issued _, holen⟩
  | ibuf j =>
    exact (inv_iff _).2 ⟨Memory.wf_setBytes _ _ _ (inBuffer_of_regionOf_ibuf hr halign) hmem, hst, holen⟩
  | id | ctrl | status | ilen | hlen | olen | curve _ _ | v _ _ | obuf _ | reserved =>
    exact (inv_iff _).2 ⟨hmem, hst, holen⟩

theorem inv_doReset (s : State) : Inv s.doReset :=
  (inv_iff _).2 ⟨reset_mem_wf, StatusRules.reset, Nat.zero_le _⟩

theorem inv_writeWord {off : BitVec 12} (h : Inv s) (halign : off.toNat % 4 = 0) (w : Word) :
    Inv (s.writeWord off w) := by
  obtain ⟨hmem, hst, holen⟩ := (inv_iff s).1 h
  rcases s.writeWord_cases off w with ⟨-, hw⟩ | ⟨-, hw⟩ | ⟨-, -, -, hw⟩ | ⟨-, -, -, hw⟩
  · rw [hw, State.writeCtrl]
    split_ifs
    · exact inv_doReset s
    · exact (inv_iff _).2 ⟨hmem, hst, holen⟩
  · exact hw ▸ (inv_iff _).2 ⟨hmem, hst.w1c w, holen⟩
  · exact hw ▸ (inv_iff _).2 ⟨hmem, hst.overrun, holen⟩
  · exact hw ▸ inv_writeIdle h halign w

theorem inv_transact (h : Inv s) (tr : Transaction) : Inv (s.transact tr) := by
  have hframe := (inv_iff s).1 h
  rcases s.transact_cases tr with ⟨r, ht, -⟩ | ⟨off, -, -, ht⟩ | ⟨off, w, hacc, -, ht⟩
  · exact ht ▸ (inv_iff _).2 hframe
  · obtain ⟨r, d, hread⟩ := s.hostRead_frame off
    exact ht ▸ hread ▸ (inv_iff _).2 hframe
  · have hw := (inv_iff _).1 (inv_writeWord h ((accessOk_w32_iff off).1 hacc) w)
    exact ht ▸ (inv_iff (s.hostWrite off w)).2 hw

/-- A command in flight ends in a state the rules allow: issue left DONE and ERR clear. -/
theorem inv_exec {i : Instr} (h : Inv s) (hbusy : s.status.busy = true) (hexec : exec i s = .next t) :
    Inv t := by
  obtain ⟨hmem, hst, holen⟩ := (inv_iff s).1 h
  obtain ⟨hdone, herr, -⟩ := hst.busy hbusy
  rcases exec_eq_next_cases hexec with ⟨w, hw, rfl⟩ | ⟨e, -, rfl⟩
  · obtain ⟨hmem', holen'⟩ := Effect.wf_apply hmem holen (effect_within i s w hw)
    exact (inv_iff _).2 ⟨hmem', StatusRules.completed (by simpa using herr), holen'⟩
  · exact (inv_iff _).2 ⟨hmem, StatusRules.failed hdone e, holen⟩

theorem inv_engineTurn (h : Inv s) (ht : s.engineTurn = .next t) : Inv t := by
  rcases s.engineTurn_cases with ⟨hbusy, hturn⟩ | ⟨-, hturn⟩
  · rw [hturn] at ht
    rcases s.complete_cases with ⟨i, -, hc⟩ | ⟨e, -, hc⟩
    · exact inv_exec h hbusy (hc.symm.trans ht)
    · obtain ⟨hmem, hst, holen⟩ := (inv_iff s).1 h
      obtain ⟨hdone, -, -⟩ := hst.busy hbusy
      obtain rfl := Host.Outcome.next.inj (hc.symm.trans ht)
      exact (inv_iff _).2 ⟨hmem, StatusRules.failed hdone .illegal, holen⟩
  · obtain rfl := Host.Outcome.next.inj (hturn.symm.trans ht)
    exact h

theorem inv_taken (h : Inv s) (rest : List Event) : Inv (s.taken rest) := (inv_iff _).2 ((inv_iff s).1 h)

/-- A CTRL write with SRST = 1 is the soft reset (10_state.md R29). -/
theorem State.writeCtrl_of_srst {w : Word} (h : w.getLsbD 1 = true) : s.writeCtrl w = s.doReset := if_pos h

/-- A CTRL write with SRST = 0 sets IE (10_state.md R28). -/
theorem State.writeCtrl_of_no_srst {w : Word} (h : w.getLsbD 1 = false) :
    s.writeCtrl w = { s with ie := w.getLsbD 0 } := if_neg (by rw [h]; decide)

/-- While BUSY a word written changes STATUS or IE at most, unless it is a soft reset (70_reset_and_hazards.md
R331, R332). -/
theorem State.writeWord_of_busy_frame {off : BitVec 12} {w : Word} (hbusy : s.status.busy = true)
    (hsoft : off = 0x004#12 → w.getLsbD 1 = false) :
    ∃ st ie, st.busy = true ∧ s.writeWord off w = { s with status := st, ie := ie } := by
  rcases s.writeWord_cases off w with ⟨hr, h⟩ | ⟨-, h⟩ | ⟨-, -, -, h⟩ | ⟨-, -, hidle, -⟩
  · have hbit := hsoft ((regionOf_eq_ctrl_iff off).1 hr)
    exact ⟨s.status, w.getLsbD 0, hbusy, by rw [h, State.writeCtrl_of_no_srst hbit]⟩
  · exact ⟨s.status.w1c w, s.ie, hbusy, h⟩
  · exact ⟨s.status.overrun, s.ie, hbusy, h⟩
  · simp [hbusy] at hidle

/-- While BUSY a transaction that is no soft reset changes only STATUS, IE and the model's own fields. -/
theorem State.transact_of_busy_frame {tr : Transaction} (hbusy : s.status.busy = true)
    (hsoft : ∀ w, tr = .write (.window 0x004#12) .w32 w → w.getLsbD 1 = false) :
    ∃ st ie r d, st.busy = true ∧
      s.transact tr = { s with status := st, ie := ie, resp := r, draws := d } := by
  rcases s.transact_cases tr with ⟨r, h, -⟩ | ⟨off, -, -, h⟩ | ⟨off, w, -, htr, h⟩
  · exact ⟨s.status, s.ie, some r, s.draws, hbusy, h⟩
  · obtain ⟨r, d, hread⟩ := s.hostRead_frame off
    exact ⟨s.status, s.ie, r, d, hbusy, h.trans hread⟩
  · obtain ⟨st, ie, hst, hw⟩ := State.writeWord_of_busy_frame hbusy fun e => hsoft w (e ▸ htr)
    exact ⟨st, ie, some .ok, s.draws, hst, by rw [h, State.hostWrite, hw]⟩

end Sys2Proof.Machine
end

section
/-! The statements of 43_control.md and 70_reset_and_hazards.md about the lifecycle: the engine's turn,
the writes of the control registers, both resets, the invariant, and that every run ends IDLE. -/

namespace Sys2Proof.Machine

open Sys2Proof.Safety

/-- Settles O15: each of the four kinds of step keeps the invariant, and a command only has to keep it
from a BUSY state, where issue left the flags clear. -/
theorem everyStepKeepsTheInvariant : Obligations.EveryStepKeepsTheInvariant := by
  intro s t h hstep
  rcases step_cases s with ⟨-, hs⟩ | ⟨rest, -, hs⟩ | ⟨tr, rest, -, hs⟩ | ⟨rest, -, hs⟩
  · exact inv_engineTurn h (hs.symm.trans hstep)
  · exact inv_engineTurn (inv_taken h rest) (hs.symm.trans hstep)
  · obtain rfl := Host.Outcome.next.inj (hs.symm.trans hstep)
    exact inv_transact (inv_taken h rest) tr
  · obtain rfl := Host.Outcome.next.inj (hs.symm.trans hstep)
    exact inv_doReset _

/-- Settles O14: the reset state lists no byte and has no flag set. -/
theorem resetMeetsTheInvariant : Obligations.ResetMeetsTheInvariant :=
  (inv_iff _).2 ⟨reset_mem_wf, StatusRules.reset, Nat.zero_le _⟩

/-- Settles O8: the transaction's frame while BUSY holds nothing that a command reads. -/
theorem transactionsWhileBusyKeepTheSnapshot : Obligations.TransactionsWhileBusyKeepTheSnapshot := by
  intro s tr rest hbusy hin hsoft
  obtain ⟨st, ie, r, d, hst, h⟩ := State.transact_of_busy_frame (s := s.taken rest) hbusy hsoft
  have hstep : step s = .next ((s.taken rest).transact tr) := by simp only [step, hin]
  exact ⟨_, hstep.trans (congrArg _ h), hst, rfl, rfl, rfl, rfl, rfl, rfl, rfl, rfl⟩

/-- Settles O13: each step takes one event, and the step past the last leaves the engine IDLE. -/
theorem everyRunEndsIdle : Obligations.EveryRunEndsIdle := by
  refine ⟨fun s => ?_, fun s => ?_⟩
  · obtain ⟨t, h, -⟩ := step_next s
    exact ⟨t, h⟩
  · induction hin : s.inputs generalizing s with
    | nil =>
      obtain ⟨t, h, htail, hidle⟩ := step_next s
      exact ⟨t, run_succ_of_step_next 0 h, hidle hin, by rw [htail, hin]; rfl⟩
    | cons e rest ih =>
      obtain ⟨t, h, htail, -⟩ := step_next s
      have htin : t.inputs = rest := by rw [htail, hin]; rfl
      obtain ⟨u, hrun, hidle, huin⟩ := ih t htin
      exact ⟨u, (run_succ_of_step_next _ h).trans (by simpa [htin] using hrun), hidle, huin⟩

/-- Settles O5: the engine's turn while BUSY is the completion, which decodes CMD. -/
theorem stepRunsTheDecodedCommand : Obligations.StepRunsTheDecodedCommand := by
  intro s i hbusy hdec
  have hturn (s : State) (hbusy : s.status.busy = true) (hdec : decode s.cmd = .ok i) :
      s.engineTurn = exec i s := by
    simp only [State.engineTurn, hbusy, if_true, State.complete, hdec]
  refine ⟨fun rest hin => ?_, fun hin => ?_⟩
  · simp only [step, hin]
    exact hturn (s.taken rest) hbusy hdec
  · simp only [step, hin]
    exact hturn s hbusy hdec

/-- Settles O6: each offset is its register's by the address map, and the write has its effect. -/
theorem writesOfCmdIlenHlenWhileIdle : Obligations.WritesOfCmdIlenHlenWhileIdle := by
  intro s w rest hidle
  have hlow : w.setWidth 16 = w.extractLsb' 0 16 := BitVec.setWidth_eq_extractLsb' (by decide)
  refine ⟨fun hin => ?_, fun hin => ?_, fun hin => ?_⟩
  · rw [step_cmdWrite_of_idle hidle hin]
    rfl
  · have hreg : regionOf 0x010#12 = .ilen := rfl
    rw [step_busWrite_of_idle hidle (by decide) (by simp [hreg]) (by simp [hreg]) hin, hreg, ← hlow]
    rfl
  · have hreg : regionOf 0x014#12 = .hlen := rfl
    rw [step_busWrite_of_idle hidle (by decide) (by simp [hreg]) (by simp [hreg]) hin, hreg, ← hlow]
    rfl

/-- With DONE and ERR clear, a write to STATUS can only clear OVR. -/
theorem Status.w1c_of_clear {st : Status} {w : Word} (hdone : st.done = false) (herr : st.err = false) :
    st.w1c w = { st with ovr := st.ovr && !w.getLsbD 3 } := by
  simp [Status.w1c, hdone, herr]

/-- A write to STATUS is taken in any phase (10_state.md R36). -/
theorem step_statusWrite {s : State} {w : Word} {rest : List Event}
    (hin : s.inputs = busWrite 0x008#12 w :: rest) :
    step s = .next { s with inputs := rest, resp := some .ok, status := s.status.w1c w } :=
  step_busWrite (by decide) hin

/-- A write to CTRL is taken in any phase (10_state.md R28, R29). -/
theorem step_ctrlWrite {s : State} {w : Word} {rest : List Event}
    (hin : s.inputs = busWrite 0x004#12 w :: rest) :
    step s = .next { (s.taken rest).writeCtrl w with resp := some .ok } :=
  step_busWrite (by decide) hin

/-- The reset input is taken in any phase (70_reset_and_hazards.md R320). -/
theorem step_reset {s : State} {rest : List Event} (hin : s.inputs = .reset :: rest) :
    step s = .next (s.taken rest).doReset := by
  simp only [step, hin]

/-- Settles O10: the write is `w1c`; while BUSY the rules leave DONE and ERR clear already. -/
theorem statusWriteOnlyClears : Obligations.StatusWriteOnlyClears := by
  intro s w rest hin
  refine ⟨step_statusWrite hin, fun hinv hbusy => ?_⟩
  obtain ⟨hdone, herr, -⟩ := hinv.busy hbusy
  rw [step_statusWrite hin, Status.w1c_of_clear hdone herr]

/-- Settles O11: both resets are `doReset`, and the CTRL write does it exactly when SRST is 1. -/
theorem bothResetsGiveTheResetState : Obligations.BothResetsGiveTheResetState := by
  refine ⟨fun s rest hin => step_reset hin, fun s w rest hin hsrst => ?_, fun s w rest hin hsrst => ?_⟩
  · rw [step_ctrlWrite hin, State.writeCtrl_of_srst hsrst]
    rfl
  · rw [step_ctrlWrite hin, State.writeCtrl_of_no_srst hsrst]
    rfl

/-- Settles O12: each register's value by its row of the table, and each byte unlisted. -/
theorem resetLeavesTheTableValues : Obligations.ResetLeavesTheTableValues := by
  have hregs (r : RegIdx) : State.reset.getV r = 0#256 := by simp [State.getV, State.reset]
  exact ⟨rfl, rfl, rfl, rfl, rfl, rfl, rfl, hregs, by decide, rfl, rfl, rfl, rfl, rfl, rfl, fun _ _ => rfl,
    fun _ _ => rfl⟩

/-- Settles O22: the output is defined by its flags, and each event's effect on them is the write's. -/
theorem interruptFollowsItsFlags : Obligations.InterruptFollowsItsFlags := by
  refine ⟨fun s => by simp [State.irq], fun s w rest hflag hin hie hsrst => ?_,
    fun s w rest hin hdone herr => ?_,
    fun s w rest hidle hin => ?_, fun s w rest hin hie => ?_, fun s rest hin => ?_⟩
  · refine ⟨_, step_ctrlWrite hin, ?_⟩
    simpa only [State.writeCtrl_of_no_srst hsrst, State.irq, hie, Bool.true_and, Bool.or_eq_true,
      State.taken_status] using hflag
  · exact ⟨_, step_statusWrite hin, by simp [State.irq, hdone, herr]⟩
  · exact ⟨_, step_cmdWrite_of_idle hidle hin, by simp [State.irq]⟩
  · refine ⟨_, step_ctrlWrite hin, ?_⟩
    cases hsrst : w.getLsbD 1 with
    | true => simp [State.writeCtrl_of_srst hsrst, State.irq, State.reset]
    | false => simp only [State.writeCtrl_of_no_srst hsrst, State.irq, hie, Bool.false_and]
  · exact ⟨_, step_reset hin, by simp [State.irq, State.reset]⟩

end Sys2Proof.Machine
end

section
/-! The statements of 20_memory.md sections 2 and 3 and 10_state.md section 7 about accesses: bus errors,
reserved and read-only offsets, reads in both phases, the layout of STATUS. -/

namespace Sys2Proof.Machine

open Sys2Proof.Safety

variable {s : State} {off : BitVec 12} {rest : List Event}

/-- An access of another width or alignment is not taken (20_memory.md R62, R63). -/
theorem accessOk_eq_false {width : Width} (h : off.toNat % 4 ≠ 0 ∨ width ≠ .w32) :
    accessOk off width = false := by
  rcases h with hoff | hwidth
  · cases width with
    | w32 => simpa using mt (accessOk_w32_iff off).1 hoff
    | w8 | w16 | w64 | burst => rfl
  · cases width with
    | w32 => exact absurd rfl hwidth
    | w8 | w16 | w64 | burst => rfl

/-- What the map finds outside the data plane: the reserved ranges. -/
theorem regionOf_reserved (h : (0x01C ≤ off.toNat ∧ off.toNat < 0x040) ∨
    (0x300 ≤ off.toNat ∧ off.toNat < 0x400) ∨
    (0x500 ≤ off.toNat ∧ off.toNat < 0x800) ∨ 0xA00 ≤ off.toNat) : regionOf off = .reserved := by
  have := off.isLt
  simp only [regionOf, ite_eq_iff, reduceCtorEq, and_false, and_true, false_or]
  omega

/-- A location whose reads are exact in both phases reads as its word, which nothing else changes with
(10_state.md R53). -/
theorem step_busRead_of_exact (hexact : (regionOf off).drawsWhileBusy = false) (halign : off.toNat % 4 = 0)
    (hin : s.inputs = busRead off :: rest) :
    step s = .next { s with inputs := rest, resp := some (.data (s.readRegion (regionOf off))) } := by
  simp only [step, hin, busRead, State.transact, (accessOk_w32_iff off).2 halign, if_true,
    State.hostRead, hexact, State.readRegion_taken, Bool.false_eq_true, and_false, if_false]
  rfl

/-- A location of the data plane reads while BUSY as a fresh draw (70_reset_and_hazards.md R333). -/
theorem step_busRead_of_busy (hdraws : (regionOf off).drawsWhileBusy = true) (hbusy : s.status.busy = true)
    (halign : off.toNat % 4 = 0) (hin : s.inputs = busRead off :: rest) :
    step s = .next { s with
      inputs := rest, draws := s.draws + 1
      resp := some (.data ((regionOf off).drawn (Config.busyDraw s.draws))) } := by
  simp only [step, hin, busRead, State.transact, (accessOk_w32_iff off).2 halign, if_true,
    State.hostRead, hdraws, State.taken_status, hbusy, and_true]
  rfl

/-- A write while IDLE of a location that no write changes is ignored and answers success. -/
theorem step_busWrite_of_ignored {w : Word} (hidle : s.status.busy = false) (halign : off.toNat % 4 = 0)
    (hctrl : regionOf off ≠ .ctrl) (hstatus : regionOf off ≠ .status)
    (hnone : (s.taken rest).writeIdle w (regionOf off) = s.taken rest)
    (hin : s.inputs = busWrite off w :: rest) :
    step s = .next { s with inputs := rest, resp := some .ok } := by
  rw [step_busWrite_of_idle hidle halign hctrl hstatus hin, hnone]
  rfl

/-- What the map finds in the data plane draws while BUSY, and shows a draw as it is. -/
theorem regionOf_draws (h : (0x040 ≤ off.toNat ∧ off.toNat < 0x300) ∨
    (0x400 ≤ off.toNat ∧ off.toNat < 0x500) ∨
    (0x800 ≤ off.toNat ∧ off.toNat < 0xA00)) :
    (regionOf off).drawsWhileBusy = true ∧ ∀ d, (regionOf off).drawn d = d := by
  obtain ⟨hcurve, hv, hibuf, hobuf⟩ := regionOf_dataPlane off
  rcases h with ⟨hlo, hhi⟩ | ⟨hlo, hhi⟩ | ⟨hlo, hhi⟩
  · rcases Nat.lt_or_ge off.toNat 0x100 with hlt | hge
    · rw [hcurve hlo hlt]
      exact ⟨rfl, fun _ => rfl⟩
    · rw [hv hge hhi]
      exact ⟨rfl, fun _ => rfl⟩
  · rw [hibuf hlo hhi]
    exact ⟨rfl, fun _ => rfl⟩
  · rw [hobuf hlo hhi]
    exact ⟨rfl, fun _ => rfl⟩

/-- A 16-bit field reads with its reserved bits 0 (10_state.md R26). -/
theorem setWidth_16_32 (x : BitVec 16) : x.setWidth 32 = 0#16 ++ x := by
  show x.setWidth (16 + 16) = 0#16 ++ x
  apply BitVec.eq_of_getLsbD_eq
  intro i hi
  rw [BitVec.getLsbD_setWidth, BitVec.getLsbD_append, decide_eq_true hi, Bool.true_and]
  split_ifs with h
  · rfl
  · rw [BitVec.getLsbD_of_ge x i (by omega), BitVec.getLsbD_zero]

/-- Settles O16: the access is not taken, and the answer is all that is left of it. -/
theorem busErrorChangesNothing : Obligations.BusErrorChangesNothing := by
  intro s off width w rest h
  have hno := accessOk_eq_false h
  refine ⟨fun hin => ?_, fun hin => ?_⟩
  · simp only [step, hin, State.transact, hno, Bool.false_eq_true, if_false]
    rfl
  · simp only [step, hin, State.transact, hno, Bool.false_eq_true, if_false]
    rfl

/-- Settles O17: the map finds a location there that reads exactly and that no write changes. -/
theorem reservedAndReadOnlyOffsets : Obligations.ReservedAndReadOnlyOffsets := by
  intro s off w rest halign
  refine ⟨fun hoff hin => ?_, fun hoff hidle hin => ?_⟩
  · have hreg := regionOf_reserved hoff
    rw [step_busRead_of_exact (by rw [hreg]; rfl) halign hin, hreg]
    rfl
  · have ignored (r : Region) (hreg : regionOf off = r) (hctrl : r ≠ .ctrl) (hstatus : r ≠ .status)
        (hnone : (s.taken rest).writeIdle w r = s.taken rest) :
        step s = .next { s with inputs := rest, resp := some .ok } :=
      step_busWrite_of_ignored hidle halign (hreg ▸ hctrl) (hreg ▸ hstatus) (hreg ▸ hnone) hin
    have hoff' : ((0x01C ≤ off.toNat ∧ off.toNat < 0x040) ∨ (0x300 ≤ off.toNat ∧ off.toNat < 0x400) ∨
        (0x500 ≤ off.toNat ∧ off.toNat < 0x800) ∨ 0xA00 ≤ off.toNat) ∨ off = 0x000#12 ∨ off = 0x018#12 ∨
        (0x800 ≤ off.toNat ∧ off.toNat < 0xA00) := by bv_omega
    rcases hoff' with hres | rfl | rfl | ⟨hlo, hhi⟩
    · exact ignored .reserved (regionOf_reserved hres) (by simp) (by simp) rfl
    · exact ignored .id rfl (by simp) (by simp) rfl
    · exact ignored .olen rfl (by simp) (by simp) rfl
    · obtain ⟨-, -, -, hobuf⟩ := regionOf_dataPlane off
      exact ignored _ (hobuf hlo hhi) (by simp) (by simp) rfl

/-- Settles O20: each register's region by the address map, and whether its reads draw while BUSY. -/
theorem readsInBothPhases : Obligations.ReadsInBothPhases := by
  intro s off rest halign hin
  refine ⟨?_, ?_, ?_, ?_, ?_, ?_, ?_, ?_, fun hoff hbusy => ?_⟩
  · rintro rfl
    exact step_busRead_of_exact rfl halign hin
  · rintro rfl
    have hctrl : s.readRegion .ctrl = if s.ie then 1#32 else 0#32 := by
      unfold State.readRegion
      cases s.ie <;> rfl
    rw [← hctrl]
    exact step_busRead_of_exact rfl halign hin
  · rintro rfl
    exact step_busRead_of_exact rfl halign hin
  · rintro rfl
    exact step_busRead_of_exact rfl halign hin
  · rintro rfl
    rw [← setWidth_16_32]
    exact step_busRead_of_exact rfl halign hin
  · rintro rfl
    rw [← setWidth_16_32]
    exact step_busRead_of_exact rfl halign hin
  · rintro rfl hidle
    rw [← setWidth_16_32]
    exact step_busRead_of_idle hidle halign hin
  · rintro rfl hbusy
    rw [← setWidth_16_32, ← BitVec.setWidth_eq_extractLsb' (by decide)]
    exact step_busRead_of_busy rfl hbusy halign hin
  · obtain ⟨hdraws, hdrawn⟩ := regionOf_draws hoff
    rw [step_busRead_of_busy hdraws hbusy halign hin, hdrawn]

/-- The word of STATUS, field by field from the low end. -/
theorem Status.getLsbD_word (st : Status) (i : Nat) :
    st.word.getLsbD i =
      if i < 1 then (BitVec.ofBool st.busy).getLsbD i
      else if i - 1 < 1 then (BitVec.ofBool st.done).getLsbD (i - 1)
      else if i - 1 - 1 < 1 then (BitVec.ofBool st.err).getLsbD (i - 1 - 1)
      else if i - 1 - 1 - 1 < 1 then (BitVec.ofBool st.ovr).getLsbD (i - 1 - 1 - 1)
      else if i - 1 - 1 - 1 - 1 < 1 then (BitVec.ofBool st.pred).getLsbD (i - 1 - 1 - 1 - 1)
      else if i - 1 - 1 - 1 - 1 - 1 < 3 then (0#3).getLsbD (i - 1 - 1 - 1 - 1 - 1)
      else if i - 1 - 1 - 1 - 1 - 1 - 3 < 4 then st.errcode.getLsbD (i - 1 - 1 - 1 - 1 - 1 - 3)
      else (0#20).getLsbD (i - 1 - 1 - 1 - 1 - 1 - 3 - 4) := by
  show BitVec.getLsbD (w := 20 + 4 + 3 + 1 + 1 + 1 + 1 + 1)
    (0#20 ++ st.errcode ++ 0#3 ++ BitVec.ofBool st.pred ++
    BitVec.ofBool st.ovr ++ BitVec.ofBool st.err ++ BitVec.ofBool st.done ++ BitVec.ofBool st.busy) i = _
  simp only [BitVec.getLsbD_append]

/-- Settles O21: each bit of the word stands in its field. -/
theorem statusWordLayout : Obligations.StatusWordLayout := by
  intro st
  have field {n : Nat} (a : Nat) (x : BitVec n) (h : ∀ i < n, st.word.getLsbD (a + i) = x.getLsbD i) :
      st.word.extractLsb' a n = x := by
    apply BitVec.eq_of_getLsbD_eq
    intro i hi
    rw [BitVec.getLsbD_extractLsb', h i hi, decide_eq_true hi, Bool.true_and]
  have bit (a : Nat) (b : Bool) (h : st.word.getLsbD a = (BitVec.ofBool b).getLsbD 0) :
      st.word.getLsbD a = b := by
    cases b <;> exact h
  refine ⟨bit 0 _ (st.getLsbD_word 0), bit 1 _ (st.getLsbD_word 1), bit 2 _ (st.getLsbD_word 2),
    bit 3 _ (st.getLsbD_word 3), bit 4 _ (st.getLsbD_word 4), field 8 _ fun i hi => ?_,
      field 5 _ fun i hi => ?_,
    field 12 _ fun i hi => ?_⟩
  · rw [st.getLsbD_word]
    interval_cases i <;> rfl
  · rw [st.getLsbD_word]
    interval_cases i <;> rfl
  · rw [st.getLsbD_word]
    interval_cases i <;> rfl

end Sys2Proof.Machine
end

section
/-! SUPPORT. The output of a byte-producing command, and the host's copy of it (10_state.md R40, R49). -/

namespace Sys2Proof.Machine

open Sys2Proof.Safety

variable {s : State} {out : List Byte}

theorem ibytes_zero (s : State) (n : Nat) : s.ibytes 0 n = (List.range n).map s.ibuf := by
  simp [State.ibytes]

/-- Byte j of OBUF after an output is byte j of the output. -/
theorem State.obuf_output (hwf : s.mem.wf) (hlen : out.length ≤ obufSize) {j : Nat} {b : Byte}
    (hj : out[j]? = some b) : (s.output out).succeed.obuf j = b := by
  obtain ⟨hrising, -⟩ := hwf
  obtain ⟨hlt, hb⟩ := List.getElem?_eq_some_iff.1 hj
  rw [State.obuf, State.succeed_byteAt, State.byteAt_output s out _ hrising hlen,
    dif_pos ⟨Nat.le_add_right _ _, Nat.add_lt_add_left hlt _⟩]
  simpa using hb

/-- An output that fits OBUF: the state it leaves, its length, and the bytes it leaves alone. -/
theorem State.output_spec (hwf : s.mem.wf) (hlen : out.length ≤ obufSize) :
    (s.output out).succeed = { s with
      mem := (s.output out).succeed.mem, olen := BitVec.ofNat 16 out.length, status := doneStatus s.status } ∧
    (s.output out).succeed.olen.toNat = out.length ∧
    ∀ a : Nat, ¬(0x800 ≤ a ∧ a < 0x800 + out.length) → (s.output out).succeed.byteAt a = s.byteAt a :=
  ⟨rfl, s.output_olen_toNat hlen, fun _ ha => s.byteAt_output_of_outside hwf hlen ha⟩

/-- What the host copies from OBUF to IBUF is the output. -/
theorem ibytes_of_copied {u : State} (hwf : s.mem.wf) (hlen : out.length ≤ obufSize)
    (hcopy : ∀ j < out.length, u.ibuf j = (s.output out).succeed.obuf j) {j n : Nat}
    (h : j + n ≤ out.length) :
    u.ibytes j n = (out.drop j).take n := by
  refine List.ext_getElem (by simp [length_ibytes]; omega) fun i hi _ => ?_
  rw [length_ibytes] at hi
  have hout : out[j + i]? = some out[j + i] := List.getElem?_eq_getElem (by omega)
  simp only [State.ibytes, List.getElem_map, List.getElem_range, List.getElem_take, List.getElem_drop]
  rw [hcopy (j + i) (by omega), State.obuf_output hwf hlen hout]

theorem ibytes_all_of_copied {u : State} (hwf : s.mem.wf) (hlen : out.length ≤ obufSize)
    (hcopy : ∀ j < out.length, u.ibuf j = (s.output out).succeed.obuf j) : u.ibytes 0 out.length = out := by
  rw [ibytes_of_copied hwf hlen hcopy (by omega), List.drop_zero, List.take_length]

/-- The leading bytes of a string, counted, are the leading bytes of its reading. -/
theorem leadingCount_leading (f : Nat → Byte) (n : Nat) (b : Byte) :
    LeadingCount f n b (leading b ((List.range n).map f)) := by
  induction n generalizing f with
  | zero => exact ⟨Nat.le_refl 0, fun j hj => absurd hj (Nat.not_lt_zero j), fun h => absurd h (by simp)⟩
  | succ n ih =>
    obtain ⟨hle, heq, hne⟩ := ih (f ∘ Nat.succ)
    have hsplit : (List.range (n + 1)).map f = f 0 :: (List.range n).map (f ∘ Nat.succ) := by
      rw [List.range_succ_eq_map, List.map_cons, List.map_map]
    by_cases h0 : f 0 = b
    · have hlead : leading b ((List.range (n + 1)).map f) =
          leading b ((List.range n).map (f ∘ Nat.succ)) + 1 := by
        simp [hsplit, leading, h0]
      rw [hlead]
      refine ⟨by omega, fun j hj => ?_, fun hlt => hne (by omega)⟩
      cases j with
      | zero => exact h0
      | succ j => exact heq j (by omega)
    · have hlead : leading b ((List.range (n + 1)).map f) = 0 := by simp [hsplit, leading, h0]
      rw [hlead]
      exact ⟨by omega, fun j hj => absurd hj (Nat.not_lt_zero j), fun _ => h0⟩

theorem effect_b58enc (h : s.ilen.toNat ≤ ibufSize) :
    effect .b58enc s = .ok (.bytes (b58Encode (s.ibytes 0 s.ilen.toNat))) :=
  checkLength_eq_ok_iff.2 ⟨h, rfl⟩

theorem effect_b58dec {out : List Byte} (h : s.ilen.toNat ≤ ibufSize)
    (hout : b58Decode (s.ibytes 0 s.ilen.toNat) = some out) : effect .b58dec s = .ok (.bytes out) :=
  checkLength_eq_ok_iff.2 ⟨h, map_eq_ok_iff.2 ⟨out, decodeText_eq_ok_iff.2 hout, rfl⟩⟩

/-- A B58DEC that did its write has decoded a text that is not too long. -/
theorem effect_b58dec_eq_ok {w : Effect} (h : effect .b58dec s = .ok w) :
    s.ilen.toNat ≤ ibufSize ∧ ∃ out, b58Decode (s.ibytes 0 s.ilen.toNat) = some out ∧ w = .bytes out := by
  obtain ⟨hn, h⟩ := checkLength_eq_ok_iff.1 h
  obtain ⟨out, hout, rfl⟩ := map_eq_ok_iff.1 h
  exact ⟨hn, out, decodeText_eq_ok_iff.1 hout, rfl⟩

theorem effect_bech32enc (h : s.hlen.toNat + s.ilen.toNat ≤ ibufSize) :
    effect .bech32enc s =
      .ok (.bytes (bech32Encode (s.ibytes 0 s.hlen.toNat) (s.ibytes s.hlen.toNat s.ilen.toNat))) :=
  checkLength_eq_ok_iff.2 ⟨h, rfl⟩

/-- The round trip of a byte string: its text decodes to it (42_codec.md R233). -/
theorem b58Decode_b58Encode (bs : List Byte) : b58Decode (b58Encode bs) = some bs := by
  have hlt : ∀ d ∈ transcode 256 58 (bs.map BitVec.toNat), d < 58 :=
    fun d hd => lt_of_mem_numeral (by decide) hd
  have hbytes : ∀ d ∈ bs.map BitVec.toNat, d < 256 := fun d hd => lt_of_mem_map_toNat hd
  rw [b58Encode_eq, b58Decode_map hlt, transcode_transcode (by decide) (by decide) hbytes,
    map_ofNat_map_toNat]

/-- The round trip of a text: the text of what it decodes to is the text (42_codec.md R233). -/
theorem b58Encode_of_b58Decode {text out : List Byte} (h : b58Decode text = some out) :
    b58Encode out = text := by
  rcases b58_text_cases text with ⟨ds, hds, rfl⟩ | ⟨c, hc, hnone⟩
  · have hlt : ∀ d ∈ transcode 58 256 ds, d < 256 := fun d hd => lt_of_mem_numeral (by decide) hd
    rw [b58Decode_map hds] at h
    obtain rfl := Option.some.inj h
    rw [b58Encode_eq, map_toNat_map_ofNat hlt, transcode_transcode (by decide) (by decide) hds]
  · simp [b58Decode_eq_none hc hnone] at h

/-- A byte string with no leading zero digit has no leading zero byte. -/
theorem head?_map_ofNat_ne_zero {ds : List Nat} (hlt : ∀ d ∈ ds, d < 256) (h : ds.head? ≠ some 0) :
    (ds.map (BitVec.ofNat 8)).head? ≠ some 0x00#8 := by
  cases ds with
  | nil => simp
  | cons d ds =>
    have hd : d < 256 := hlt d List.mem_cons_self
    have hne : d ≠ 0 := by simpa using h
    intro he
    have hz : BitVec.ofNat 8 d = 0x00#8 := by simpa using he
    have hmod := congrArg BitVec.toNat hz
    rw [BitVec.toNat_ofNat, Nat.mod_eq_of_lt hd] at hmod
    exact hne hmod

theorem map_getD_range (bs : List Byte) (b : Byte) :
    (List.range bs.length).map (fun i => bs.getD i b) = bs := by
  refine List.ext_getElem (by simp) fun i _ h => ?_
  simp [h]

end Sys2Proof.Machine
end

section
/-! The statements of 42_codec.md. -/

namespace Sys2Proof.Machine

open Sys2Proof.Safety

/-- Settles O53, by evaluation of the two tables. -/
theorem alphabetsAreTheSpecsStrings : Obligations.AlphabetsAreTheSpecsStrings := by
  unfold Obligations.AlphabetsAreTheSpecsStrings
  decide

/-- Settles O55: the text is the leading '1's and then the characters of the digits, in at most 350
places. -/
theorem b58encWritesTheDigits : Obligations.B58encWritesTheDigits := by
  intro s hwf hn
  set bs := s.ibytes 0 s.ilen.toNat with hbs
  set ds := digits 58 (beInt bs) with hds
  have hout : b58Encode bs = List.replicate (leading 0x00#8 bs) 0x31#8 ++ ds.map b58Char := rfl
  have hlen : (b58Encode bs).length = leading 0x00#8 bs + ds.length := by simp [hout]
  have hle : (b58Encode bs).length ≤ 350 := length_b58Encode_le (by rwa [hbs, length_ibytes])
  have hfits : (b58Encode bs).length ≤ obufSize := hle.trans (by decide)
  obtain ⟨hstate, holen, hframe⟩ := State.output_spec hwf hfits
  have hcount : LeadingCount s.ibuf s.ilen.toNat 0x00#8 (leading 0x00#8 bs) := by
    rw [hbs, ibytes_zero]
    exact leadingCount_leading _ _ _
  have hval : Nat.ofDigits 58 ds.reverse = beValue s.ibuf s.ilen.toNat := by
    rw [hds, ofDigits_digits_reverse _ (by decide), beValue_eq_beInt, hbs, ibytes_zero]
  rw [hlen] at hstate holen hframe hle
  refine ⟨_, leading 0x00#8 bs, ds, exec_of_effect_ok (effect_b58enc hn), hcount,
    fun d hd => lt_of_mem_digits (by decide) hd, head?_digits_ne_zero _ (by decide), hval, hstate, holen, hle,
    fun j hj => ?_, fun j hj => ?_, hframe⟩
  · refine State.obuf_output hwf hfits ?_
    rw [hout, List.getElem?_append_left (by simpa using hj), List.getElem?_replicate, if_pos hj]
  · refine State.obuf_output hwf hfits ?_
    rw [hout, List.getElem?_append_right (by simp)]
    simp [hj]

/-- Settles O56: a valid text is the characters of its indices, and its bytes are leading zeros and the
minimal bytes of the value; one byte outside the alphabet leaves a text without a value. -/
theorem b58decWritesTheBytes : Obligations.B58decWritesTheBytes := by
  intro s hwf hn
  refine ⟨fun idx hidx => ?_, fun j hj hno => ?_⟩
  · set ds := (List.range s.ilen.toNat).map idx with hdsdef
    set v := Nat.ofDigits 58 ds.reverse with hv
    have hds : ∀ d ∈ ds, d < 58 := by
      intro d hd
      obtain ⟨j, hj, rfl⟩ := List.mem_map.1 hd
      obtain ⟨hlt, -⟩ := hidx j (List.mem_range.1 hj)
      exact hlt
    have htext : s.ibytes 0 s.ilen.toNat = ds.map b58Char := by
      rw [ibytes_zero, hdsdef, List.map_map]
      refine List.map_congr_left fun j hj => ?_
      obtain ⟨-, hchar⟩ := hidx j (List.mem_range.1 hj)
      exact hchar.symm
    have hcount : LeadingCount s.ibuf s.ilen.toNat 0x31#8 (leadingZeros ds) := by
      rw [← leading_one_char hds, ← htext, ibytes_zero]
      exact leadingCount_leading _ _ _
    have hdec : b58Decode (s.ibytes 0 s.ilen.toNat) =
        some (List.replicate (leadingZeros ds) 0x00#8 ++ minimalBe v) := by
      rw [htext, b58Decode_map hds, transcode, numeral, List.map_append, List.map_replicate]
      rfl
    have hdig : ∀ d ∈ digits 256 v, d < 256 := fun d hd => lt_of_mem_digits (by decide) hd
    have hval : beValue (fun i => (minimalBe v).getD i 0x00#8) (minimalBe v).length =
        ∑ i ∈ Finset.range s.ilen.toNat, idx i * 58 ^ (s.ilen.toNat - 1 - i) := by
      rw [sum_eq_ofDigits, ← hdsdef, ← hv, beValue_eq_beInt, map_getD_range, beInt_eq_ofDigits, minimalBe,
        map_toNat_map_ofNat hdig, ofDigits_digits_reverse _ (by decide)]
    have hlen : (List.replicate (leadingZeros ds) 0x00#8 ++ minimalBe v).length =
        leadingZeros ds + (minimalBe v).length := by simp
    have hle := length_b58Decode_le hdec
    rw [length_ibytes] at hle
    have hfits := hle.trans (hn.trans (by decide : ibufSize ≤ obufSize))
    obtain ⟨hstate, holen, hframe⟩ := State.output_spec hwf hfits
    rw [hlen] at hstate holen hframe hle
    refine ⟨_, leadingZeros ds, minimalBe v, exec_of_effect_ok (effect_b58dec hn hdec), hcount,
      head?_map_ofNat_ne_zero hdig (head?_digits_ne_zero _ (by decide)), hval, hstate, holen, hle,
      fun j hj => ?_, fun j hj => ?_, hframe⟩
    · refine State.obuf_output hwf hfits ?_
      rw [List.getElem?_append_left (by simpa using hj), List.getElem?_replicate, if_pos hj]
    · refine State.obuf_output hwf hfits ?_
      rw [List.getElem?_append_right (by simp)]
      simp [hj]
  · have hidx : b58Index (s.ibuf j) = none := by
      cases h : b58Index (s.ibuf j) with
      | none => rfl
      | some i =>
        obtain ⟨hi, hchar⟩ := b58Char_of_b58Index _ i h
        exact absurd hchar (hno i hi)
    have hmem : s.ibuf j ∈ s.ibytes 0 s.ilen.toNat := by
      rw [ibytes_zero]
      exact List.mem_map.2 ⟨j, List.mem_range.2 hj, rfl⟩
    refine exec_of_effect_error (e := .format) ?_
    have hlen : ¬s.ilen.toNat > ibufSize := Nat.not_lt.2 hn
    simp only [effect, checkLength, if_neg hlen, decodeText, b58Decode_eq_none hmem hidx]
    rfl

/-- Settles O57: the copied output is the other command's whole input, and the two codes are inverse to
each other. -/
theorem base58RoundTrip : Obligations.Base58RoundTrip := by
  have bytes {s u : State} {w : Effect} (hout : w = .bytes (s.ibytes 0 s.ilen.toNat)) (hwf : u.mem.wf)
      (hn : s.ilen.toNat ≤ ibufSize) : (w.apply u).succeed.olen = s.ilen ∧
      ∀ j < s.ilen.toNat, (w.apply u).succeed.obuf j = s.ibuf j := by
    subst hout
    refine ⟨?_, fun j hj => State.obuf_output hwf ?_ ?_⟩
    · simp [Effect.apply, length_ibytes]
    · exact (length_ibytes s 0 _).le.trans (hn.trans (by decide))
    · simp [ibytes_zero, hj]
  refine ⟨fun s t u hwf hwfu hn hexec holen hilen hcopy => ?_,
    fun s t u hwf hwfu hdone hexec hdone' hilen hcopy => ?_⟩
  · obtain rfl := Host.Outcome.next.inj ((exec_of_effect_ok (effect_b58enc hn)).symm.trans hexec)
    have hfits := length_b58Encode_ibytes_le (s := s) hn
    have hlen : u.ilen.toNat = (b58Encode (s.ibytes 0 s.ilen.toNat)).length :=
      hilen ▸ s.output_olen_toNat hfits
    have hcopied : u.ibytes 0 u.ilen.toNat = b58Encode (s.ibytes 0 s.ilen.toNat) := by
      rw [hlen]
      exact ibytes_all_of_copied hwf hfits fun j hj => hcopy j (by rwa [← hilen, hlen])
    have hback : b58Decode (u.ibytes 0 u.ilen.toNat) = some (s.ibytes 0 s.ilen.toNat) := by
      rw [hcopied, b58Decode_b58Encode]
    exact ⟨_, exec_of_effect_ok (effect_b58dec (by rwa [hilen]) hback), rfl, bytes rfl hwfu hn⟩
  · obtain ⟨w, hw, rfl⟩ := effect_of_done hdone hexec hdone'
    obtain ⟨hn, out, hout, rfl⟩ := effect_b58dec_eq_ok hw
    have hle := length_b58Decode_le hout
    rw [length_ibytes] at hle
    have hfits : out.length ≤ obufSize := hle.trans (hn.trans (by decide))
    have hlen : u.ilen.toNat = out.length := hilen ▸ s.output_olen_toNat hfits
    have hcopied : u.ibytes 0 u.ilen.toNat = out := by
      rw [hlen]
      exact ibytes_all_of_copied hwf hfits fun j hj => hcopy j (by rwa [← hilen, hlen])
    have hback : b58Encode (u.ibytes 0 u.ilen.toNat) = s.ibytes 0 s.ilen.toNat := by
      rw [hcopied, b58Encode_of_b58Decode hout]
    exact ⟨_, exec_of_effect_ok (effect_b58enc (by omega)), rfl, bytes (by rw [hback]) hwfu hn⟩

/-- An if that mixes in a generator, as a generator or nothing. -/
theorem ite_xor_eq (c : Prop) [Decidable c] (x g : Nat) :
    (if c then x ^^^ g else x) = x ^^^ (if c then g else 0) := by
  split_ifs <;> simp

/-- One step of the register on integers: the 25 low bits move up without loss, and the five bits
shifted out are those of the number shifted down by 25 (42_codec.md R238). -/
theorem polyStep_toNat (chk : BitVec 30) (v : Sym) :
    (polyStep chk v).toNat =
      [0, 1, 2, 3, 4].foldl
        (fun x i =>
          if (chk.toNat >>> 25).testBit i then
            x ^^^ [0x3B6A57B2, 0x26508E6D, 0x1EA119FA, 0x3D4233DD, 0x2A1462B3].getD i 0
          else x)
        (((chk.toNat &&& 0x1FFFFFF) <<< 5) ^^^ v.toNat) := by
  have hbit (i : Nat) (hi : i < 5) : (chk.toNat >>> 25).testBit i = (chk.extractLsb' 25 5).getLsbD i := by
    rw [BitVec.getLsbD_extractLsb', decide_eq_true hi, Bool.true_and, Nat.testBit_shiftRight, BitVec.getLsbD]
  have hmask : (0x1FFFFFF#30).toNat = 0x1FFFFFF := rfl
  have hlow : (chk.toNat &&& 0x1FFFFFF) <<< 5 % 2 ^ 30 = (chk.toNat &&& 0x1FFFFFF) <<< 5 := by
    have hand : chk.toNat &&& 0x1FFFFFF ≤ 0x1FFFFFF := Nat.and_le_right
    rw [Nat.shiftLeft_eq]
    omega
  have hv : v.toNat % 2 ^ 30 = v.toNat := by
    have := v.isLt
    omega
  simp only [List.foldl_cons, List.foldl_nil, ite_xor_eq, hbit 0 (by decide), hbit 1 (by decide),
    hbit 2 (by decide),
    hbit 3 (by decide), hbit 4 (by decide), polyStep, polyMix, BitVec.toNat_xor, BitVec.toNat_and, hmask,
    BitVec.toNat_shiftLeft, hlow, BitVec.toNat_setWidth, hv, apply_ite BitVec.toNat, Nat.xor_assoc]
  rfl

/-- Settles O58: one more symbol is one more step of the register. -/
theorem polymodIsTheShiftRegister : Obligations.PolymodIsTheShiftRegister := by
  refine ⟨rfl, fun vs v => ?_⟩
  rw [polymod_append, List.foldl_cons, List.foldl_nil]
  exact polyStep_toNat (polymod vs) v

/-- Settles O59: the output is the HRP, '1', and the characters of the groups and of the checksum, with
which the register ends at 1. -/
theorem bech32encOutputVerifies : Obligations.Bech32encOutputVerifies := by
  intro s hwf hn
  set h := s.ibytes 0 s.hlen.toNat with hh
  set payload := s.ibytes s.hlen.toNat s.ilen.toNat with hp
  set d := groups5 payload with hd
  set sym := checksumSyms (checksumWord h d) with hsym
  have hhlen : h.length = s.hlen.toNat := length_ibytes _ _ _
  have hplen : payload.length = s.ilen.toNat := length_ibytes _ _ _
  have hdlen : d.length = (8 * s.ilen.toNat + 4) / 5 := by rw [hd, length_groups5, hplen]
  have hout : bech32Encode h payload = h ++ [0x31#8] ++ d.map csChar ++ sym.map csChar := rfl
  have hlen : (bech32Encode h payload).length = s.hlen.toNat + 1 + d.length + 6 := by
    rw [length_bech32Encode, hhlen, hplen, hdlen]
  have hfits : (bech32Encode h payload).length ≤ obufSize := length_bech32Encode_ibytes_le hn
  obtain ⟨hstate, holen, hframe⟩ := State.output_spec hwf hfits
  rw [hlen] at hstate holen hframe
  have hval : Nat.ofDigits 32 (d.reverse.map BitVec.toNat) =
      beValue (fun i => s.ibuf (s.hlen.toNat + i)) s.ilen.toNat * 2 ^ (5 * d.length - 8 * s.ilen.toNat) := by
    have hgroups := symValue_groups5 payload
    rw [hplen] at hgroups
    rw [List.map_reverse, beValue_eq_beInt]
    exact hgroups
  have hexpand : (List.range s.hlen.toNat).map (fun j => BitVec.ofNat 5 ((s.ibuf j).toNat / 32)) ++ [0#5] ++
      (List.range s.hlen.toNat).map (fun j => BitVec.ofNat 5 ((s.ibuf j).toNat % 32)) = hrpExpand h := by
    rw [hh, ibytes_zero, hrpExpand, List.map_map, List.map_map]
    congr 1
    · congr 1
      refine List.map_congr_left fun j _ => BitVec.eq_of_toNat_eq ?_
      have := (s.ibuf j).isLt
      simp [BitVec.extractLsb'_toNat, Nat.shiftRight_eq_div_pow]
      omega
    · refine List.map_congr_left fun j _ => BitVec.eq_of_toNat_eq ?_
      simp
  refine ⟨_, d, sym, exec_of_effect_ok (effect_bech32enc hn), hdlen, rfl, hval, ?_, hstate, holen,
    fun j hj => ?_, ?_, fun j hj => ?_, fun j hj => ?_, hframe⟩
  · rw [hexpand]
    exact polymod_checksum h d
  all_goals refine State.obuf_output hwf hfits ?_; rw [hout]; simp only [List.append_assoc]
  · rw [List.getElem?_append_left (hhlen.symm ▸ hj), hh, ibytes_zero]
    simp [hj]
  · rw [List.getElem?_append_right hhlen.le, hhlen, Nat.sub_self]
    rfl
  · rw [List.getElem?_append_right (by omega), hhlen,
      show s.hlen.toNat + 1 + j - s.hlen.toNat = j + 1 by omega,
      List.singleton_append, List.getElem?_cons_succ, List.getElem?_append_left (by simpa using hj)]
    simp [hj]
  · rw [List.getElem?_append_right (by omega), hhlen,
      show s.hlen.toNat + 1 + d.length + j - s.hlen.toNat = (d.length + j) + 1 by omega]
    simp [hj]

/-- Settles O60: the symbols pass the check and the register of them is written, or the first check
that fails is the symbols'. -/
theorem bchmodRunsTheRegister : Obligations.BchmodRunsTheRegister := by
  intro rd s hn
  have hlen : ¬s.ilen.toNat > ibufSize := Nat.not_lt.2 hn
  refine ⟨fun hsym => ?_, fun j hj hbig => ?_⟩
  · have hall : ∀ v ∈ s.ibytes 0 s.ilen.toNat, v.toNat < 32 := by
      intro v hv
      rw [ibytes_zero] at hv
      obtain ⟨j, hj, rfl⟩ := List.mem_map.1 hv
      exact hsym j (List.mem_range.1 hj)
    have heffect : effect (.bchmod rd) s = _ :=
      checkLength_eq_ok_iff.2 ⟨hn, checkSymbols_eq_ok_iff.2 ⟨hall, rfl⟩⟩
    rw [exec_of_effect_ok heffect, ibytes_zero, List.map_map]
    simp only [BitVec.ofNat_toNat]
    rfl
  · refine exec_of_effect_error (e := .format) ?_
    have hany : (s.ibytes 0 s.ilen.toNat).any (fun v => decide (32 ≤ v.toNat)) = true := by
      rw [ibytes_zero]
      exact List.any_eq_true.2 ⟨s.ibuf j, List.mem_map.2 ⟨j, List.mem_range.2 hj, rfl⟩, decide_eq_true hbig⟩
    simp only [effect, checkLength, if_neg hlen, checkSymbols, if_pos hany]

end Sys2Proof.Machine
end

section
/-! SUPPORT. The square root of the modular unit, over the field of integers mod a prime: Euler's
criterion, the closed form for p = 3 (mod 4) and the Tonelli-Shanks loop for p = 1 (mod 4)
(40_modarith.md section 8). -/

namespace Sys2Proof.Machine

open Sys2Proof.Safety

/-! Numbers below the modulus and the residues they stand for -/

theorem natCast_modPow {m : Nat} (a e : Nat) (hm : 0 < m) :
    ((modPow a e m : Nat) : ZMod m) = (a : ZMod m) ^ e := by
  rw [modPow_eq a e m hm, ZMod.natCast_mod, Nat.cast_pow]

/-- Two numbers below m are equal exactly when their residues are. -/
theorem natCast_eq_iff_of_lt {m x y : Nat} (hx : x < m) (hy : y < m) : (x : ZMod m) = y ↔ x = y := by
  rw [ZMod.natCast_eq_natCast_iff', Nat.mod_eq_of_lt hx, Nat.mod_eq_of_lt hy]

theorem natCast_pred {m : Nat} (hm : 0 < m) : ((m - 1 : Nat) : ZMod m) = -1 := by
  rw [Nat.cast_sub hm, ZMod.natCast_self, Nat.cast_one, zero_sub]

theorem modPow_lt (a e : Nat) {m : Nat} (hm : 0 < m) : modPow a e m < m := by
  rw [modPow_eq a e m hm]
  exact Nat.mod_lt _ hm

theorem modPow_eq_one_iff {m : Nat} (a e : Nat) (hm : 1 < m) : modPow a e m = 1 ↔ (a : ZMod m) ^ e = 1 := by
  have h := natCast_eq_iff_of_lt (modPow_lt a e (by omega)) hm
  rw [natCast_modPow a e (by omega), Nat.cast_one] at h
  exact h.symm

theorem modPow_eq_pred_iff {m : Nat} (a e : Nat) (hm : 1 < m) :
    modPow a e m = m - 1 ↔ (a : ZMod m) ^ e = -1 := by
  rw [← natCast_modPow a e (by omega), ← natCast_pred (by omega),
    natCast_eq_iff_of_lt (modPow_lt a e (by omega)) (by omega)]

/-- A residue is a square exactly when some number squares to it. -/
theorem isSquare_natCast_iff {m : Nat} (a : Nat) (hm : 0 < m) :
    IsSquare (a : ZMod m) ↔ ∃ x : Nat, x * x % m = a % m := by
  have : NeZero m := ⟨by omega⟩
  constructor
  · rintro ⟨y, hy⟩
    refine ⟨y.val, ?_⟩
    rw [← ZMod.natCast_eq_natCast_iff', Nat.cast_mul, ZMod.natCast_zmod_val, hy]
  · rintro ⟨x, hx⟩
    refine ⟨(x : ZMod m), ?_⟩
    rw [← Nat.cast_mul, eq_comm, ZMod.natCast_eq_natCast_iff', hx]

/-- Euler's criterion, in the exponent that the machine uses. -/
theorem pow_half_eq_one_iff {p : Nat} [Fact p.Prime] (hodd : p % 2 = 1) {a : ZMod p} (ha : a ≠ 0) :
    a ^ ((p - 1) / 2) = 1 ↔ IsSquare a := by
  rw [ZMod.euler_criterion p ha, show (p - 1) / 2 = p / 2 by omega]

theorem pow_half_eq_neg_one {p : Nat} [Fact p.Prime] (hodd : p % 2 = 1) {a : ZMod p} (ha : ¬IsSquare a) :
    a ^ ((p - 1) / 2) = -1 := by
  have ha0 : a ≠ 0 := fun h => ha (h ▸ IsSquare.zero)
  rcases ZMod.pow_div_two_eq_neg_one_or_one p ha0 with h | h
  · exact absurd ((ZMod.euler_criterion p ha0).2 h) ha
  · rwa [show (p - 1) / 2 = p / 2 by omega]

/-! The loop (40_modarith.md R142 to R144) -/

/-- One round: with i the order's exponent of t, the correction b = c^(2^(M-i-1)) makes t² lose a power
of two, and keeps r² = a·t. -/
theorem tsRound {F : Type} [Field F] {a t c r : F} {M i : Nat} (hi : 1 ≤ i) (hM : i < M)
    (hr : r ^ 2 = a * t) (hc : c ^ 2 ^ (M - 1) = -1) (hti : t ^ 2 ^ i = 1) (hmin : t ^ 2 ^ (i - 1) ≠ 1) :
    (r * c ^ 2 ^ (M - i - 1)) ^ 2 = a * (t * c ^ 2 ^ (M - i - 1) * c ^ 2 ^ (M - i - 1)) ∧
      (t * c ^ 2 ^ (M - i - 1) * c ^ 2 ^ (M - i - 1)) ^ 2 ^ (i - 1) = 1 ∧
      (c ^ 2 ^ (M - i - 1) * c ^ 2 ^ (M - i - 1)) ^ 2 ^ (i - 1) = -1 := by
  set b := c ^ 2 ^ (M - i - 1) with hb
  have hdouble (x : F) : (x * x) ^ 2 ^ (i - 1) = x ^ 2 ^ i := by
    rw [← pow_two, ← pow_mul, ← pow_succ', Nat.sub_add_cancel hi]
  have hbi : b ^ 2 ^ i = -1 := by
    rw [hb, ← pow_mul, ← pow_add, show M - i - 1 + i = M - 1 by omega, hc]
  have ht : t ^ 2 ^ (i - 1) = -1 := by
    have hsq : t ^ 2 ^ (i - 1) * t ^ 2 ^ (i - 1) = 1 := by rw [← mul_pow, hdouble, hti]
    exact (mul_self_eq_one_iff.1 hsq).resolve_left hmin
  refine ⟨by rw [mul_pow, hr]; ring, ?_, ?_⟩
  · rw [mul_assoc, mul_pow, hdouble, ht, hbi]
    ring
  · rw [hdouble, hbi]

/-- The loop ends with a root: r² = a·t is kept, and M falls while t is not 1, so the rounds suffice. -/
theorem tsLoop_ok {p : Nat} [Fact p.Prime] (a : ZMod p) : ∀ (k M c t r : Nat), M ≤ k → 1 ≤ M → t < p →
    (r : ZMod p) ^ 2 = a * t → (t : ZMod p) ^ 2 ^ (M - 1) = 1 → (c : ZMod p) ^ 2 ^ (M - 1) = -1 →
    ∃ x, tsLoop p k M c t r = .ok x ∧ (x : ZMod p) ^ 2 = a := by
  have hp : 1 < p := (Fact.out : p.Prime).one_lt
  intro k
  induction k with
  | zero => intro M c t r hk hM; omega
  | succ k ih =>
    intro M c t r hk hM hlt hr ht hc
    rw [tsLoop]
    split_ifs with h1
    · exact ⟨r, rfl, by rw [hr, h1, Nat.cast_one, mul_one]⟩
    · have hne : (t : ZMod p) ^ 2 ^ 0 ≠ 1 := by
        rw [pow_zero, pow_one, ← Nat.cast_one, Ne, natCast_eq_iff_of_lt hlt hp]
        exact h1
      have htest (j : Nat) : (modPow t (2 ^ j) p == 1) = true ↔ (t : ZMod p) ^ 2 ^ j = 1 := by
        rw [beq_iff_eq, modPow_eq_one_iff _ _ hp]
      cases hfind : findLeast (fun j => modPow t (2 ^ j) p == 1) 1 (M - 1) with
      | none =>
        have hM1 : M - 1 ≠ 0 := fun e => hne (e ▸ ht)
        have hno := (findLeast_none _ _ _).1 hfind (M - 1) (by omega) (by omega)
        exact absurd ((htest (M - 1)).2 ht) (by simp [hno])
      | some i =>
        obtain ⟨hi, hiM, hti, hleast⟩ := (findLeast_some _ _ _ _).1 hfind
        have hmin : (t : ZMod p) ^ 2 ^ (i - 1) ≠ 1 := by
          rcases Nat.eq_or_lt_of_le hi with rfl | hlt1
          · exact hne
          · intro h
            have hno := hleast (i - 1) (by omega) (by omega)
            exact absurd ((htest (i - 1)).2 h) (by simp [hno])
        obtain ⟨hr', ht', hc'⟩ := tsRound hi (by omega) hr hc ((htest i).1 hti) hmin
        refine ih i _ _ _ (by omega) hi (Nat.mod_lt _ (by omega)) ?_ ?_ ?_
        all_goals
          simp only [ZMod.natCast_mod, Nat.cast_mul, natCast_modPow _ _ (by omega : 0 < p)]
        · exact hr'
        · exact ht'
        · exact hc'

theorem tsLoop_lt {m : Nat} (hm : 0 < m) :
    ∀ (k M c t r x : Nat), r < m → tsLoop m k M c t r = .ok x → x < m := by
  intro k
  induction k with
  | zero => intro M c t r x _ h; cases h
  | succ k ih =>
    intro M c t r x hr h
    rw [tsLoop] at h
    split_ifs at h
    · cases h
      exact hr
    · split at h
      · cases h
      · exact ih _ _ _ _ _ (Nat.mod_lt _ hm) h

theorem tsLoop_error (m : Nat) : ∀ (k M c t r : Nat) (e : ErrCode),
    tsLoop m k M c t r = .error e → e = .nonresidue := by
  intro k
  induction k with
  | zero => intro M c t r e h; cases h; rfl
  | succ k ih =>
    intro M c t r e h
    rw [tsLoop] at h
    split_ifs at h
    split at h
    · cases h
      rfl
    · exact ih _ _ _ _ _ h

/-- The search meets a non-residue below ZMAX, and what it answers is one. -/
theorem leastNonresidue_spec {p : Nat} [Fact p.Prime] (hodd : p % 2 = 1)
    (hz : ∃ z : Nat, 2 ≤ z ∧ z < p ∧ z < 65536 ∧ ¬∃ x : Nat, x * x % p = z) :
    ∃ z, leastNonresidue p = some z ∧ (z : ZMod p) ^ ((p - 1) / 2) = -1 := by
  have hp : 1 < p := (Fact.out : p.Prime).one_lt
  have htest (c : Nat) : (modPow c ((p - 1) / 2) p == p - 1) = true ↔ (c : ZMod p) ^ ((p - 1) / 2) = -1 := by
    rw [beq_iff_eq, modPow_eq_pred_iff _ _ hp]
  obtain ⟨z, hz2, hzp, hzmax, hnon⟩ := hz
  cases hfind : leastNonresidue p with
  | none =>
    have hzMax : zMax = 65536 := rfl
    have hno := (findLeast_none _ _ _).1 hfind z hz2 (by omega)
    have hsquare : ¬IsSquare (z : ZMod p) := by
      rw [isSquare_natCast_iff _ (by omega), Nat.mod_eq_of_lt hzp]
      exact hnon
    exact absurd ((htest z).2 (pow_half_eq_neg_one hodd hsquare)) (by simp [hno])
  | some c =>
    obtain ⟨-, -, hc, -⟩ := (findLeast_some _ _ _ _).1 hfind
    exact ⟨c, rfl, (htest c).1 hc⟩

/-- Tonelli-Shanks finds a root of every square that is not 0. -/
theorem tonelliShanks_ok {p a : Nat} [Fact p.Prime] (hodd : p % 2 = 1) (ha : (a : ZMod p) ≠ 0)
    (hsquare : IsSquare (a : ZMod p))
    (hz : ∃ z : Nat, 2 ≤ z ∧ z < p ∧ z < 65536 ∧ ¬∃ x : Nat, x * x % p = z) :
    ∃ x, tonelliShanks a p = .ok x ∧ (x : ZMod p) ^ 2 = a := by
  have hp : 1 < p := (Fact.out : p.Prime).one_lt
  obtain ⟨z, hfind, hnon⟩ := leastNonresidue_spec hodd hz
  obtain ⟨hq, -, hsplit⟩ := oddPart_spec (bitlen (p - 1)) (p - 1) 0 (by omega) (lt_two_pow_bitlen _)
  simp only [tonelliShanks, hfind]
  generalize oddPart (bitlen (p - 1)) (p - 1) 0 = qs at hq hsplit ⊢
  obtain ⟨q, S⟩ := qs
  dsimp only at hq hsplit ⊢
  rw [Nat.sub_zero] at hsplit
  have hS : 1 ≤ S := by
    rcases Nat.eq_zero_or_pos S with rfl | hpos
    · omega
    · exact hpos
  have hhalf : q * 2 ^ (S - 1) = (p - 1) / 2 := by
    rw [← hsplit, show S = S - 1 + 1 by omega, pow_succ, ← mul_assoc, Nat.mul_div_cancel _ (by decide)]
    simp
  refine tsLoop_ok (a : ZMod p) _ _ _ _ _ (by omega) hS (modPow_lt _ _ (by omega)) ?_ ?_ ?_
  all_goals simp only [natCast_modPow _ _ (by omega : 0 < p), ← pow_mul]
  · rw [← pow_succ', show (q + 1) / 2 * 2 = q + 1 by omega]
  · rw [hhalf]
    exact (pow_half_eq_one_iff hodd ha).2 hsquare
  · rw [hhalf, hnon]

/-- The closed form squares back to every square, for p = 3 (mod 4). -/
theorem pow_quarter_sq {p : Nat} [Fact p.Prime] (h3 : p % 4 = 3) {a : ZMod p} (hsquare : IsSquare a) :
    (a ^ ((p + 1) / 4)) ^ 2 = a := by
  by_cases ha : a = 0
  · have hpos : (p + 1) / 4 ≠ 0 := by omega
    simp [ha, hpos]
  · have hone := (pow_half_eq_one_iff (by omega) ha).2 hsquare
    rw [← pow_mul, show (p + 1) / 4 * 2 = (p - 1) / 2 + 1 by omega, pow_succ, hone, one_mul]

/-! SQRT (40_modarith.md R142) -/

/-- A candidate is below the modulus, and the only error before the final check is NONRESIDUE. -/
theorem sqrtCandidate_lt {a m r : Nat} (hm : 0 < m) (h : sqrtCandidate a m = .ok r) : r < m := by
  unfold sqrtCandidate tonelliShanks at h
  split_ifs at h
  · cases h
    exact modPow_lt _ _ hm
  · dsimp only at h
    split at h
    · cases h
    · exact tsLoop_lt hm _ _ _ _ _ _ (modPow_lt _ _ hm) h

theorem sqrtCandidate_error {a m : Nat} {e : ErrCode} (h : sqrtCandidate a m = .error e) :
    e = .nonresidue := by
  unfold sqrtCandidate tonelliShanks at h
  split_ifs at h
  dsimp only at h
  split at h
  · cases h
    rfl
  · exact tsLoop_error _ _ _ _ _ _ _ h

/-- What SQRT answers for a good modulus: a root below it, or NONRESIDUE. -/
theorem sqrtMod_cases {a m : Nat} (hm : ¬badModulus m) :
    (∃ r, sqrtMod a m = .ok r ∧ r < m ∧ r * r % m = a % m) ∨ sqrtMod a m = .error .nonresidue := by
  have hpos : 0 < m := by unfold badModulus at hm; omega
  unfold sqrtMod
  rw [checkModulus_of _ _ hm]
  split_ifs with h0
  · exact .inl ⟨0, rfl, hpos, by simp [h0]⟩
  · cases hc : sqrtCandidate (a % m) m with
    | error e => exact .inr (by rw [sqrtCandidate_error hc])
    | ok r =>
      by_cases hr : r * r % m = a % m
      · exact .inl ⟨r, by simp [checkRoot, hr], sqrtCandidate_lt hpos hc, hr⟩
      · exact .inr (by simp [checkRoot, hr])

theorem sqrtMod_ok {a m r : Nat} (h : sqrtMod a m = .ok r) : ¬badModulus m ∧ r < m ∧ r * r % m = a % m := by
  obtain ⟨hm, -⟩ := checkModulus_eq_ok_iff.1 h
  rcases sqrtMod_cases (a := a) hm with ⟨r', h', hlt, hsq⟩ | h'
  · obtain rfl := Except.ok.inj (h.symm.trans h')
    exact ⟨hm, hlt, hsq⟩
  · exact absurd (h.symm.trans h') (by simp)

/-- A non-square ends with NONRESIDUE, by the final check. -/
theorem sqrtMod_of_nonsquare {a m : Nat} (hm : ¬badModulus m) (h : ¬∃ x : Nat, x * x % m = a % m) :
    sqrtMod a m = .error .nonresidue := by
  rcases sqrtMod_cases (a := a) hm with ⟨r, -, -, hsq⟩ | h'
  · exact absurd ⟨r, hsq⟩ h
  · exact h'

/-- SQRT of a number that is not 0 mod m, with a candidate that squares back, is the candidate. -/
theorem sqrtMod_of_candidate {a m r : Nat} (hm : ¬badModulus m) (h0 : a % m ≠ 0)
    (hc : sqrtCandidate (a % m) m = .ok r) (hr : (r : ZMod m) ^ 2 = a) : sqrtMod a m = .ok r := by
  have hsq : r * r % m = a % m := by
    rw [← ZMod.natCast_eq_natCast_iff', Nat.cast_mul, ← pow_two, hr]
  unfold sqrtMod
  rw [checkModulus_of _ _ hm, if_neg h0, hc]
  exact if_pos hsq

theorem natCast_ne_zero_iff {m a : Nat} : (a : ZMod m) ≠ 0 ↔ a % m ≠ 0 := by
  rw [Ne, ZMod.natCast_eq_zero_iff, Nat.dvd_iff_mod_eq_zero]

/-- For p = 3 (mod 4), SQRT of a square is the closed form. -/
theorem sqrtMod_of_mod_four_eq_three {a p : Nat} (hp : p.Prime) (h3 : p % 4 = 3)
    (h : ∃ x : Nat, x * x % p = a % p) : sqrtMod a p = .ok (a ^ ((p + 1) / 4) % p) := by
  have : Fact p.Prime := ⟨hp⟩
  have hm : ¬badModulus p := by unfold badModulus; omega
  have hsquare := (isSquare_natCast_iff a hp.pos).2 h
  by_cases h0 : a % p = 0
  · have hpos : (p + 1) / 4 ≠ 0 := by omega
    unfold sqrtMod
    rw [checkModulus_of _ _ hm, if_pos h0, Nat.pow_mod, h0, Nat.zero_pow (by omega), Nat.zero_mod]
  · refine sqrtMod_of_candidate hm h0 ?_ ?_
    · rw [sqrtCandidate, if_pos h3, modPow_eq _ _ _ hp.pos, ← Nat.pow_mod]
    · rw [ZMod.natCast_mod, Nat.cast_pow, pow_quarter_sq h3 hsquare]

/-- For p = 1 (mod 4) with a non-residue below ZMAX, SQRT finds a root of every square. -/
theorem sqrtMod_of_mod_four_eq_one {a p : Nat} (hp : p.Prime) (h1 : p % 4 = 1)
    (hz : ∃ z : Nat, 2 ≤ z ∧ z < p ∧ z < 65536 ∧ ¬∃ x : Nat, x * x % p = z)
    (h : ∃ x : Nat, x * x % p = a % p) : ∃ r, sqrtMod a p = .ok r := by
  have : Fact p.Prime := ⟨hp⟩
  have hone := hp.one_lt
  have hm : ¬badModulus p := by unfold badModulus; omega
  by_cases h0 : a % p = 0
  · refine ⟨0, ?_⟩
    unfold sqrtMod
    rw [checkModulus_of _ _ hm, if_pos h0]
  · have hsquare := (isSquare_natCast_iff a hp.pos).2 h
    obtain ⟨x, hx, hsq⟩ := tonelliShanks_ok (a := a % p) (by omega)
      (by rw [ZMod.natCast_mod, natCast_ne_zero_iff]; exact h0) (by rwa [ZMod.natCast_mod]) hz
    rw [ZMod.natCast_mod] at hsq
    exact ⟨x, sqrtMod_of_candidate hm h0 (by rw [sqrtCandidate, if_neg (by omega), hx]) hsq⟩

/-- With a root finder, SQRT finds a root of every square (40_modarith.md R142, R143). -/
theorem sqrtMod_of_square {a p : Nat} (hp : HasRootFinder p) (h : ∃ x : Nat, x * x % p = a % p) :
    ∃ r, sqrtMod a p = .ok r := by
  obtain ⟨hprime, h3 | ⟨h1, hz⟩⟩ := hp
  · exact ⟨_, sqrtMod_of_mod_four_eq_three hprime h3 h⟩
  · exact sqrtMod_of_mod_four_eq_one hprime h1 hz h

end Sys2Proof.Machine
end

section
/-! The statements of 40_modarith.md about residues, powers and square roots. -/

namespace Sys2Proof.Machine

open Sys2Proof.Safety

/-- A register just given a number below 2^256 holds it. -/
theorem State.nat_setV_ofNat (s : State) (r : RegIdx) {n : Nat} (h : n < 2 ^ 256) :
    (s.setV r (BitVec.ofNat 256 n)).nat r = n := by
  rw [State.nat, State.getV_setV_self, BitVec.toNat_ofNat, Nat.mod_eq_of_lt h]

/-- Settles O30: each of the four commands writes the number it computes. -/
theorem modularResultsAreExactResidues : Obligations.ModularResultsAreExactResidues := by
  intro rd rs1 rs2 rm s h3 hodd
  have hm : ¬badModulus (s.nat rm) := by unfold badModulus; omega
  rw [exec_modadd, exec_modsub, exec_modmul, exec_modred]
  exact ⟨modularCommand_of_ok hm rfl, modularCommand_of_ok hm rfl, modularCommand_of_ok hm rfl,
    modularCommand_of_ok hm rfl⟩

/-- Settles O32: square-and-multiply is the power. -/
theorem modexpIsTheExactPower : Obligations.ModexpIsTheExactPower := by
  intro rd rs1 rs2 rm s h3 hodd
  have hm : ¬badModulus (s.nat rm) := by unfold badModulus; omega
  rw [exec_modexp, ← modPow_eq _ _ _ (by omega)]
  exact modularCommand_of_ok hm rfl

/-- Settles O34: no candidate passes the final check unless it squares back. -/
theorem modsqrtResultSquaresBack : Obligations.ModsqrtResultSquaresBack := by
  intro rd rs1 rm s t hdone hexec hdone'
  obtain ⟨w, hw, rfl⟩ := effect_of_done hdone hexec hdone'
  obtain ⟨-, r, hr, rfl⟩ := modularEffect_eq_ok_iff.1 hw
  obtain ⟨-, hlt, hsq⟩ := sqrtMod_ok hr
  have hread : ((Effect.reg rd (BitVec.ofNat 256 r)).apply s).succeed.nat rd = r :=
    s.nat_setV_ofNat rd (hlt.trans (s.getV rm).isLt)
  rw [hread]
  exact ⟨hlt, hsq⟩

/-- Settles O35: by the closed form, and the final check for non-squares. -/
theorem modsqrtClosedFormBranch : Obligations.ModsqrtClosedFormBranch := by
  intro rd rs1 rm s hp h3
  have hm : ¬badModulus (s.nat rm) := by unfold badModulus; omega
  rw [exec_modsqrt]
  refine ⟨fun hsquare => ?_, fun hnon => modularCommand_of_error hm (sqrtMod_of_nonsquare hm hnon)⟩
  have hroot := sqrtMod_of_mod_four_eq_three hp h3 hsquare
  obtain ⟨-, -, hsq⟩ := sqrtMod_ok hroot
  exact ⟨_, rfl, hsq, modularCommand_of_ok hm hroot⟩

/-- Settles O36: by the Tonelli-Shanks loop, and the final check for non-squares. -/
theorem modsqrtTonelliShanksBranch : Obligations.ModsqrtTonelliShanksBranch := by
  intro rd rs1 rm s hp h1 hz
  have hone := hp.one_lt
  have hm : ¬badModulus (s.nat rm) := by unfold badModulus; omega
  rw [exec_modsqrt]
  refine ⟨fun hsquare => ?_, fun hnon => modularCommand_of_error hm (sqrtMod_of_nonsquare hm hnon)⟩
  obtain ⟨r, hroot⟩ := sqrtMod_of_mod_four_eq_one hp h1 hz hsquare
  obtain ⟨-, hlt, hsq⟩ := sqrtMod_ok hroot
  exact ⟨r, hlt, hsq, modularCommand_of_ok hm hroot⟩

end Sys2Proof.Machine
end

section
/-! SUPPORT. The affine formulas over the ring of integers mod p: when a step has a result, which one,
that it is the only one, and that it stays on the curve (41_ecc.md sections 1 to 4). -/

namespace Sys2Proof.Machine

open Sys2Proof.Safety

theorem natCast_imod (z : Int) {p : Nat} (hp : 0 < p) : ((imod z p : Nat) : ZMod p) = (z : ZMod p) := by
  rw [← Int.cast_natCast, imod_cast z p hp, ZMod.intCast_mod]

theorem natCast_inj_of_lt {p x y : Nat} (hx : x < p) (hy : y < p) (h : (x : ZMod p) = y) : x = y :=
  (natCast_eq_iff_of_lt hx hy).1 h

theorem Point.ext_of_lt {p : Nat} {q r : Point} (hqx : q.x < p) (hqy : q.y < p) (hrx : r.x < p)
    (hry : r.y < p)
    (hx : (q.x : ZMod p) = r.x) (hy : (q.y : ZMod p) = r.y) : q = r := by
  obtain ⟨qx, qy⟩ := q
  obtain ⟨rx, ry⟩ := r
  simp only at *
  rw [natCast_inj_of_lt hqx hrx hx, natCast_inj_of_lt hqy hry hy]

theorem gcd_eq_one_iff_isUnit (n p : Nat) : Nat.gcd n p = 1 ↔ IsUnit (n : ZMod p) :=
  (ZMod.isUnit_iff_coprime n p).symm

theorem int_gcd_eq_one_iff_isUnit (z : Int) (p : Nat) : Int.gcd z p = 1 ↔ IsUnit (z : ZMod p) := by
  rw [ZMod.coe_int_isUnit_iff_isCoprime, isCoprime_comm, Int.isCoprime_iff_gcd_eq_one]

/-- The inverse that the machine finds, as one mod p. -/
theorem modInv_cases {n p : Nat} (hp : 1 < p) :
    (IsUnit (n : ZMod p) ∧ ∃ w, modInv n p = .ok w ∧ (n : ZMod p) * w = 1) ∨
      (¬IsUnit (n : ZMod p) ∧ modInv n p = .error .noinv) := by
  rcases modInv_spec n p hp with ⟨hg, w, hw, -, hinv⟩ | ⟨hg, hw⟩
  · refine .inl ⟨(gcd_eq_one_iff_isUnit n p).1 hg, w, hw, ?_⟩
    rw [← Nat.cast_mul, ← Nat.cast_one, ZMod.natCast_eq_natCast_iff', hinv, Nat.mod_eq_of_lt hp]
  · exact .inr ⟨fun h => hg ((gcd_eq_one_iff_isUnit n p).2 h), hw⟩

/-! The tangent (41_ecc.md R168) -/

/-- The tangent's equations, in the ring of integers mod p. -/
theorem tangent_iff {p a : Nat} {q r : Point} : Tangent p a q r ↔ r.x < p ∧ r.y < p ∧ ∃ lam : ZMod p,
    lam * (2 * q.y) = 3 * q.x * q.x + a ∧ (r.x : ZMod p) = lam * lam - 2 * q.x ∧
      (r.y : ZMod p) = lam * (q.x - r.x) - q.y := by
  simp only [Tangent, ← ZMod.intCast_eq_intCast_iff, ZMod.intCast_surjective.exists]
  push_cast
  rfl

/-- One tangent point at most where 2y is invertible. -/
theorem tangent_unique {p a : Nat} {q r r' : Point} (hu : IsUnit ((2 * q.y : Nat) : ZMod p))
    (h : Tangent p a q r)
    (h' : Tangent p a q r') : r = r' := by
  obtain ⟨hx, hy, lam, hlam, hrx, hry⟩ := tangent_iff.1 h
  obtain ⟨hx', hy', lam', hlam', hrx', hry'⟩ := tangent_iff.1 h'
  push_cast at hu
  obtain rfl : lam = lam' := hu.mul_right_cancel (hlam.trans hlam'.symm)
  have hxx : (r.x : ZMod p) = r'.x := hrx.trans hrx'.symm
  exact Point.ext_of_lt hx hy hx' hy' hxx (by rw [hry, hry', hxx])

/-- A doubling has a result exactly when 2y is invertible, and it is the tangent point. -/
theorem dblPoint_cases {p : Nat} (a : Nat) (q : Point) (hp : 1 < p) :
    (Nat.gcd (2 * q.y) p = 1 ∧ ∃ r, dblPoint p (a % p) q = .ok r ∧ Tangent p a q r) ∨
      (Nat.gcd (2 * q.y) p ≠ 1 ∧ dblPoint p (a % p) q = .error .noinv) := by
  have hpos : 0 < p := by omega
  rw [Ne, gcd_eq_one_iff_isUnit]
  have hcases := modInv_cases (n := 2 * q.y % p) hp
  rw [ZMod.natCast_mod] at hcases
  rcases hcases with ⟨hu, w, hw, hinv⟩ | ⟨hu, hw⟩
  · set lam := (3 * q.x * q.x + a % p) * w % p with hlam
    set x3 := imod ((lam : Int) * lam - 2 * q.x) p with hx3
    have hres : dblPoint p (a % p) q = .ok ⟨x3, imod ((lam : Int) * ((q.x : Int) - x3) - q.y) p⟩ := by
      rw [dblPoint, hw]
    refine .inl ⟨hu, _, hres, tangent_iff.2 ⟨imod_lt _ _ hpos, imod_lt _ _ hpos, lam, ?_, ?_, ?_⟩⟩
    · rw [hlam, ZMod.natCast_mod]
      push_cast at hinv ⊢
      rw [ZMod.natCast_mod]
      linear_combination (3 * (q.x : ZMod p) * q.x + a) * hinv
    · rw [hx3, natCast_imod _ hpos]
      push_cast
      rfl
    · rw [natCast_imod _ hpos]
      push_cast
      rfl
  · exact .inr ⟨hu, by rw [dblPoint, hw]⟩

theorem dblPoint_eq_ok_iff {p a : Nat} {q r : Point} (hp : 1 < p) :
    dblPoint p (a % p) q = .ok r ↔ Doubles p a q r := by
  rcases dblPoint_cases a q hp with ⟨hg, r', hr', ht⟩ | ⟨hg, herr⟩
  · rw [hr', Except.ok.injEq]
    constructor
    · rintro rfl
      exact ⟨hg, ht⟩
    · rintro ⟨-, ht'⟩
      exact tangent_unique ((gcd_eq_one_iff_isUnit _ p).1 hg) ht ht'
  · rw [herr]
    exact ⟨fun h => absurd h (by simp), fun ⟨hg', _⟩ => absurd hg' hg⟩

/-! The chord (41_ecc.md R169) -/

/-- The chord's equations, in the ring of integers mod p. -/
theorem chord_iff {p : Nat} {q1 q2 r : Point} : Chord p q1 q2 r ↔ r.x < p ∧ r.y < p ∧ ∃ lam : ZMod p,
    lam * (q1.x - q2.x) = q1.y - q2.y ∧ (r.x : ZMod p) = lam * lam - q1.x - q2.x ∧
      (r.y : ZMod p) = lam * (q1.x - r.x) - q1.y := by
  simp only [Chord, ← ZMod.intCast_eq_intCast_iff, ZMod.intCast_surjective.exists]
  push_cast
  rfl

/-- The chord is the same from its other end (41_ecc.md R177). -/
theorem chord_symm {p : Nat} {q1 q2 r : Point} (h : Chord p q1 q2 r) : Chord p q2 q1 r := by
  obtain ⟨hx, hy, lam, hlam, hrx, hry⟩ := chord_iff.1 h
  refine chord_iff.2 ⟨hx, hy, lam, ?_, ?_, ?_⟩
  · linear_combination -hlam
  · linear_combination hrx
  · linear_combination hry + hlam

/-- One chord point at most where x1 - x2 is invertible. -/
theorem chord_unique {p : Nat} {q1 q2 r r' : Point} (hu : IsUnit ((q1.x : ZMod p) - q2.x))
    (h : Chord p q1 q2 r)
    (h' : Chord p q1 q2 r') : r = r' := by
  obtain ⟨hx, hy, lam, hlam, hrx, hry⟩ := chord_iff.1 h
  obtain ⟨hx', hy', lam', hlam', hrx', hry'⟩ := chord_iff.1 h'
  obtain rfl : lam = lam' := hu.mul_right_cancel (hlam.trans hlam'.symm)
  have hxx : (r.x : ZMod p) = r'.x := hrx.trans hrx'.symm
  exact Point.ext_of_lt hx hy hx' hy' hxx (by rw [hry, hry', hxx])

theorem isUnit_sub_iff (p : Nat) (q1 q2 : Point) :
    Int.gcd ((q1.x : Int) - q2.x) p = 1 ↔ IsUnit ((q1.x : ZMod p) - q2.x) := by
  rw [int_gcd_eq_one_iff_isUnit]
  push_cast
  rfl

theorem Point.ne_iff {q1 q2 : Point} : q1 ≠ q2 ↔ ¬(q1.x = q2.x ∧ q1.y = q2.y) := by
  rw [Ne, Point.mk.injEq]

theorem addPoint_self (p a : Nat) (q : Point) : addPoint p a q q = dblPoint p a q := if_pos ⟨rfl, rfl⟩

/-- An addition of different points has a result exactly when x1 - x2 is invertible, and it is the
chord point. -/
theorem addPoint_cases {p : Nat} (a : Nat) {q1 q2 : Point} (hp : 1 < p) (hne : q1 ≠ q2) :
    (Int.gcd ((q1.x : Int) - q2.x) p = 1 ∧ ∃ r, addPoint p a q1 q2 = .ok r ∧ Chord p q1 q2 r) ∨
      (Int.gcd ((q1.x : Int) - q2.x) p ≠ 1 ∧ addPoint p a q1 q2 = .error .noinv) := by
  have hpos : 0 < p := by omega
  rw [Ne, isUnit_sub_iff]
  have hcases := modInv_cases (n := imod ((q1.x : Int) - q2.x) p) hp
  rw [natCast_imod _ hpos] at hcases
  push_cast at hcases
  rcases hcases with ⟨hu, w, hw, hinv⟩ | ⟨hu, hw⟩
  · set lam := imod (((q1.y : Int) - q2.y) * w) p with hlam
    set x3 := imod ((lam : Int) * lam - q1.x - q2.x) p with hx3
    have hres : addPoint p a q1 q2 = .ok ⟨x3, imod ((lam : Int) * ((q1.x : Int) - x3) - q1.y) p⟩ := by
      rw [addPoint, if_neg (Point.ne_iff.1 hne), hw]
    refine .inl ⟨hu, _, hres, chord_iff.2 ⟨imod_lt _ _ hpos, imod_lt _ _ hpos, lam, ?_, ?_, ?_⟩⟩
    · rw [hlam, natCast_imod _ hpos]
      push_cast
      linear_combination ((q1.y : ZMod p) - q2.y) * hinv
    · rw [hx3, natCast_imod _ hpos]
      push_cast
      rfl
    · rw [natCast_imod _ hpos]
      push_cast
      rfl
  · exact .inr ⟨hu, by rw [addPoint, if_neg (Point.ne_iff.1 hne), hw]⟩

theorem addPoint_eq_ok_iff {p a : Nat} {q1 q2 r : Point} (hp : 1 < p) :
    addPoint p (a % p) q1 q2 = .ok r ↔ Adds p a q1 q2 r := by
  by_cases hq : q1 = q2
  · subst hq
    rw [addPoint_self, dblPoint_eq_ok_iff hp]
    exact ⟨fun h => .inl ⟨rfl, h⟩, fun h => h.elim And.right fun ⟨hne, _⟩ => absurd rfl hne⟩
  · rcases addPoint_cases (a % p) hp hq with ⟨hg, r', hr', hc⟩ | ⟨hg, herr⟩
    · rw [hr', Except.ok.injEq]
      constructor
      · rintro rfl
        exact .inr ⟨hq, hg, hc⟩
      · rintro (⟨heq, -⟩ | ⟨-, -, hc'⟩)
        · exact absurd heq hq
        · exact chord_unique ((isUnit_sub_iff p q1 q2).1 hg) hc hc'
    · rw [herr]
      refine ⟨fun h => absurd h (by simp), ?_⟩
      rintro (⟨heq, -⟩ | ⟨-, hg', -⟩)
      · exact absurd heq hq
      · exact absurd hg' hg

/-- Addition is symmetric, its error included (41_ecc.md R177). -/
theorem addPoint_comm {p : Nat} (a : Nat) (q1 q2 : Point) (hp : 1 < p) :
    addPoint p a q1 q2 = addPoint p a q2 q1 := by
  by_cases hq : q1 = q2
  · rw [hq]
  · have hgcd : Int.gcd ((q2.x : Int) - q1.x) p = Int.gcd ((q1.x : Int) - q2.x) p := by
      rw [← Int.neg_gcd, neg_sub]
    rcases addPoint_cases a hp hq with ⟨hg, r, hr, hc⟩ | ⟨hg, herr⟩ <;>
      rcases addPoint_cases a hp (Ne.symm hq) with ⟨hg', r', hr', hc'⟩ | ⟨hg', herr'⟩
    · rw [hr, hr', chord_unique ((isUnit_sub_iff p q1 q2).1 hg) hc (chord_symm hc')]
    · exact absurd (hgcd.trans hg) hg'
    · exact absurd (hgcd.symm.trans hg') hg
    · rw [herr, herr']

/-! The curve (41_ecc.md R160) -/

/-- The curve's equation, in the ring of integers mod p. -/
theorem onCurve_iff {c : Curve} {q : Point} : OnCurve c q ↔ q.x < c.p.toNat ∧ q.y < c.p.toNat ∧
    (q.y : ZMod c.p.toNat) ^ 2 = (q.x : ZMod c.p.toNat) ^ 3 + c.a.toNat * q.x + c.b.toNat := by
  rw [OnCurve, ← ZMod.natCast_eq_natCast_iff']
  push_cast
  rw [pow_two, pow_succ, pow_two]

/-- The tangent at a point of the curve meets it again at the double's negative. -/
theorem onCurve_tangent {c : Curve} {q r : Point} (h : OnCurve c q) (ht : Tangent c.p.toNat c.a.toNat q r) :
    OnCurve c r := by
  obtain ⟨-, -, hq⟩ := onCurve_iff.1 h
  obtain ⟨hx, hy, lam, hlam, hrx, hry⟩ := tangent_iff.1 ht
  refine onCurve_iff.2 ⟨hx, hy, ?_⟩
  rw [hry, hrx]
  linear_combination hq + (lam * lam - 3 * (q.x : ZMod c.p.toNat)) * hlam

/-- The chord through two points of the curve meets it again at the sum's negative. -/
theorem onCurve_chord {c : Curve} {q1 q2 r : Point} (h1 : OnCurve c q1) (h2 : OnCurve c q2)
    (hu : IsUnit ((q1.x : ZMod c.p.toNat) - q2.x)) (hc : Chord c.p.toNat q1 q2 r) : OnCurve c r := by
  obtain ⟨-, -, hq1⟩ := onCurve_iff.1 h1
  obtain ⟨-, -, hq2⟩ := onCurve_iff.1 h2
  obtain ⟨hx, hy, lam, hlam, hrx, hry⟩ := chord_iff.1 hc
  refine onCurve_iff.2 ⟨hx, hy, hu.mul_left_cancel ?_⟩
  rw [hry, hrx]
  set x1 := (q1.x : ZMod c.p.toNat)
  set x2 := (q2.x : ZMod c.p.toNat)
  linear_combination (lam * lam - x1 - x2 - x2) * hq1 - (lam * lam - x1 - x2 - x1) * hq2 +
    (lam * lam - x1 - x2 - x1) * (q1.y + q2.y - lam * (x1 - x2)) * hlam

end Sys2Proof.Machine
end

section
/-! SUPPORT. Double-and-add, bit by bit from the top (41_ecc.md section 4). -/

namespace Sys2Proof.Machine

open Sys2Proof.Safety

variable {p a k : Nat} {q r t : Point}

/-- One round: the doubling, then the addition if the bit is 1. -/
theorem ladderRound_eq_ok_iff {b : Bool} (hp : 1 < p) : ladderRound p (a % p) q r b = .ok t ↔
    ∃ d, Doubles p a r d ∧ if b then Adds p a d q t else d = t := by
  simp only [← dblPoint_eq_ok_iff hp, ← addPoint_eq_ok_iff hp, ladderRound]
  cases dblPoint p (a % p) r <;> cases b <;> simp

theorem ladder_zero (r : Point) : ladder p a k q 0 r = .ok r := rfl

theorem ladder_succ (i : Nat) (r : Point) :
    ladder p a k q (i + 1) r = (ladderRound p a q r (k.testBit i)).bind (ladder p a k q i) := by
  rw [ladder]
  cases ladderRound p a q r (k.testBit i) <;> rfl

/-- A lower bit of the scalar is one more round at the end of the loop. -/
theorem ladder_bit (b : Bool) (n : Nat) (r : Point) :
    ladder p a (2 * k + b.toNat) q (n + 1) r =
      (ladder p a k q n r).bind fun r' => ladderRound p a q r' b := by
  induction n generalizing r with
  | zero =>
    have hbit : (2 * k + b.toNat).testBit 0 = b := by cases b <;> simp [Nat.testBit_zero]
    rw [ladder_succ, hbit, ladder_zero]
    cases h : ladderRound p a q r b with
    | error e => simp [Except.bind, h]
    | ok r' => simp [Except.bind, h, ladder_zero]
  | succ n ih =>
    have hbit : (2 * k + b.toNat).testBit (n + 1) = k.testBit n := by
      rw [Nat.testBit_succ]
      congr 1
      cases b
      · simp
      · simp
        omega
    rw [ladder_succ, hbit, ladder_succ]
    cases ladderRound p a q r (k.testBit n) with
    | error e => rfl
    | ok r' => exact ih r'

theorem bitlen_bit (b : Bool) (hk : 1 ≤ k) : bitlen (2 * k + b.toNat) = bitlen k + 1 := by
  have hlog : (2 * k + b.toNat).log2 = k.log2 + 1 := by
    rw [Nat.log2_def, if_pos (by omega)]
    congr 2
    cases b
    · simp
    · simp
      omega
  rw [bitlen, bitlen, if_neg (by omega), if_neg (by omega), hlog]

theorem one_le_bitlen (hk : 1 ≤ k) : 1 ≤ bitlen k := by
  rw [bitlen, if_neg (by omega)]
  omega

theorem mulPoint_one : mulPoint p a 1 q = .ok q := rfl

theorem mulPoint_bit (b : Bool) (hk : 1 ≤ k) :
    mulPoint p a (2 * k + b.toNat) q = (mulPoint p a k q).bind fun r => ladderRound p a q r b := by
  have hlen : bitlen k + 1 - 1 = (bitlen k - 1) + 1 := by
    have := one_le_bitlen hk
    omega
  rw [mulPoint, bitlen_bit b hk, hlen, ladder_bit]
  rfl

theorem Except.bind_eq_ok_iff {x : Except ErrCode Point} {f : Point → Except ErrCode Point} :
    x.bind f = .ok t ↔ ∃ r, x = .ok r ∧ f r = .ok t := by
  cases x <;> simp [Except.bind]

theorem one_le_of_multiplies (h : Multiplies p a q k r) : 1 ≤ k := by
  induction h <;> omega

/-- The machine's multiple is the one that double-and-add reaches. -/
theorem mulPoint_eq_ok_iff (hp : 1 < p) (hk : 1 ≤ k) :
    mulPoint p (a % p) k q = .ok t ↔ Multiplies p a q k t := by
  constructor
  · induction k using Nat.strong_induction_on generalizing t with
    | _ k ih =>
      intro h
      rcases Nat.eq_or_lt_of_le hk with rfl | hlt
      · rw [mulPoint_one, Except.ok.injEq] at h
        exact h ▸ .one
      · obtain ⟨b, hb⟩ : ∃ b : Bool, k = 2 * (k / 2) + b.toNat := by
          rcases Nat.mod_two_eq_zero_or_one k with h0 | h1
          · exact ⟨false, by simp; omega⟩
          · exact ⟨true, by simp; omega⟩
        rw [hb, mulPoint_bit b (by omega), Except.bind_eq_ok_iff] at h
        obtain ⟨r, hr, hround⟩ := h
        obtain ⟨d, hd, ht⟩ := (ladderRound_eq_ok_iff hp).1 hround
        have hmul := ih (k / 2) (by omega) (by omega) hr
        rw [hb]
        cases b with
        | false =>
          obtain rfl : d = t := ht
          exact hmul.even hd
        | true => exact hmul.odd hd ht
  · intro h
    clear hk
    induction h with
    | one => rfl
    | @even k r d hmul hd ih =>
      rw [show 2 * k = 2 * k + Bool.false.toNat by rfl, mulPoint_bit false (one_le_of_multiplies hmul),
        Except.bind_eq_ok_iff]
      exact ⟨r, ih, (ladderRound_eq_ok_iff hp).2 ⟨d, hd, rfl⟩⟩
    | @odd k r d t hmul hd ht ih =>
      rw [show 2 * k + 1 = 2 * k + Bool.true.toNat by rfl, mulPoint_bit true (one_le_of_multiplies hmul),
        Except.bind_eq_ok_iff]
      exact ⟨r, ih, (ladderRound_eq_ok_iff hp).2 ⟨d, hd, ht⟩⟩

theorem dblPoint_error {e : ErrCode} (hp : 1 < p) (h : dblPoint p (a % p) q = .error e) : e = .noinv := by
  rcases dblPoint_cases a q hp with ⟨-, r, hr, -⟩ | ⟨-, herr⟩
  · exact absurd (h.symm.trans hr) (by simp)
  · exact Except.error.inj (h.symm.trans herr)

theorem addPoint_error {e : ErrCode} (hp : 1 < p) (h : addPoint p (a % p) q r = .error e) : e = .noinv := by
  by_cases hq : q = r
  · rw [hq, addPoint_self] at h
    exact dblPoint_error hp h
  · rcases addPoint_cases (a % p) hp hq with ⟨-, t, ht, -⟩ | ⟨-, herr⟩
    · exact absurd (h.symm.trans ht) (by simp)
    · exact Except.error.inj (h.symm.trans herr)

/-- A round that has no result ends with NOINV. -/
theorem ladderRound_error {b : Bool} {e : ErrCode} (hp : 1 < p) (h : ladderRound p (a % p) q r b = .error e) :
    e = .noinv := by
  unfold ladderRound at h
  split at h
  · next e' hd =>
    cases h
    exact dblPoint_error hp hd
  · split_ifs at h
    exact addPoint_error hp h

theorem ladder_error {n : Nat} {e : ErrCode} (hp : 1 < p) (h : ladder p (a % p) k q n r = .error e) :
    e = .noinv := by
  induction n generalizing r with
  | zero => cases h
  | succ n ih =>
    unfold ladder at h
    split at h
    · next e' hround =>
      cases h
      exact ladderRound_error hp hround
    · exact ih h

/-- Every point that double-and-add reaches from a point of the curve is one. -/
theorem onCurve_multiplies {c : Curve} (h : OnCurve c q)
    (hmul : Multiplies c.p.toNat c.a.toNat q k r) : OnCurve c r := by
  have hdbl {q r : Point} (h : OnCurve c q) (hd : Doubles c.p.toNat c.a.toNat q r) : OnCurve c r := by
    obtain ⟨-, ht⟩ := hd
    exact onCurve_tangent h ht
  induction hmul with
  | one => exact h
  | even _ hd ih => exact hdbl ih hd
  | odd _ hd ht ih =>
    rcases ht with ⟨-, hd'⟩ | ⟨-, hg, hc⟩
    · exact hdbl (hdbl ih hd) hd'
    · exact onCurve_chord (hdbl ih hd) h ((isUnit_sub_iff _ _ _).1 hg) hc

end Sys2Proof.Machine
end

section
/-! SUPPORT. The point commands behind their checks (41_ecc.md section 1). -/

namespace Sys2Proof.Machine

open Sys2Proof.Safety

variable {s : State} {rd rs1 rs2 : RegIdx}

theorem not_badModulus {m : Nat} (h3 : 3 ≤ m) (hodd : m % 2 = 1) : ¬badModulus m := by
  unfold badModulus
  omega

/-- A check that fails is its error, whatever stands behind it. -/
theorem checkModulus_of_bad {α : Type} {m : Nat} (k : Except ErrCode α) (h : badModulus m) :
    checkModulus m k = .error .modulus := if_pos h

theorem checkRange_of_outside {α : Type} {p : Nat} {q : Point} (k : Except ErrCode α)
    (h : p ≤ q.x ∨ p ≤ q.y) :
    checkRange p q k = .error .range := if_pos h

theorem effect_pdbl_of_ok (hrd : pairOk rd = true) (hrs1 : pairOk rs1 = true)
    (hp : ¬badModulus s.curve.p.toNat)
    (hx : (s.pair rs1).x < s.curve.p.toNat) (hy : (s.pair rs1).y < s.curve.p.toNat) :
    effect (.pdbl rd rs1) s =
      (dblPoint s.curve.p.toNat (s.curve.a.toNat % s.curve.p.toNat) (s.pair rs1)).map (.pair rd) := by
  rw [effect, checkPair_of _ _ hrd, checkPair_of _ _ hrs1, checkModulus_of s.primeP _ hp,
    checkRange_of s.primeP _ _ hx hy]
  rfl

theorem effect_padd_of_ok (hrd : pairOk rd = true) (hrs1 : pairOk rs1 = true) (hrs2 : pairOk rs2 = true)
    (hp : ¬badModulus s.curve.p.toNat)
    (hx : (s.pair rs1).x < s.curve.p.toNat) (hy : (s.pair rs1).y < s.curve.p.toNat)
    (hx' : (s.pair rs2).x < s.curve.p.toNat) (hy' : (s.pair rs2).y < s.curve.p.toNat) :
    effect (.padd rd rs1 rs2) s =
      (addPoint s.curve.p.toNat (s.curve.a.toNat % s.curve.p.toNat) (s.pair rs1)
        (s.pair rs2)).map (.pair rd) := by
  rw [effect, checkPair_of _ _ hrd, checkPair_of _ _ hrs1, checkPair_of _ _ hrs2,
    checkModulus_of s.primeP _ hp,
    checkRange_of s.primeP _ _ hx hy, checkRange_of s.primeP _ _ hx' hy']
  rfl

theorem effect_pmul_of_ok (hrd : pairOk rd = true) (hrs1 : pairOk rs1 = true)
    (hp : ¬badModulus s.curve.p.toNat)
    (hx : (s.pair rs1).x < s.curve.p.toNat) (hy : (s.pair rs1).y < s.curve.p.toNat) :
    effect (.pmul rd rs1 rs2) s = checkScalar (s.nat rs2)
      ((mulPoint s.curve.p.toNat (s.curve.a.toNat % s.curve.p.toNat) (s.nat rs2)
        (s.pair rs1)).map (.pair rd)) := by
  rw [effect, checkPair_of _ _ hrd, checkPair_of _ _ hrs1, checkModulus_of s.primeP _ hp,
    checkRange_of s.primeP _ _ hx hy]
  rfl

theorem checkScalar_of {α : Type} {k : Nat} (r : Except ErrCode α) (h : k ≠ 0) :
    checkScalar k r = r := if_neg h

/-- A point written to a pair, and the completion. -/
theorem exec_of_effect_pair {i : Instr} {q : Point} (h : effect i s = .ok (.pair rd q)) :
    exec i s = .next { s with v := pairSet s rd q, status := doneStatus s.status } := exec_of_effect_ok h

/-- A pair just written reads as written. -/
theorem State.pair_setPair (s : State) (rd : RegIdx) {q : Point} (hx : q.x < 2 ^ 256) (hy : q.y < 2 ^ 256) :
    (s.setPair rd q).pair rd = q := by
  have hne : rd + 1#4 ≠ rd := fun h => toNat_ne_toNat_add_one rd (congrArg BitVec.toNat h).symm
  have hfst : (s.setPair rd q).nat rd = q.x := by
    rw [State.nat, State.setPair, State.setNat, State.getV_setV_of_ne _ _ _ _ hne]
    exact s.nat_setV_ofNat rd hx
  have hsnd : (s.setPair rd q).nat (rd + 1#4) = q.y := State.nat_setV_ofNat _ _ hy
  rw [State.pair, hfst, hsnd]

/-- A command that ended with DONE and writes a point of the curve has it in its destination. -/
theorem pair_apply_succeed {q : Point} (hx : q.x < s.curve.p.toNat) (hy : q.y < s.curve.p.toNat) :
    (((Effect.pair rd q).apply s).succeed).pair rd = q :=
  s.pair_setPair rd (hx.trans s.curve.p.isLt) (hy.trans s.curve.p.isLt)

theorem checkPair_comm {α : Type} (r r' : RegIdx) (k : Except ErrCode α) :
    checkPair r (checkPair r' k) = checkPair r' (checkPair r k) := by
  rw [checkPair_checkPair, checkPair_checkPair, Bool.and_comm]

theorem checkRange_error {α : Type} (p : Nat) (q : Point) :
    checkRange p q (.error .range : Except ErrCode α) = .error .range := ite_self _

theorem checkRange_comm {α : Type} (p : Nat) (q q' : Point) (k : Except ErrCode α) :
    checkRange p q (checkRange p q' k) = checkRange p q' (checkRange p q k) := by
  rcases checkRange_cases p q k with ⟨hx, hy, h⟩ | ⟨hq, h⟩
  · rw [checkRange_of p q _ hx hy, h]
  · rw [h, checkRange_of_outside _ hq, checkRange_error]

end Sys2Proof.Machine
end

section
/-! The statements of 41_ecc.md sections 1 to 4 and 8. -/

namespace Sys2Proof.Machine

open Sys2Proof.Safety

/-- Settles O37: a doubling has a result exactly when 2y is invertible. -/
theorem pdblWritesTheTangentPoint : Obligations.PdblWritesTheTangentPoint := by
  intro rd rs1 s hrd hrs1 hp3 hodd hx hy
  have heffect := effect_pdbl_of_ok hrd hrs1 (not_badModulus hp3 hodd) hx hy
  rcases dblPoint_cases s.curve.a.toNat (s.pair rs1)
    (by omega : 1 < s.curve.p.toNat) with ⟨hg, q, hq, ht⟩ | ⟨hg, herr⟩
  · rw [hq] at heffect
    exact ⟨fun _ => ⟨q, ht, exec_of_effect_pair heffect⟩, fun hnot => absurd hg hnot⟩
  · rw [herr] at heffect
    exact ⟨fun hone => absurd hone hg, fun _ => exec_of_effect_error heffect⟩

/-- Settles O38: equal pairs take the doubling's branch, and an addition of others has a result exactly
when x1 - x2 is invertible. -/
theorem paddWritesTheChordPoint : Obligations.PaddWritesTheChordPoint := by
  intro rd rs1 rs2 s hrd hrs1 hrs2 hp3 hodd hx hy hx' hy'
  have hp := not_badModulus hp3 hodd
  have heffect := effect_padd_of_ok hrd hrs1 hrs2 hp hx hy hx' hy'
  refine ⟨fun heq => ?_, fun hne hg => ?_, fun hne hg => ?_⟩
  · rw [← heq, addPoint_self, ← effect_pdbl_of_ok hrd hrs1 hp hx hy] at heffect
    rw [exec_eq_finish, exec_eq_finish, heffect]
  · rcases addPoint_cases _ (by omega : 1 < s.curve.p.toNat) hne with ⟨-, q, hq, hc⟩ | ⟨hnot, -⟩
    · rw [hq] at heffect
      exact ⟨q, hc, exec_of_effect_pair heffect⟩
    · exact absurd hg hnot
  · rcases addPoint_cases _ (by omega : 1 < s.curve.p.toNat) hne with ⟨hone, -⟩ | ⟨-, herr⟩
    · exact absurd hone hg
    · rw [herr] at heffect
      exact exec_of_effect_error heffect

/-- Settles O39: 0 has no inverse; a point and its negative differ, p being odd, and have the same x. -/
theorem degeneratePointsRaiseNoinv : Obligations.DegeneratePointsRaiseNoinv := by
  intro rd rs1 rs2 s hrd hrs1 hrs2 hp3 hodd hx hy
  refine ⟨fun hy0 => ?_, fun hy0 hx2 hy2 => ?_⟩
  · obtain ⟨-, hno⟩ := pdblWritesTheTangentPoint rd rs1 s hrd hrs1 hp3 hodd hx hy
    have hzero : s.nat (rs1 + 1#4) = 0 := hy0
    exact hno (by rw [hzero, Nat.mul_zero, Nat.gcd_zero_left]; omega)
  · rw [Nat.mod_eq_of_lt (by omega)] at hy2
    have hne : s.pair rs1 ≠ s.pair rs2 := by
      rw [Point.ne_iff, hy2]
      omega
    obtain ⟨-, -, hno⟩ :=
      paddWritesTheChordPoint rd rs1 rs2 s hrd hrs1 hrs2 hp3 hodd hx hy (hx2 ▸ hx) (by omega)
    exact hno hne (by rw [hx2, sub_self, Int.gcd_zero_left, Int.natAbs_natCast]; omega)

/-- Settles O40: the checks of the two pairs and the addition itself do not depend on their order. -/
theorem paddIsSymmetric : Obligations.PaddIsSymmetric := by
  intro rd rs1 rs2 s
  have heffect : effect (.padd rd rs1 rs2) s = effect (.padd rd rs2 rs1) s := by
    rw [effect, effect, checkPair_comm rs1]
    rcases Classical.em (badModulus s.primeP) with hbad | hp
    · rw [checkModulus_of_bad _ hbad, checkModulus_of_bad _ hbad]
    · have hone : 1 < s.primeP := by unfold badModulus at hp; omega
      rw [checkRange_comm, addPoint_comm _ _ _ hone]
  rw [exec_eq_finish, exec_eq_finish, heffect]

/-- Settles O41: the checks in the order of 41_ecc.md R165, each reached when those before it pass. -/
theorem pointCommandsCheckPrimeAndRange : Obligations.PointCommandsCheckPrimeAndRange := by
  intro rd rs1 rs2 s hrd hrs1
  refine ⟨fun hbad => ?_, fun hp3 hodd hout => ?_⟩
  · have stops {α : Type} (k : Except ErrCode α) : checkModulus s.primeP k = .error .modulus :=
      checkModulus_of_bad k hbad
    refine ⟨?_, ?_, fun hrs2 => ?_, ?_, fun r odd => ?_, fun hkey => ?_⟩ <;>
      refine exec_of_effect_error (e := .modulus) ?_
    · simp only [effect, checkPair_of _ _ hrd, checkPair_of _ _ hrs1, stops]
    · simp only [effect, checkPair_of _ _ hrd, checkPair_of _ _ hrs1, stops]
    · simp only [effect, checkPair_of _ _ hrd, checkPair_of _ _ hrs1, checkPair_of _ _ hrs2, stops]
    · simp only [effect, checkPair_of _ _ hrs1, stops]
    · simp only [effect, checkPair_of _ _ hrd, stops]
    · simp only [effect, checkPair_of _ _ hrd, stops]
      rcases hkey with ⟨hlen, htag⟩ | ⟨hlen, htag | htag⟩ <;> simp [checkKey, hlen, htag, ibufSize]
  · have hp := not_badModulus hp3 hodd
    have stops {α : Type} (k : Except ErrCode α) : checkRange s.primeP (s.pair rs1) k = .error .range :=
      checkRange_of_outside k hout
    have passes {α : Type} (k : Except ErrCode α) : checkModulus s.primeP k = k := checkModulus_of _ k hp
    refine ⟨?_, ?_, fun hrs2 => ?_, fun hrs2 => ?_⟩ <;> refine exec_of_effect_error (e := .range) ?_
    · simp only [effect, checkPair_of _ _ hrd, checkPair_of _ _ hrs1, passes, stops]
    · simp only [effect, checkPair_of _ _ hrd, checkPair_of _ _ hrs1, passes, stops]
    · simp only [effect, checkPair_of _ _ hrd, checkPair_of _ _ hrs1, checkPair_of _ _ hrs2, passes, stops]
    · simp only [effect, checkPair_of _ _ hrd, checkPair_of _ _ hrs1, checkPair_of _ _ hrs2, passes,
        stops, checkRange_error]

/-- Settles O42: the machine's multiple is double-and-add's, and where that has none its only error is
NOINV. -/
theorem pmulComputesTheMultiple : Obligations.PmulComputesTheMultiple := by
  intro rd rs1 rs2 s hrd hrs1 hp3 hodd hx hy
  have hone : 1 < s.curve.p.toNat := by omega
  have heffect := effect_pmul_of_ok (rs2 := rs2) hrd hrs1 (not_badModulus hp3 hodd) hx hy
  have hok {r : Point} (hk : 1 ≤ s.nat rs2)
      (h : Multiplies s.curve.p.toNat s.curve.a.toNat (s.pair rs1) (s.nat rs2) r) :
      exec (.pmul rd rs1 rs2) s = .next { s with v := pairSet s rd r, status := doneStatus s.status } := by
    rw [checkScalar_of _ (by omega), (mulPoint_eq_ok_iff hone hk).2 h] at heffect
    exact exec_of_effect_pair heffect
  refine ⟨fun r h => hok (one_le_of_multiplies h) h, fun hk hno => ?_, fun hk => ?_, fun hk => ?_⟩
  · rw [checkScalar_of _ (by omega)] at heffect
    cases hmul : mulPoint s.curve.p.toNat (s.curve.a.toNat % s.curve.p.toNat) (s.nat rs2) (s.pair rs1) with
    | ok r => exact absurd ⟨r, (mulPoint_eq_ok_iff hone hk).1 hmul⟩ hno
    | error e =>
      obtain rfl := ladder_error hone hmul
      rw [hmul] at heffect
      exact exec_of_effect_error heffect
  · exact exec_of_effect_error (e := .scalar) (heffect.trans (if_pos hk))
  · have hone : Multiplies s.curve.p.toNat s.curve.a.toNat (s.pair rs1) (s.nat rs2) (s.pair rs1) := by
      rw [hk]
      exact .one
    rw [hok hk.ge hone]
    simp only [pairSet, State.pair, State.nat, BitVec.ofNat_toNat, BitVec.setWidth_eq]

/-- Settles O43: a PMUL that succeeds has double-and-add's point, and no step of it leaves the curve. -/
theorem pmulStaysOnTheCurve : Obligations.PmulStaysOnTheCurve := by
  intro rd rs1 rs2 s t _ _ hdone hon hexec hdone'
  obtain ⟨w, hw, rfl⟩ := effect_of_done hdone hexec hdone'
  simp only [effect, checkPair_eq_ok_iff, checkModulus_eq_ok_iff, checkRange_eq_ok_iff, checkScalar_eq_ok_iff,
    map_eq_ok_iff] at hw
  obtain ⟨-, -, hp, -, hk, r, hmul, rfl⟩ := hw
  have hone : 1 < s.curve.p.toNat := by unfold badModulus State.primeP at hp; omega
  have hr := onCurve_multiplies hon ((mulPoint_eq_ok_iff hone (by omega)).1 hmul)
  obtain ⟨hrx, hry, heq⟩ := hr
  rw [pair_apply_succeed hrx hry]
  exact ⟨hrx, hry, heq⟩

/-- Settles O47: PLOADG's pair is the generator's two registers, SECPLOAD's bank the reset's. -/
theorem generatorAndCurveLoads : Obligations.GeneratorAndCurveLoads := by
  refine ⟨fun rd s hrd => ?_, fun s => exec_of_effect_ok (i := .secpload) rfl⟩
  have heffect : effect (.ploadg rd) s = .ok (.pair rd ⟨s.curve.gx.toNat, s.curve.gy.toNat⟩) :=
    checkPair_of _ _ hrd
  rw [exec_of_effect_pair heffect]
  simp only [pairSet, BitVec.ofNat_toNat, BitVec.setWidth_eq]

end Sys2Proof.Machine
end

section
/-! SUPPORT. Decompression of a point and the SEC1 key (41_ecc.md sections 6, 9 and 10). -/

namespace Sys2Proof.Machine

open Sys2Proof.Safety

variable {s : State} {rd rs1 : RegIdx}

/-! Decompression (41_ecc.md R187 to R189) -/

/-- The coordinate that decompression takes of a root y: y, or its negative, by the parity asked for. -/
def withParity (p y : Nat) (odd : Bool) : Nat := if y % 2 = odd.toNat then y else (p - y) % p

theorem decompress_of_lt {p a b x : Nat} (odd : Bool) (hx : x < p) : decompress p a b x odd =
    (sqrtMod (curveRhs p a b x) p).map fun y => ⟨x, withParity p y odd⟩ := by
  rw [decompress, if_neg (Nat.not_le.2 hx)]
  cases sqrtMod (curveRhs p a b x) p with
  | error e => rfl
  | ok y => simp only [withParity, Except.map, ne_eq, ite_not]

theorem withParity_lt {p y : Nat} (odd : Bool) (hy : y < p) : withParity p y odd < p := by
  unfold withParity
  split_ifs
  · exact hy
  · exact Nat.mod_lt _ (by omega)

/-- The parity is the one asked for, unless y is 0: p is odd. -/
theorem withParity_parity {p y : Nat} (odd : Bool) (hp : p % 2 = 1) (hy : y < p) :
    withParity p y odd % 2 = odd.toNat ∨ withParity p y odd = 0 := by
  have hodd : odd.toNat < 2 := Bool.toNat_lt odd
  unfold withParity
  split_ifs with h
  · exact .inl h
  · rcases Nat.eq_zero_or_pos y with rfl | hpos
    · simp
    · left
      rw [Nat.mod_eq_of_lt (by omega : p - y < p)]
      omega

/-- y and its negative have one square. -/
theorem natCast_withParity_sq {p y : Nat} (odd : Bool) (hy : y < p) :
    (withParity p y odd : ZMod p) ^ 2 = (y : ZMod p) ^ 2 := by
  unfold withParity
  split_ifs
  · rfl
  · rw [ZMod.natCast_mod, Nat.cast_sub hy.le, ZMod.natCast_self, zero_sub, neg_sq]

/-- The curve's right side with the bank's coefficients. -/
theorem natCast_curveRhs (p a b x : Nat) :
    (curveRhs p (a % p) (b % p) x : ZMod p) = (x : ZMod p) ^ 3 + a * x + b := by
  rw [curveRhs_mod_coeffs, ZMod.natCast_mod]
  push_cast
  ring

/-- An x in range has a point exactly when the right side of the curve's equation is a square. -/
theorem exists_onCurve_iff {c : Curve} {x : Nat} (hx : x < c.p.toNat) : (∃ y, OnCurve c ⟨x, y⟩) ↔
    ∃ y : Nat, y * y % c.p.toNat =
      curveRhs c.p.toNat (c.a.toNat % c.p.toNat) (c.b.toNat % c.p.toNat) x % c.p.toNat := by
  have hpos : 0 < c.p.toNat := by omega
  simp only [← ZMod.natCast_eq_natCast_iff', natCast_curveRhs, ← pow_two, Nat.cast_pow]
  constructor
  · rintro ⟨y, h⟩
    obtain ⟨-, -, heq⟩ := onCurve_iff.1 h
    exact ⟨y, heq⟩
  · rintro ⟨y, heq⟩
    refine ⟨y % c.p.toNat, onCurve_iff.2 ⟨hx, Nat.mod_lt _ hpos, ?_⟩⟩
    rw [ZMod.natCast_mod]
    exact heq

/-- Decompression that succeeds gives a point of the curve, with the x and the parity asked for. -/
theorem decompress_ok {c : Curve} {x : Nat} {odd : Bool} {q : Point}
    (h : decompress c.p.toNat (c.a.toNat % c.p.toNat) (c.b.toNat % c.p.toNat) x odd = .ok q) :
    OnCurve c q ∧ q.x = x ∧ (q.y % 2 = odd.toNat ∨ q.y = 0) := by
  have hx : x < c.p.toNat := by
    by_contra hge
    rw [decompress, if_pos (Nat.not_lt.1 hge)] at h
    cases h
  rw [decompress_of_lt odd hx] at h
  obtain ⟨y, hy, rfl⟩ := map_eq_ok_iff.1 h
  obtain ⟨hp, hlt, hsq⟩ := sqrtMod_ok hy
  have hodd : c.p.toNat % 2 = 1 := by unfold badModulus at hp; omega
  refine ⟨onCurve_iff.2 ⟨hx, withParity_lt odd hlt, ?_⟩, rfl, withParity_parity odd hodd hlt⟩
  rw [natCast_withParity_sq odd hlt, ← natCast_curveRhs, pow_two, ← Nat.cast_mul,
    ZMod.natCast_eq_natCast_iff']
  exact hsq

theorem decompress_of_le {p a b x : Nat} (odd : Bool) (hx : p ≤ x) : decompress p a b x odd = .error .range :=
  if_pos hx

/-- With a root finder, decompression finds a point wherever there is one. -/
theorem decompress_of_exists {c : Curve} {x : Nat} (odd : Bool) (hp : HasRootFinder c.p.toNat)
    (h : ∃ y, OnCurve c ⟨x, y⟩) :
    ∃ q, decompress c.p.toNat (c.a.toNat % c.p.toNat) (c.b.toNat % c.p.toNat) x odd = .ok q := by
  have hx : x < c.p.toNat := by
    obtain ⟨y, hx, -⟩ := h
    exact hx
  obtain ⟨r, hr⟩ := sqrtMod_of_square hp ((exists_onCurve_iff hx).1 h)
  exact ⟨_, by rw [decompress_of_lt odd hx, hr]; rfl⟩

theorem decompress_of_not_exists {c : Curve} {x : Nat} (odd : Bool) (hp : ¬badModulus c.p.toNat)
    (hx : x < c.p.toNat) (h : ¬∃ y, OnCurve c ⟨x, y⟩) :
    decompress c.p.toNat (c.a.toNat % c.p.toNat) (c.b.toNat % c.p.toNat) x odd = .error .nonresidue := by
  rw [decompress_of_lt odd hx, sqrtMod_of_nonsquare hp (mt (exists_onCurve_iff hx).2 h)]
  rfl

theorem not_badModulus_of_hasRootFinder {p : Nat} (h : HasRootFinder p) : ¬badModulus p := by
  obtain ⟨hprime, hmod⟩ := h
  have := hprime.one_lt
  unfold badModulus
  omega

/-- A point of the curve mod a prime is the only one with its x and its parity. -/
theorem onCurve_unique {c : Curve} {q r : Point} (hp : c.p.toNat.Prime) (hodd : c.p.toNat % 2 = 1)
    (hq : OnCurve c q) (hr : OnCurve c r) (hx : q.x = r.x) (hpar : q.y % 2 = r.y % 2 ∨ q.y = 0) : q = r := by
  have : Fact c.p.toNat.Prime := ⟨hp⟩
  obtain ⟨hqx, hqy, hqe⟩ := onCurve_iff.1 hq
  obtain ⟨hrx, hry, hre⟩ := onCurve_iff.1 hr
  have hsq : (q.y : ZMod c.p.toNat) ^ 2 = (r.y : ZMod c.p.toNat) ^ 2 := by rw [hqe, hre, hx]
  have hy : (q.y : ZMod c.p.toNat) = r.y := by
    rcases sq_eq_sq_iff_eq_or_eq_neg.1 hsq with h | h
    · exact h
    · have hsum : ((q.y + r.y : Nat) : ZMod c.p.toNat) = 0 := by
        push_cast
        rw [h]
        ring
      have hdvd : c.p.toNat ∣ q.y + r.y := (ZMod.natCast_eq_zero_iff _ _).1 hsum
      obtain ⟨k, hk⟩ := hdvd
      have hk2 : k < 2 := by
        by_contra hge
        have : c.p.toNat * 2 ≤ c.p.toNat * k := Nat.mul_le_mul_left _ (Nat.not_lt.1 hge)
        omega
      have hq0 : q.y = r.y := by
        interval_cases k <;> omega
      rw [hq0]
  exact Point.ext_of_lt hqx hqy hrx hry (by rw [hx]) hy

/-! The key (41_ecc.md R191, R196, R198) -/

theorem beInt_ibytes (s : State) (j n : Nat) : beInt (s.ibytes j n) = beValue (fun i => s.ibuf (j + i)) n :=
  (beValue_eq_beInt _ n).symm

theorem beInt_lt (bs : List Byte) : beInt bs < 256 ^ bs.length := by
  rw [beInt_eq_ofDigits]
  have h := Nat.ofDigits_lt_base_pow_length (b := 256) (l := (bs.map BitVec.toNat).reverse) (by decide)
    fun d hd => lt_of_mem_map_toNat (List.mem_reverse.1 hd)
  simpa using h

theorem keyX_lt (s : State) : s.keyX < 2 ^ 256 := by
  have h := beInt_lt (s.ibytes 1 32)
  rw [length_ibytes] at h
  exact h.trans_eq (by norm_num)

/-- Byte i of N big-endian bytes. -/
theorem getElem?_beBytes {n i : Nat} (v : Nat) (hi : i < n) :
    (beBytes n v)[i]? = some (BitVec.ofNat 8 (v / 256 ^ (n - 1 - i))) := by
  induction n generalizing v with
  | zero => omega
  | succ n ih =>
    rcases Nat.lt_or_ge i n with hlt | hge
    · rw [beBytes, List.getElem?_append_left (by rwa [beBytes_length]), ih _ hlt,
        Nat.div_div_eq_div_mul, ← pow_succ', show n - 1 - i + 1 = n + 1 - 1 - i by omega]
    · obtain rfl : i = n := by omega
      rw [beBytes, List.getElem?_append_right (by rw [beBytes_length]), beBytes_length]
      simp

theorem checkKey_of_uncompressed {α : Type} (k : Except ErrCode α) (hlen : s.ilen = 65#16)
    (htag : s.ibuf 0 = 0x04#8) : checkKey s k = k := by
  simp [checkKey, hlen, htag, ibufSize]

theorem checkKey_of_compressed {α : Type} (k : Except ErrCode α) (hlen : s.ilen = 33#16)
    (htag : s.ibuf 0 = 0x02#8 ∨ s.ibuf 0 = 0x03#8) : checkKey s k = k := by
  rcases htag with htag | htag <;> simp [checkKey, hlen, htag, ibufSize]

/-- SEC1DEC of an uncompressed key: the modulus check, then the range check (41_ecc.md R197). -/
theorem effect_sec1dec_of_uncompressed (hrd : pairOk rd = true) (hlen : s.ilen = 65#16)
    (htag : s.ibuf 0 = 0x04#8) :
    effect (.sec1dec rd) s = checkModulus s.curve.p.toNat
      (checkRange s.curve.p.toNat ⟨s.keyX, s.keyY⟩ (.ok (.pair rd ⟨s.keyX, s.keyY⟩))) := by
  rw [effect, checkPair_of _ _ hrd, checkKey_of_uncompressed _ hlen htag, State.keyPoint, if_pos htag,
    map_checkRange]
  rfl

/-- SEC1DEC of a compressed key: the modulus check, then decompression of its x (41_ecc.md R196). -/
theorem effect_sec1dec_of_compressed (hlen : s.ilen = 33#16) (htag : s.ibuf 0 = 0x02#8 ∨ s.ibuf 0 = 0x03#8) :
    effect (.sec1dec rd) s = checkPair rd (checkModulus s.curve.p.toNat
      ((decompress s.curve.p.toNat (s.curve.a.toNat % s.curve.p.toNat)
        (s.curve.b.toNat % s.curve.p.toNat) s.keyX
        (s.ibuf 0 == 0x03#8)).map (.pair rd))) := by
  have hne : s.ibuf 0 ≠ 0x04#8 := by rcases htag with h | h <;> simp [h]
  rw [effect, checkKey_of_compressed _ hlen htag, State.keyPoint, if_neg hne]
  rfl

theorem effect_pdecomp (rd rs1 : RegIdx) (odd : Bool) (s : State) :
    effect (.pdecomp rd rs1 odd) s = checkPair rd (checkModulus s.curve.p.toNat
      ((decompress s.curve.p.toNat (s.curve.a.toNat % s.curve.p.toNat)
        (s.curve.b.toNat % s.curve.p.toNat) (s.nat rs1)
        odd).map (.pair rd))) := rfl

theorem effect_sec1enc (hrs1 : pairOk rs1 = true) (compressed : Bool) :
    effect (.sec1enc rs1 compressed) s = .ok (.bytes (sec1Bytes (s.pair rs1) compressed)) :=
      checkPair_of _ _ hrs1

theorem length_sec1Bytes_le (q : Point) (compressed : Bool) : (sec1Bytes q compressed).length ≤ obufSize := by
  rw [length_sec1Bytes]
  cases compressed <;> decide

theorem exec_sec1enc (hrs1 : pairOk rs1 = true) (compressed : Bool) : exec (.sec1enc rs1 compressed) s =
    .next (s.output (sec1Bytes (s.pair rs1) compressed)).succeed :=
      exec_of_effect_ok (effect_sec1enc hrs1 compressed)

/-! The key's bytes: the tag, then each coordinate -/

theorem sec1Bytes_tag_compressed (q : Point) :
    (sec1Bytes q true)[0]? = some (if q.y % 2 = 1 then 0x03#8 else 0x02#8) := rfl

theorem sec1Bytes_tag_uncompressed (q : Point) : (sec1Bytes q false)[0]? = some 0x04#8 := rfl

theorem sec1Bytes_drop_x (q : Point) (compressed : Bool) :
    ((sec1Bytes q compressed).drop 1).take 32 = beBytes 32 q.x := by
  cases compressed with
  | true => exact List.take_of_length_le (beBytes_length 32 q.x).le
  | false => exact List.take_left' (beBytes_length 32 q.x)

theorem sec1Bytes_drop_y (q : Point) : ((sec1Bytes q false).drop 33).take 32 = beBytes 32 q.y := by
  have hdrop : (beBytes 32 q.x ++ beBytes 32 q.y).drop 32 = beBytes 32 q.y :=
    List.drop_left' (beBytes_length 32 q.x)
  rw [sec1Bytes, if_neg (by decide), List.drop_succ_cons, hdrop]
  exact List.take_of_length_le (beBytes_length 32 q.y).le

theorem getElem?_of_drop_take {l l' : List Byte} {j n i : Nat} (h : (l.drop j).take n = l') (hi : i < n) :
    l[j + i]? = l'[i]? := by
  rw [← h, List.getElem?_take_of_lt hi, List.getElem?_drop]

theorem sec1Bytes_x (q : Point) (compressed : Bool) {i : Nat} (hi : i < 32) :
    (sec1Bytes q compressed)[1 + i]? = some (BitVec.ofNat 8 (q.x / 256 ^ (31 - i))) := by
  rw [getElem?_of_drop_take (sec1Bytes_drop_x q compressed) hi, getElem?_beBytes _ hi]

theorem sec1Bytes_y (q : Point) {i : Nat} (hi : i < 32) :
    (sec1Bytes q false)[33 + i]? = some (BitVec.ofNat 8 (q.y / 256 ^ (31 - i))) := by
  rw [getElem?_of_drop_take (sec1Bytes_drop_y q) hi, getElem?_beBytes _ hi]

end Sys2Proof.Machine
end

section
/-! The statements of 41_ecc.md sections 6, 9 and 10. -/

namespace Sys2Proof.Machine

open Sys2Proof.Safety

/-- Settles O45: decompression only gives points of the curve. -/
theorem pdecompNeverLeavesTheCurve : Obligations.PdecompNeverLeavesTheCurve := by
  intro rd rs1 odd s t _ hdone hexec hdone'
  obtain ⟨w, hw, rfl⟩ := effect_of_done hdone hexec hdone'
  rw [effect_pdecomp, checkPair_eq_ok_iff, checkModulus_eq_ok_iff, map_eq_ok_iff] at hw
  obtain ⟨-, -, q, hq, rfl⟩ := hw
  obtain ⟨⟨hqx, hqy, heq⟩, hx, hpar⟩ := decompress_ok hq
  rw [pair_apply_succeed hqx hqy]
  exact ⟨⟨hqx, hqy, heq⟩, hx, hpar⟩

/-- Settles O46: decompression finds a point where there is one, and names its error where not. -/
theorem pdecompFindsThePoint : Obligations.PdecompFindsThePoint := by
  intro rd rs1 odd s hrd hp
  have hgood := not_badModulus_of_hasRootFinder hp
  have heffect := effect_pdecomp rd rs1 odd s
  rw [checkPair_of _ _ hrd, checkModulus_of _ _ hgood] at heffect
  refine ⟨fun hex => ?_, fun hx hno => ?_, fun hx => ?_⟩
  · obtain ⟨q, hq⟩ := decompress_of_exists odd hp hex
    obtain ⟨hon, hqx, hpar⟩ := decompress_ok hq
    rw [hq] at heffect
    obtain ⟨x, y⟩ := q
    obtain rfl : x = s.nat rs1 := hqx
    exact ⟨y, hon, hpar, exec_of_effect_pair heffect⟩
  · rw [decompress_of_not_exists odd hgood hx hno] at heffect
    exact exec_of_effect_error heffect
  · rw [decompress_of_le odd hx] at heffect
    exact exec_of_effect_error heffect

/-- Settles O48: after the tag and the modulus only the range is checked. -/
theorem sec1decOfAnUncompressedKey : Obligations.Sec1decOfAnUncompressedKey := by
  intro rd s hrd hlen htag hp3 hodd
  rw [← beInt_ibytes, ← beInt_ibytes]
  have heffect := effect_sec1dec_of_uncompressed hrd hlen htag
  rw [checkModulus_of _ _ (not_badModulus hp3 hodd)] at heffect
  refine ⟨fun hx hy => ?_, fun hout => ?_⟩
  · rw [checkRange_of _ _ _ hx hy] at heffect
    exact exec_of_effect_pair heffect
  · rw [checkRange_of_outside _ hout] at heffect
    exact exec_of_effect_error heffect

/-- Settles O49: the two commands decompress the same x, with the same checks before it, and write the
same pair. -/
theorem sec1decOfACompressedKeyIsPdecomp : Obligations.Sec1decOfACompressedKeyIsPdecomp := by
  intro rd rs1 s hlen htag
  have hsec := effect_sec1dec_of_compressed (rd := rd) hlen htag
  refine ⟨fun hx => ?_, ?_⟩
  · have heffect : effect (.sec1dec rd) s = effect (.pdecomp rd rs1 (s.ibuf 0 == 0x03#8)) s := by
      rw [hsec, effect_pdecomp, hx, ← beInt_ibytes]
      rfl
    rw [exec_eq_finish, exec_eq_finish, heffect]
  · intro x
    have hxkey : x = s.keyX := (beInt_ibytes s 1 32).symm
    have hnat : (s.setV rs1 (BitVec.ofNat 256 x)).nat rs1 = s.keyX := by
      rw [hxkey]
      exact s.nat_setV_ofNat rs1 (keyX_lt s)
    have heffect : effect (.pdecomp rd rs1 (s.ibuf 0 == 0x03#8)) (s.setV rs1 (BitVec.ofNat 256 x)) =
        effect (.sec1dec rd) s := by
      rw [effect_pdecomp, hnat, hsec]
      rfl
    cases h : effect (.sec1dec rd) s with
    | error e =>
      exact ⟨_, _, exec_of_effect_error h, exec_of_effect_error (heffect.trans h),
        fun h0 => absurd h0 e.code_ne_zero, fun _ => rfl⟩
    | ok w =>
      obtain ⟨q, rfl⟩ : ∃ q, w = .pair rd q := by
        rw [hsec] at h
        obtain ⟨-, h⟩ := checkPair_eq_ok_iff.1 h
        obtain ⟨-, h⟩ := checkModulus_eq_ok_iff.1 h
        obtain ⟨q, -, hq⟩ := map_eq_ok_iff.1 h
        exact ⟨q, hq.symm⟩
      refine ⟨_, _, exec_of_effect_ok h, exec_of_effect_ok (heffect.trans h), fun _ => ?_,
        fun h0 => absurd rfl h0⟩
      have hne : rd + 1#4 ≠ rd := fun h => toNat_ne_toNat_add_one rd (congrArg BitVec.toNat h).symm
      have hfst (u : State) : (u.setPair rd q).getV rd = BitVec.ofNat 256 q.x := by
        rw [State.setPair, State.setNat, State.getV_setV_of_ne _ _ _ _ hne, State.setNat,
          State.getV_setV_self]
      have hsnd (u : State) : (u.setPair rd q).getV (rd + 1#4) = BitVec.ofNat 256 q.y :=
        State.getV_setV_self _ _ _
      have hread (r : RegIdx) (u : State) : ((Effect.pair rd q).apply u).succeed.getV r =
          (u.setPair rd q).getV r := rfl
      simp only [hread, hfst, hsnd]
      rfl

/-- Settles O50: the checks in the order of R197, each reached when those before it pass. -/
theorem sec1decChecksItsKeyInOrder : Obligations.Sec1decChecksItsKeyInOrder := by
  intro rd s hrd
  have heffect {e : ErrCode} (h : ∀ k : Except ErrCode Effect, checkKey s k = .error e) :
      exec (.sec1dec rd) s = .next (ended s e.code) := by
    refine exec_of_effect_error ?_
    rw [effect, checkPair_of _ _ hrd, h]
  refine ⟨fun hlen => heffect (e := .length) fun k => ?_, fun h1 h256 =>
    ⟨fun h2 h3 h4 => heffect (e := .format) fun k => ?_, fun htag hlen => heffect (e := .length) fun k => ?_,
      fun htag hlen => heffect (e := .length) fun k => ?_⟩⟩
  · unfold checkKey
    rcases hlen with hlong | hzero
    · exact if_pos hlong
    · simp [hzero]
  all_goals
    have hlong : ¬s.ilen.toNat > ibufSize := Nat.not_lt.2 h256
    have hzero : s.ilen.toNat ≠ 0 := by omega
    unfold checkKey
    rw [if_neg hlong, if_neg hzero]
  · simp [h2, h3, h4]
  · simp [htag, hlen]
  · rcases htag with htag | htag <;> simp [htag, hlen]

/-- Settles O51: the output is the key's bytes, tag first. -/
theorem sec1encWritesTheKey : Obligations.Sec1encWritesTheKey := by
  intro rs1 s hrs1 hwf
  have byte (compressed : Bool) {j : Nat} {b : Byte} (hj : (sec1Bytes (s.pair rs1) compressed)[j]? = some b) :
      (s.output (sec1Bytes (s.pair rs1) compressed)).succeed.obuf j = b :=
    State.obuf_output hwf (length_sec1Bytes_le _ _) hj
  refine ⟨⟨_, exec_sec1enc hrs1 true, ?_⟩, ⟨_, exec_sec1enc hrs1 false, ?_⟩⟩
  · obtain ⟨hstate, -, hframe⟩ := State.output_spec hwf (length_sec1Bytes_le (s.pair rs1) true)
    rw [length_sec1Bytes] at hstate hframe
    refine ⟨hstate, byte true (sec1Bytes_tag_compressed _), fun i hi => ?_, hframe⟩
    rw [byte true (sec1Bytes_x _ true hi), BitVec.toNat_ofNat]
    rfl
  · obtain ⟨hstate, -, hframe⟩ := State.output_spec hwf (length_sec1Bytes_le (s.pair rs1) false)
    rw [length_sec1Bytes] at hstate hframe
    refine ⟨hstate, byte false (sec1Bytes_tag_uncompressed _), fun i hi => ?_, fun i hi => ?_, hframe⟩
    · rw [byte false (sec1Bytes_x _ false hi), BitVec.toNat_ofNat]
      rfl
    · rw [byte false (sec1Bytes_y _ hi), BitVec.toNat_ofNat]
      rfl

/-- Settles O52: the copied key has its tag and its length, and its coordinates read back; of a
compressed key decompression finds the one point with that x and parity. -/
theorem sec1KeyRoundTrip : Obligations.Sec1KeyRoundTrip := by
  intro rd rs1 compressed s t u hrd hrs1 hwf hexec hcurve hilen hcopy hcase
  obtain rfl := Host.Outcome.next.inj ((exec_sec1enc hrs1 compressed).symm.trans hexec)
  set q := s.pair rs1 with hq
  have hfits := length_sec1Bytes_le q compressed
  have hlen := length_sec1Bytes q compressed
  have hulen : u.ilen = BitVec.ofNat 16 (if compressed then 33 else 65) := by
    rw [hilen, ← hlen]
    rfl
  have hcopied : ∀ j < (sec1Bytes q compressed).length,
      u.ibuf j = (s.output (sec1Bytes q compressed)).succeed.obuf j :=
    fun j hj => hcopy j (hj.trans_eq (s.output_olen_toNat hfits).symm)
  have htag {b : Byte} (hb : (sec1Bytes q compressed)[0]? = some b) : u.ibuf 0 = b := by
    rw [hcopied 0 (by rw [hlen]; split_ifs <;> decide), State.obuf_output hwf hfits hb]
  have hkeyX : u.keyX = q.x := by
    rw [State.keyX, ibytes_of_copied hwf hfits hcopied (by rw [hlen]; split_ifs <;> decide), sec1Bytes_drop_x,
      beInt_beBytes]
    exact (s.getV rs1).isLt.trans_eq (by norm_num)
  rcases hcase with ⟨rfl, hp3, hodd, hx, hy⟩ | ⟨rfl, hp, hon⟩
  · have hkeyY : u.keyY = q.y := by
      rw [State.keyY, ibytes_of_copied hwf hfits hcopied (by rw [hlen]; decide), sec1Bytes_drop_y,
        beInt_beBytes]
      exact (s.getV (rs1 + 1#4)).isLt.trans_eq (by norm_num)
    have heffect := effect_sec1dec_of_uncompressed hrd hulen (htag (sec1Bytes_tag_uncompressed q))
    rw [hcurve, hkeyX, hkeyY, checkModulus_of _ _ (not_badModulus hp3 hodd),
      checkRange_of _ _ _ hx hy] at heffect
    exact exec_of_effect_pair heffect
  · have htag' := htag (sec1Bytes_tag_compressed q)
    have hflag : (u.ibuf 0 == 0x03#8).toNat = q.y % 2 := by
      rw [htag']
      rcases Nat.mod_two_eq_zero_or_one q.y with h | h <;> simp [h]
    have hbytes : u.ibuf 0 = 0x02#8 ∨ u.ibuf 0 = 0x03#8 := by
      rw [htag']
      split_ifs
      · exact .inr rfl
      · exact .inl rfl
    have hgood := not_badModulus_of_hasRootFinder hp
    obtain ⟨r, hr⟩ := decompress_of_exists (x := q.x) (u.ibuf 0 == 0x03#8) hp ⟨q.y, hon⟩
    obtain ⟨hron, hrx, hpar⟩ := decompress_ok hr
    rw [hflag] at hpar
    obtain ⟨hprime, -⟩ := hp
    have hrq : r = q := onCurve_unique hprime (by unfold badModulus at hgood; omega) hron hon hrx hpar
    have heffect := effect_sec1dec_of_compressed (rd := rd) hulen hbytes
    rw [hcurve, hkeyX, checkPair_of _ _ hrd, checkModulus_of _ _ hgood, hr, hrq] at heffect
    exact exec_of_effect_pair heffect

end Sys2Proof.Machine
end
